-- ==== Sys2Proof/Word.lean ====
section
/-!
DEFINITION. The words of the block and the names it is built from: bytes and 32-bit words (R7), the two ports (R70), the
two rings (R23), the two interrupt sources (R29), the host contexts (R32), and one value per ring, per source or per
context.
-/

namespace Sys2Proof

/-- A byte of a frame or a payload. -/
abbrev Byte := BitVec 8

/-- A 16-bit unsigned argument, length or MTU (R71, R22, R30). -/
abbrev Half := BitVec 16

/-- A 32-bit unsigned word (R7). -/
abbrev Word := BitVec 32

/-- `inc32(c) = (c + 1) mod 2^32` (R7). -/
def inc32 (c : Word) : Word := c + 1

/-- The port a word comes on: it tells the word's format, H or C (R70). -/
inductive Port where
  | host
  | controller
  deriving DecidableEq, Repr

/-- The two rings (R23). -/
inductive Ring where
  | tx
  | rx
  deriving DecidableEq, Repr

/-- The two interrupt sources: transmit-complete and receive-ready (R29, R203). -/
inductive Source where
  | txc
  | rxr
  deriving DecidableEq, Repr

/-- The host contexts (R6, R32). -/
inductive Ctx where
  | mainline
  | isrTx
  | isrRx
  deriving DecidableEq, Repr

/-- The four drop counters GET_COUNTERS selects from (R31, R81). -/
inductive Counter where
  | err
  | nobuf
  | miss
  | dlverr
  deriving DecidableEq, Repr

/-- The other source of the two. -/
def Source.other : Source → Source
  | .txc => .rxr
  | .rxr => .txc

/-- One value for each ring. -/
structure PerRing (α : Type) where
  tx : α
  rx : α
  deriving DecidableEq, Repr

/-- One value for each interrupt source. -/
structure PerSource (α : Type) where
  txc : α
  rxr : α
  deriving DecidableEq, Repr

/-- One value for each host context. -/
structure PerCtx (α : Type) where
  mainline : α
  isrTx : α
  isrRx : α
  deriving DecidableEq, Repr

/-- The value of ring `r`. -/
def PerRing.get {α : Type} (p : PerRing α) : Ring → α
  | .tx => p.tx
  | .rx => p.rx

/-- `p` with ring `r`'s value replaced. -/
def PerRing.set {α : Type} (p : PerRing α) (r : Ring) (v : α) : PerRing α :=
  match r with
  | .tx => { p with tx := v }
  | .rx => { p with rx := v }

/-- The value of source `src`. -/
def PerSource.get {α : Type} (p : PerSource α) : Source → α
  | .txc => p.txc
  | .rxr => p.rxr

/-- `p` with source `src`'s value replaced. -/
def PerSource.set {α : Type} (p : PerSource α) (src : Source) (v : α) : PerSource α :=
  match src with
  | .txc => { p with txc := v }
  | .rxr => { p with rxr := v }

/-- The value of context `c`. -/
def PerCtx.get {α : Type} (p : PerCtx α) : Ctx → α
  | .mainline => p.mainline
  | .isrTx => p.isrTx
  | .isrRx => p.isrRx

/-- `p` with context `c`'s value replaced. -/
def PerCtx.set {α : Type} (p : PerCtx α) (c : Ctx) (v : α) : PerCtx α :=
  match c with
  | .mainline => { p with mainline := v }
  | .isrTx => { p with isrTx := v }
  | .isrRx => { p with isrRx := v }

end Sys2Proof
end

