-- ==== Sys2Proof/Syntax.lean ====
section
/-!
DEFINITION. The host commands of format H (R72, R73) and the controller events of format C (R75), one constructor for
each row of spec/opcode_table.json. A payload (R83) is an operand.
-/

namespace Sys2Proof

/-- The instructions of the block: 14 host commands, then 4 controller events. -/
inductive Instr where
  /-- INIT (R100). -/
  | init
  /-- IF_UP: the requested MTU, 0 meaning the default, and the payload (R150). -/
  | ifUp (mtu : Half) (payload : List Byte)
  /-- TRANSMIT: LEN and the frame (R120). -/
  | transmit (len : Half) (frame : List Byte)
  /-- RECEIVE (R130). -/
  | receive
  /-- DRAIN (R132). -/
  | drain
  /-- ACK_RX (R134). -/
  | ackRx
  /-- ACK_TX (R190). -/
  | ackTx
  /-- LINK_POLL (R151). -/
  | linkPoll
  /-- GET_STATUS (R152). -/
  | getStatus
  /-- GET_IFINFO (R153). -/
  | getIfinfo
  /-- IRQ_MASK: the new `ie[TXC]` and `ie[RXR]` (R191). -/
  | irqMask (tx rx : Bool)
  /-- EOI of one source (R192). -/
  | eoi (src : Source)
  /-- GET_COUNTERS (R154). -/
  | getCounters (sel : Counter)
  /-- GET_DESC: ring and slot index (R155). -/
  | getDesc (ring : Ring) (idx : Byte)
  /-- TX_DONE (R170). -/
  | txDone
  /-- RX_FRAME: L, the two error inputs and the received bytes (R171). -/
  | rxFrame (len : Half) (crcErr otherErr : Bool) (bytes : List Byte)
  /-- RX_BERR (R172). -/
  | rxBerr
  /-- PHY_LINK (R173). -/
  | phyLink (v : Bool)
  deriving DecidableEq, Repr

/-- The port an instruction comes on (R70). -/
def Instr.port : Instr → Port
  | .init | .ifUp _ _ | .transmit _ _ | .receive | .drain | .ackRx | .ackTx | .linkPoll | .getStatus | .getIfinfo
  | .irqMask _ _ | .eoi _ | .getCounters _ | .getDesc _ _ => .host
  | .txDone | .rxFrame _ _ _ _ | .rxBerr | .phyLink _ => .controller

/-- The payload an instruction carries (R83, R75). -/
def Instr.payload : Instr → List Byte
  | .ifUp _ payload => payload
  | .transmit _ frame => frame
  | .rxFrame _ _ _ bytes => bytes
  | .init | .receive | .drain | .ackRx | .ackTx | .linkPoll | .getStatus | .getIfinfo | .irqMask _ _ | .eoi _
  | .getCounters _ | .getDesc _ _ | .txDone | .rxBerr | .phyLink _ => []

end Sys2Proof
end

