-- ==== Sys2Proof/WellFormed.lean ====
section
/-!
DEFINITION. Which terms of Instr some word and payload stand for. Every field has the width of its encoding by its type;
one check remains: an RX_FRAME carries exactly L bytes (R76). TRANSMIT and IF_UP carry a payload of any length (R83).
-/

namespace Sys2Proof

/-- The instruction is one that a word with a payload decodes to. -/
def Instr.wellFormed : Instr → Bool
  | .rxFrame len _ _ bytes => bytes.length == len.toNat
  | .init | .ifUp _ _ | .transmit _ _ | .receive | .drain | .ackRx | .ackTx | .linkPoll | .getStatus | .getIfinfo
  | .irqMask _ _ | .eoi _ | .getCounters _ | .getDesc _ _ | .txDone | .rxBerr | .phyLink _ => true

end Sys2Proof
end

