-- ==== Sys2Proof/Decode.lean ====
section
/-!
DEFINITION. Decoding of words on the two ports (R70 to R76, R83, R84), total, with a name for every rejection; then the
encoder, the rows of spec/opcode_table.json, the byte order of a word on a byte-wide channel (R56), the
pseudo-instructions (R86) and the assembler text (R85).
-/

namespace Sys2Proof

/-- Why a word with a payload stands for no instruction. On the host port each of these is `Illegal` (R74), on the
controller port `Ignored` (R76). -/
inductive Reject where
  /-- A reserved OP or EV code. -/
  | reservedCode
  /-- A must-be-zero bit is one. -/
  | reservedBit
  /-- A payload where none is allowed, or an RX_FRAME payload of another length than L. -/
  | payloadLength
  /-- Fewer than the four bytes of a word, on a byte-wide channel (the model's choice, entry 15). -/
  | truncated
  deriving DecidableEq, Repr

/-- The operation code, bits [31:28] (R70). -/
def wordCode (w : Word) : BitVec 4 := w.extractLsb' 28 4

/-- ARG, bits [15:0] (R71), and L of RX_FRAME (R75). -/
def wordArg (w : Word) : Half := w.extractLsb' 0 16

/-- `i` if the payload is empty (R83, R76). -/
def withoutPayload (i : Instr) (payload : List Byte) : Except Reject Instr :=
  if payload = [] then .ok i else .error .payloadLength

/-- A command that takes no ARG: all of it must be zero (R73). -/
def decodePlain (i : Instr) (w : Word) (payload : List Byte) : Except Reject Instr :=
  if wordArg w = 0#16 then withoutPayload i payload else .error .reservedBit

/-- IRQ_MASK: ARG[0] is the new `ie[TXC]`, ARG[1] the new `ie[RXR]`, ARG[15:2] must be zero (R73). -/
def decodeIrqMask (w : Word) (payload : List Byte) : Except Reject Instr :=
  if w.extractLsb' 2 14 = 0#14 then withoutPayload (.irqMask (w.getLsbD 0) (w.getLsbD 1)) payload
  else .error .reservedBit

/-- EOI: ARG[0] is the source, ARG[15:1] must be zero (R73). -/
def decodeEoi (w : Word) (payload : List Byte) : Except Reject Instr :=
  if w.extractLsb' 1 15 = 0#15 then withoutPayload (.eoi (if w.getLsbD 0 then .rxr else .txc)) payload
  else .error .reservedBit

/-- The counter a selector names (R81). -/
def counterOfSel (bit1 bit0 : Bool) : Counter :=
  match bit1, bit0 with
  | false, false => .err
  | false, true => .nobuf
  | true, false => .miss
  | true, true => .dlverr

/-- GET_COUNTERS: ARG[1:0] is the selector, ARG[15:2] must be zero (R73, R81). -/
def decodeGetCounters (w : Word) (payload : List Byte) : Except Reject Instr :=
  if w.extractLsb' 2 14 = 0#14 then withoutPayload (.getCounters (counterOfSel (w.getLsbD 1) (w.getLsbD 0))) payload
  else .error .reservedBit

/-- GET_DESC: ARG[15] is the ring, ARG[7:0] the slot, ARG[14:8] must be zero (R73). -/
def decodeGetDesc (w : Word) (payload : List Byte) : Except Reject Instr :=
  if w.extractLsb' 8 7 = 0#7 then
    withoutPayload (.getDesc (if w.getLsbD 15 then .rx else .tx) (w.extractLsb' 0 8)) payload
  else .error .reservedBit

/-- A word on the host port (R71 to R74, R83). -/
def decodeHost (w : Word) (payload : List Byte) : Except Reject Instr :=
  if w.extractLsb' 16 12 ≠ 0#12 then .error .reservedBit
  else
    match (wordCode w).toNat with
    | 1 => decodePlain .init w payload
    | 2 => .ok (.ifUp (wordArg w) payload)
    | 3 => .ok (.transmit (wordArg w) payload)
    | 4 => decodePlain .receive w payload
    | 5 => decodePlain .drain w payload
    | 6 => decodePlain .ackRx w payload
    | 7 => decodePlain .ackTx w payload
    | 8 => decodePlain .linkPoll w payload
    | 9 => decodePlain .getStatus w payload
    | 10 => decodePlain .getIfinfo w payload
    | 11 => decodeIrqMask w payload
    | 12 => decodeEoi w payload
    | 13 => decodeGetCounters w payload
    | 14 => decodeGetDesc w payload
    | _ => .error .reservedCode

/-- An event with nothing in bits [27:0] (R75). -/
def decodeBareEvent (i : Instr) (w : Word) (payload : List Byte) : Except Reject Instr :=
  if w.extractLsb' 0 28 = 0#28 then withoutPayload i payload else .error .reservedBit

/-- RX_FRAME: L, CRC_ERR in bit 16, OTHER_ERR in bit 17, bits [27:18] zero, L bytes of payload (R75, R76). -/
def decodeRxFrame (w : Word) (payload : List Byte) : Except Reject Instr :=
  if w.extractLsb' 18 10 = 0#10 then
    if payload.length = (wordArg w).toNat then .ok (.rxFrame (wordArg w) (w.getLsbD 16) (w.getLsbD 17) payload)
    else .error .payloadLength
  else .error .reservedBit

/-- PHY_LINK: bit 0 is the link state, bits [27:1] zero (R75). -/
def decodePhyLink (w : Word) (payload : List Byte) : Except Reject Instr :=
  if w.extractLsb' 1 27 = 0#27 then withoutPayload (.phyLink (w.getLsbD 0)) payload else .error .reservedBit

/-- A word on the controller port (R75, R76). -/
def decodeController (w : Word) (payload : List Byte) : Except Reject Instr :=
  match (wordCode w).toNat with
  | 1 => decodeBareEvent .txDone w payload
  | 2 => decodeRxFrame w payload
  | 3 => decodeBareEvent .rxBerr w payload
  | 4 => decodePhyLink w payload
  | _ => .error .reservedCode

/-- A decoder knows which format a word has from the port it came on (R70). -/
def decode (port : Port) (w : Word) (payload : List Byte) : Except Reject Instr :=
  match port with
  | .host => decodeHost w payload
  | .controller => decodeController w payload

/-- A word as four bytes, little-endian: byte 0 holds bits [7:0] (R56). -/
def leBytes (w : Word) : List Byte :=
  [w.extractLsb' 0 8, w.extractLsb' 8 8, w.extractLsb' 16 8, w.extractLsb' 24 8]

/-- The word of four little-endian bytes (R56). -/
def ofLeBytes (b0 b1 b2 b3 : Byte) : Word := b3 ++ b2 ++ b1 ++ b0

/-- Decoding from a byte-wide channel: the word in little-endian order (R56), then its payload. DESIGN CHOICE, unsafe
(entry 15): that the payload follows its word at once, and that fewer than four bytes are rejected as `truncated`. -/
def decodeBytes (port : Port) : List Byte → Except Reject Instr
  | b0 :: b1 :: b2 :: b3 :: payload => decode port (ofLeBytes b0 b1 b2 b3) payload
  | _ => .error .truncated

/-- The selector of a counter, its two bits (R81). -/
def selOfCounter : Counter → BitVec 2
  | .err => 0#2
  | .nobuf => 1#2
  | .miss => 2#2
  | .dlverr => 3#2

/-- The word of an instruction (R72, R73, R75, R85). -/
def encodeWord : Instr → Word
  | .init => 0x10000000#32
  | .ifUp mtu _ => 0x2000#16 ++ mtu
  | .transmit len _ => 0x3000#16 ++ len
  | .receive => 0x40000000#32
  | .drain => 0x50000000#32
  | .ackRx => 0x60000000#32
  | .ackTx => 0x70000000#32
  | .linkPoll => 0x80000000#32
  | .getStatus => 0x90000000#32
  | .getIfinfo => 0xA0000000#32
  | .irqMask tx rx => 0x2C000000#30 ++ BitVec.ofBool rx ++ BitVec.ofBool tx
  | .eoi .txc => 0xC0000000#32
  | .eoi .rxr => 0xC0000001#32
  | .getCounters sel => 0x34000000#30 ++ selOfCounter sel
  | .getDesc ring idx => 0xE000#16 ++ BitVec.ofBool (ring = .rx) ++ 0#7 ++ idx
  | .txDone => 0x10000000#32
  | .rxFrame len crcErr otherErr _ => 0x0800#14 ++ BitVec.ofBool otherErr ++ BitVec.ofBool crcErr ++ len
  | .rxBerr => 0x30000000#32
  | .phyLink v => 0x20000000#31 ++ BitVec.ofBool v

/-- The bytes of an instruction on a byte-wide channel: the word in little-endian order (R56), then its payload. DESIGN
CHOICE, unsafe (entry 15): that the payload follows its word at once. -/
def encodeBytes (i : Instr) : List Byte := leBytes (encodeWord i) ++ i.payload

/-- The match and the mask of an instruction's row in spec/opcode_table.json (R84). -/
def tableRow : Instr → Word × Word
  | .init => (0x10000000#32, 0xFFFFFFFF#32)
  | .ifUp _ _ => (0x20000000#32, 0xFFFF0000#32)
  | .transmit _ _ => (0x30000000#32, 0xFFFF0000#32)
  | .receive => (0x40000000#32, 0xFFFFFFFF#32)
  | .drain => (0x50000000#32, 0xFFFFFFFF#32)
  | .ackRx => (0x60000000#32, 0xFFFFFFFF#32)
  | .ackTx => (0x70000000#32, 0xFFFFFFFF#32)
  | .linkPoll => (0x80000000#32, 0xFFFFFFFF#32)
  | .getStatus => (0x90000000#32, 0xFFFFFFFF#32)
  | .getIfinfo => (0xA0000000#32, 0xFFFFFFFF#32)
  | .irqMask _ _ => (0xB0000000#32, 0xFFFFFFFC#32)
  | .eoi _ => (0xC0000000#32, 0xFFFFFFFE#32)
  | .getCounters _ => (0xD0000000#32, 0xFFFFFFFC#32)
  | .getDesc _ _ => (0xE0000000#32, 0xFFFF7F00#32)
  | .txDone => (0x10000000#32, 0xFFFFFFFF#32)
  | .rxFrame _ _ _ _ => (0x20000000#32, 0xFFFC0000#32)
  | .rxBerr => (0x30000000#32, 0xFFFFFFFF#32)
  | .phyLink _ => (0x40000000#32, 0xFFFFFFFE#32)

/-- The payload of zeros that a word asks for: 6 bytes with IF_UP, LEN with TRANSMIT, L with RX_FRAME, else none
(R83, R75). -/
def zeroPayload (port : Port) (w : Word) : List Byte :=
  match port, (wordCode w).toNat with
  | .host, 2 => List.replicate 6 0#8
  | .host, 3 => List.replicate (wordArg w).toNat 0#8
  | .controller, 2 => List.replicate (wordArg w).toNat 0#8
  | _, _ => []

/-- The 32-bit word with the low `nbits` bits of `w`. -/
def tableWord (nbits w : Nat) : Word := BitVec.ofNat 32 (w % 2 ^ nbits)

/-- What a port's decoder reads from a table word laid out in bytes, with a payload of zeros. -/
def decodeTableOn (port : Port) (nbits w : Nat) : Option Instr :=
  match decodeBytes port (leBytes (tableWord nbits w) ++ zeroPayload port (tableWord nbits w)) with
  | .ok i => some i
  | .error _ => none

/-- The instruction read from a table word. The two formats share code values and a word does not tell its port (R70),
so the host port is asked first and the controller port for what the host port rejects. DESIGN CHOICE (entry 9): the
words of TX_DONE and RX_BERR, and those of RX_FRAME and PHY_LINK that a host row matches, are read as host commands. -/
def decodeTableWord (nbits w : Nat) : Option Instr :=
  match decodeTableOn .host nbits w with
  | some i => some i
  | none => decodeTableOn .controller nbits w

/-- BRINGUP mtu, mac (R86). -/
def pseudoBringup (mtu : Half) (mac : List Byte) : List Instr := [.init, .ifUp mtu mac]

/-- SEND "text" (R86): LEN is the byte count. DESIGN CHOICE, unsafe (entry 17): a count of 65536 or more, which does not fit
the 16 bits of LEN, keeps its low 16 bits. -/
def pseudoSend (frame : List Byte) : List Instr := [.transmit (BitVec.ofNat 16 frame.length) frame]

/-- ISR_TX_BODY (R86, R207). -/
def pseudoIsrTxBody : List Instr := [.ackTx, .eoi .txc]

/-- ISR_RX_BODY (R86, R207). -/
def pseudoIsrRxBody : List Instr := [.drain, .eoi .rxr]

/-- CRIT_ENTER (R86). -/
def pseudoCritEnter : List Instr := [.irqMask false false]

/-- CRIT_EXIT (R86). -/
def pseudoCritExit : List Instr := [.irqMask true true]

/-- The last `n` hexadecimal digits of a number, highest first. -/
def hexDigits : Nat → Nat → List Char
  | 0, _ => []
  | n + 1, v => hexDigits n (v / 16) ++ [Nat.digitChar (v % 16)]

/-- Strings with a separator between them. -/
def joinStrings (sep : String) : List String → String
  | [] => ""
  | [x] => x
  | x :: xs => x ++ sep ++ joinStrings sep xs

/-- A byte as two hexadecimal digits. -/
def hexByte (b : Byte) : String := String.ofList (hexDigits 2 b.toNat)

/-- A Boolean operand, 0 or 1. -/
def bitText (b : Bool) : String := if b then "1" else "0"

/-- The assembler text of an instruction (R85), a frame or payload written as a list of bytes. DEDUCED, unsafe (entry 18):
the bases of the numbers, and the text of an instruction whose LEN or payload length R85 has no way to write. -/
def asmText : Instr → String
  | .init => "INIT"
  | .ifUp mtu payload =>
    "IF_UP " ++ (if mtu = 0#16 then "default" else toString mtu.toNat) ++ ", " ++ joinStrings ":" (payload.map hexByte)
  | .transmit _ frame => "TRANSMIT [" ++ joinStrings ", " (frame.map hexByte) ++ "]"
  | .receive => "RECEIVE"
  | .drain => "DRAIN"
  | .ackRx => "ACK_RX"
  | .ackTx => "ACK_TX"
  | .linkPoll => "LINK_POLL"
  | .getStatus => "GET_STATUS"
  | .getIfinfo => "GET_IFINFO"
  | .irqMask tx rx => "IRQ_MASK " ++ bitText tx ++ ", " ++ bitText rx
  | .eoi .txc => "EOI TXC"
  | .eoi .rxr => "EOI RXR"
  | .getCounters .err => "GET_COUNTERS ERR"
  | .getCounters .nobuf => "GET_COUNTERS NOBUF"
  | .getCounters .miss => "GET_COUNTERS MISS"
  | .getCounters .dlverr => "GET_COUNTERS DLVERR"
  | .getDesc .tx idx => "GET_DESC TX, " ++ toString idx.toNat
  | .getDesc .rx idx => "GET_DESC RX, " ++ toString idx.toNat
  | .txDone => "@TX_DONE"
  | .rxFrame len crcErr otherErr bytes =>
    "@RX_FRAME " ++ toString len.toNat ++ (if crcErr then ", CRC" else "") ++ (if otherErr then ", OTHER" else "")
      ++ " : " ++ joinStrings " " (bytes.map hexByte)
  | .rxBerr => "@RX_BERR"
  | .phyLink v => "@PHY_LINK " ++ bitText v

end Sys2Proof
end

