-- ==== Sys2Proof/Config.lean ====
section
/-!
DEFINITION. What is fixed for one machine: the source's constants and the parameters of R4 with their constraints (R5),
and the free values, which the spec leaves to the environment, to the other agents or open. A free value is a constant
without a body: no proof can see what it is.
-/

namespace Sys2Proof

/-- The Ethernet header length, 14 = 6 + 6 + 2 bytes (R4). -/
def Config.hdrLen : Nat := 14

/-- The hardware address length in bytes (R4). -/
def Config.hwaddrLen : Nat := 6

/-- The MTU when none is given (R4). -/
def Config.mtuDefault : Half := 1500#16

/-- Which pending source the arbiter takes first (R4, R205). -/
inductive Priority where
  | any
  | txFirst
  | rxFirst
  deriving DecidableEq, Repr

/-- The implementation parameters of R4. `cfg` of State holds one of these; no step writes it. -/
structure Params where
  /-- `N_TX`. -/
  nTx : Nat
  /-- `N_RX`. -/
  nRx : Nat
  /-- `BUF_CAP`, bytes per frame buffer. -/
  bufCap : Nat
  /-- `RUNT_MIN`, the shortest received length that is not a runt. -/
  runtMin : Nat
  /-- `POOL_BYTES`, the pool INIT draws the buffers from. -/
  poolBytes : Nat
  /-- `TX_BUF_BASE`. -/
  txBufBase : Nat
  /-- `RX_BUF_BASE`. -/
  rxBufBase : Nat
  /-- `ARB_PRIORITY`. -/
  arbPriority : Priority
  /-- `CROSS_NEST`: one source's handler may preempt the other's. -/
  crossNest : Bool
  deriving DecidableEq, Repr

/-- The defaults of R4; the two bases are the vector defaults of D7. DESIGN CHOICE, unsafe for the OPEN parameters
(entry 3): a statement about every state holds for every `cfg`. -/
def Params.default : Params where
  nTx := 4
  nRx := 4
  bufCap := 1536
  runtMin := 60
  poolBytes := 12288
  txBufBase := 0x20010000
  rxBufBase := 0x20012000
  arbPriority := .any
  crossNest := true

/-- `N_r`. -/
def Params.card (p : Params) : Ring → Nat
  | .tx => p.nTx
  | .rx => p.nRx

/-- `TX_BUF_BASE` or `RX_BUF_BASE`. -/
def Params.base (p : Params) : Ring → Nat
  | .tx => p.txBufBase
  | .rx => p.rxBufBase

/-- The end of a ring's arena: the first address after it. -/
def Params.arenaEnd (p : Params) (r : Ring) : Nat := p.base r + p.card r * p.bufCap

/-- The constraints of R5. They put no bound on `RUNT_MIN`: DESIGN CHOICE, safe (entry 16), 0 is accepted, although
R130 takes `RUNT_MIN >= 1` for granted. -/
abbrev Params.Ok (p : Params) : Prop :=
  (1 ≤ p.nTx ∧ p.nTx ≤ 256) ∧ (1 ≤ p.nRx ∧ p.nRx ≤ 256) ∧
  p.bufCap % 4 = 0 ∧ Config.hdrLen + Config.mtuDefault.toNat ≤ p.bufCap ∧ p.bufCap ≤ 65535 ∧
  p.txBufBase % 4 = 0 ∧ p.rxBufBase % 4 = 0 ∧
  p.arenaEnd .tx ≤ 2 ^ 32 ∧ p.arenaEnd .rx ≤ 2 ^ 32 ∧
  (p.arenaEnd .tx ≤ p.rxBufBase ∨ p.arenaEnd .rx ≤ p.txBufBase)

/-- The step of an agent (R6): a host step of the running context, an interrupt entry, or a word on the controller
port. -/
inductive Agent where
  | host
  | enter (src : Source)
  | controller (word : Word) (payload : List Byte)
  deriving DecidableEq, Repr, Inhabited

/-- Which agent steps next where the schedule in State names none (R6: any enabled step of any agent may be taken).
A free value. -/
opaque Config.freeAgent : Nat → Agent

/-- The environment's answer to an `alloc_ok` draw (R6, R130). A free value. -/
opaque Config.allocOk : Nat → Bool

/-- The environment's answer to a `deliver_ok` draw (R6, R132). A free value. -/
opaque Config.deliverOk : Nat → Bool

/-- The 32-bit value recorded for a count of `k` frames where `k` does not fit 32 bits: the spec states none
(R77, R132). A free value. -/
opaque Config.wideCount : Nat → Word

end Sys2Proof
end

