-- ==== Sys2Proof/Machine/State.lean ====
section
/-!
DEFINITION. The state of the block (10_state.md R20 to R33) as plain data, the ways a step can stop (R202), and the state
after power-on reset (R37, R230).
-/

namespace Sys2Proof.Machine

/-- The ownership tag (R20). -/
inductive Own where
  | hostOwned
  | controllerOwned
  deriving DecidableEq, Repr

/-- The five status flags of a descriptor (R21); `oversize` is the spec's `over`. -/
structure Status where
  good : Bool
  crc : Bool
  runt : Bool
  oversize : Bool
  irqp : Bool
  deriving DecidableEq, Repr

/-- A descriptor (R22). -/
structure Desc where
  own : Own
  /-- The byte address of the slot's frame buffer (R51). -/
  addr : Word
  /-- The byte length of the frame the buffer holds. -/
  len : Half
  st : Status
  /-- The link to the next descriptor (R23). -/
  next : Nat
  deriving DecidableEq, Repr

/-- The phase (R27). -/
inductive Phase where
  | uninit
  | ready
  | fatal
  deriving DecidableEq, Repr

/-- The six bytes of a hardware address in transmission order (R30, R56). -/
structure HwAddr where
  b0 : Byte
  b1 : Byte
  b2 : Byte
  b3 : Byte
  b4 : Byte
  b5 : Byte
  deriving DecidableEq, Repr

/-- A context's DRAIN progress: none, receiving with `k` frames delivered, or acknowledging (R32, R132). -/
inductive DrainState where
  | idle
  | draining (k : Nat)
  | acking (k : Nat)
  deriving DecidableEq, Repr

/-- The result codes (R78). -/
inductive ResultCode where
  | ok
  | busy
  | empty
  | frame
  | errLen
  | errMtu
  | errRange
  | errState
  | errNotInit
  | errFatal
  | errInitFail
  | errIllegal
  deriving DecidableEq, Repr

/-- A result record (R77). -/
structure Result where
  code : ResultCode
  value : Word
  payload : List Byte
  deriving DecidableEq, Repr

/-- An entry of the `results` trace: the context, the command word and the result (R10, R77). -/
structure ResultEntry where
  ctx : Ctx
  word : Word
  result : Result
  deriving DecidableEq, Repr

/-- A command of the mainline program: a word and its payload (R32). -/
structure Command where
  word : Word
  payload : List Byte
  deriving DecidableEq, Repr

/-- The state. `cfg` and `prog` are parameters (entries 2, 3); the last four
fields are the model's own (entries 1, 4, 5). -/
structure State where
  /-- The parameters (R4); no step writes them. -/
  cfg : Params
  /-- R27. -/
  phase : Phase
  /-- `D[r]` (R22, R23): slot `i` is entry `i`; a slot that is not listed is unwritten (R37). -/
  descs : PerRing (List Desc)
  /-- The buffer bytes by address (R26, R51), addresses strictly rising; a byte that is not listed is unwritten. -/
  mem : List Host.Cell
  /-- The host cursors (R24). -/
  cur : PerRing Nat
  /-- The controller cursors (R25). -/
  ccur : PerRing Nat
  /-- R28. -/
  txEn : Bool
  rxEn : Bool
  /-- The Tx doorbell latch (R28). -/
  kick : Bool
  /-- The arbiter's three bits for each source (R29). -/
  pend : PerSource Bool
  ie : PerSource Bool
  act : PerSource Bool
  /-- The interface handle (R30). -/
  hwaddr : HwAddr
  mtu : Half
  fBcast : Bool
  fEtharp : Bool
  fEther : Bool
  linkUp : Bool
  ifcfg : Bool
  /-- The drop counters (R31). -/
  cntErr : Word
  cntNobuf : Word
  cntMiss : Word
  cntDlverr : Word
  /-- The context stack, running context first (R32). -/
  ctxStack : List Ctx
  /-- The mainline program index (R32). -/
  pc : Nat
  /-- The handler body index of the handler of each source (R32). -/
  ipc : PerSource Nat
  /-- DRAIN progress per context (R32). -/
  drain : PerCtx DrainState
  /-- The PHY's link-status capability (R33). -/
  phyLink : Bool
  /-- The three traces (R10, R33). -/
  wireOut : List (List Byte)
  delivered : List (List Byte)
  results : List ResultEntry
  /-- The mainline program, a parameter no step writes (R32, R65; entry 2). -/
  prog : List Command
  /-- The agents of the next steps, oldest first; where it is empty a free value chooses (R6; entry 1). -/
  sched : List Agent
  /-- The answers to the next `alloc_ok` draws, oldest first; where it is empty a free value answers (entry 4). -/
  allocDraws : List Bool
  /-- The answers to the next `deliver_ok` draws, oldest first; where it is empty a free value answers (entry 4). -/
  deliverDraws : List Bool
  /-- How many free values have been taken (entry 5). -/
  freeCount : Nat
  deriving DecidableEq, Repr

/-- The faults (R202). A fault ends the run. -/
inductive Fault where
  /-- A buffer access that the decoder maps to no byte of the slot's own buffer (R53). Raised by the buffer reads and
  writes of TRANSMIT, RECEIVE, DRAIN, TX_DONE and RX_FRAME. The spec's own fault, safe; unreachable under the
  invariants. -/
  | bufferDecodeFault
  /-- A read of a descriptor or buffer byte that nothing has written (R41). Raised by every reader of a descriptor or a
  buffer. The spec's own fault, safe; unreachable under the invariants. The receive loop also ends in it when its bound
  of passes is spent, which no state does (R131, Laws/Receive.lean). -/
  | unwrittenRead
  deriving DecidableEq, Repr

/-- The refusals. -/
inductive Refusal where
  /-- A parameter set that breaks R5, refused before any step (R202). Raised by step. Safe. -/
  | badConfig
  /-- An instruction that has no meaning in the model yet. No arm of exec answers it. Safe. -/
  | notModelled (mnemonic : String)
  deriving DecidableEq, Repr

/-- Power-on reset of the block with the parameters `cfg` (R37, R230). -/
def State.resetWith (cfg : Params) : State where
  cfg := cfg
  phase := .uninit
  descs := ⟨[], []⟩
  mem := []
  cur := ⟨0, 0⟩
  ccur := ⟨0, 0⟩
  txEn := false
  rxEn := false
  kick := false
  pend := ⟨false, false⟩
  ie := ⟨false, false⟩
  act := ⟨false, false⟩
  hwaddr := ⟨0#8, 0#8, 0#8, 0#8, 0#8, 0#8⟩
  mtu := Config.mtuDefault
  fBcast := false
  fEtharp := false
  fEther := false
  linkUp := false
  ifcfg := false
  cntErr := 0#32
  cntNobuf := 0#32
  cntMiss := 0#32
  cntDlverr := 0#32
  ctxStack := [.mainline]
  pc := 0
  ipc := ⟨0, 0⟩
  drain := ⟨.idle, .idle, .idle⟩
  phyLink := false
  wireOut := []
  delivered := []
  results := []
  prog := []
  sched := []
  allocDraws := []
  deliverDraws := []
  freeCount := 0

/-- The state right after power-on reset with the default parameters (R37, R4). -/
def State.reset : State := State.resetWith Params.default

end Sys2Proof.Machine
end

