-- ==== Sys2Proof/Machine/Ops.lean ====
section
/-!
DEFINITION. The named operations over memory, rings, contexts and results: the frame-buffer address decoder (R51 to R54),
descriptor access with its fault (R41), the cursor step (R101), the environment's draws (R6), recording a result (R77),
and interrupt entry (R206) with the return beside it (R208).
-/

namespace Sys2Proof.Machine

/-- What a buffer address decodes to (R52). -/
inductive Target where
  | buf (r : Ring) (i k : Nat)
  | unmapped
  deriving DecidableEq, Repr

/-- The buffer address of slot `i` of ring `r` (R51). -/
def bufAddr (p : Params) (r : Ring) (i : Nat) : Nat := p.base r + i * p.bufCap

/-- The decoder's answer inside the arena of ring `r` (R52). -/
def arenaTarget (p : Params) (r : Ring) (a : Nat) : Target :=
  .buf r ((a - p.base r) / p.bufCap) ((a - p.base r) % p.bufCap)

/-- The frame-buffer address decoder (R52). -/
def decodeAddr (p : Params) (a : Nat) : Target :=
  if p.base .tx ≤ a ∧ a < p.arenaEnd .tx then arenaTarget p .tx a
  else if p.base .rx ≤ a ∧ a < p.arenaEnd .rx then arenaTarget p .rx a
  else .unmapped

/-- The byte at an address; none for a byte that nothing has written (R26, entry 11). -/
def Memory.read : List Host.Cell → Nat → Option Byte
  | [], _ => none
  | (a, b) :: m, x => if x = a then some b else Memory.read m x

/-- The memory with one byte written, addresses kept strictly rising. -/
def Memory.write : List Host.Cell → Nat → Byte → List Host.Cell
  | [], x, v => [(x, v)]
  | (a, b) :: m, x, v =>
    if x < a then (x, v) :: (a, b) :: m
    else if x = a then (x, v) :: m
    else (a, b) :: Memory.write m x v

/-- The canonical form: addresses strictly rising. An unlisted byte reads as no value, so no entry can equal it. -/
abbrev Memory.wf (m : List Host.Cell) : Prop := (m.map Prod.fst).Pairwise (· < ·)

/-- The address decodes to a byte of slot `i` of ring `r` (R53). -/
def inSlot (p : Params) (r : Ring) (i a : Nat) : Bool :=
  match decodeAddr p a with
  | .buf r' i' _ => r' = r && i' = i
  | .unmapped => false

/-- `MemRead(a, n)` for the slot whose descriptor the address came from (R53, R54). -/
def memRead (p : Params) (r : Ring) (i : Nat) (m : List Host.Cell) : Nat → Nat → Except Fault (List Byte)
  | _, 0 => .ok []
  | a, n + 1 =>
    if inSlot p r i a then
      match Memory.read m a with
      | none => .error .unwrittenRead
      | some b =>
        match memRead p r i m (a + 1) n with
        | .error f => .error f
        | .ok bs => .ok (b :: bs)
    else .error .bufferDecodeFault

/-- `MemWrite(a, n, bytes)` for the slot whose descriptor the address came from (R53, R54). -/
def memWrite (p : Params) (r : Ring) (i : Nat) (m : List Host.Cell) : Nat → List Byte → Except Fault (List Host.Cell)
  | _, [] => .ok m
  | a, b :: bs =>
    if inSlot p r i a then memWrite p r i (Memory.write m a b) (a + 1) bs
    else .error .bufferDecodeFault
termination_by structural _ bs => bs

/-- Descriptor `i` of ring `r`; a slot that nothing has written faults (R41, entry 11). -/
def readDesc (s : State) (r : Ring) (i : Nat) : Except Fault Desc :=
  match (s.descs.get r)[i]? with
  | some d => .ok d
  | none => .error .unwrittenRead

/-- Descriptor `i` of ring `r` replaced. -/
def writeDesc (s : State) (r : Ring) (i : Nat) (d : Desc) : State :=
  { s with descs := s.descs.set r ((s.descs.get r).set i d) }

/-- The cursor step (R101). -/
def advance (p : Params) (r : Ring) (c : Nat) : Nat := (c + 1) % p.card r

/-- An `alloc_ok` draw (R6): the next answer in State, else a free value (entry 4). -/
def drawAlloc (s : State) : Bool × State :=
  match s.allocDraws with
  | b :: rest => (b, { s with allocDraws := rest })
  | [] => (Config.allocOk s.freeCount, { s with freeCount := s.freeCount + 1 })

/-- A `deliver_ok` draw (R6): the next answer in State, else a free value (entry 4). -/
def drawDeliver (s : State) : Bool × State :=
  match s.deliverDraws with
  | b :: rest => (b, { s with deliverDraws := rest })
  | [] => (Config.deliverOk s.freeCount, { s with freeCount := s.freeCount + 1 })

/-- The running context, the head of the context stack (R32). The stack always ends in `Mainline`; for the empty stack,
which no run reaches, this is `Mainline` (entry 10). -/
def running (s : State) : Ctx :=
  match s.ctxStack with
  | c :: _ => c
  | [] => .mainline

/-- The program index of a context moves past a completed command (R32, R207, R210). -/
def advancePc (s : State) (c : Ctx) : State :=
  match c with
  | .mainline => { s with pc := s.pc + 1 }
  | .isrTx => { s with ipc := s.ipc.set .txc (s.ipc.get .txc + 1) }
  | .isrRx => { s with ipc := s.ipc.set .rxr (s.ipc.get .rxr + 1) }

/-- `result code(value, payload)` ends the running context's command `w`: the result is recorded with the context and
the word, and the context's program index advances (R8, R77, R210). -/
def finish (s : State) (w : Word) (code : ResultCode) (value : Word) (payload : List Byte) : State :=
  advancePc { s with results := s.results ++ [⟨running s, w, ⟨code, value, payload⟩⟩] } (running s)

/-- `raise code`: a result with value 0 and an empty payload, and nothing else (R8). -/
def raise (s : State) (w : Word) (code : ResultCode) : State := finish s w code 0#32 []

/-- The handler context of a source (R203). -/
def handlerOf : Source → Ctx
  | .txc => .isrTx
  | .rxr => .isrRx

/-- Source `src` requests the host (R204). -/
def req (s : State) (src : Source) : Bool :=
  s.pend.get src && s.ie.get src && !s.act.get src &&
    (running s = .mainline || (s.cfg.crossNest && running s = handlerOf src.other))

/-- Interrupt entry for `src` is enabled: it requests, and the other source does not win (R205, R206). -/
def canEnter (s : State) (src : Source) : Bool :=
  req s src &&
    match s.cfg.arbPriority, src with
    | .any, _ => true
    | .txFirst, .txc => true
    | .txFirst, .rxr => !req s .txc
    | .rxFirst, .rxr => true
    | .rxFirst, .txc => !req s .rxr

/-- ENTER(src): taking an interrupt (R206). -/
def enterIsr (s : State) (src : Source) : State :=
  { s with
    act := s.act.set src true
    ctxStack := handlerOf src :: s.ctxStack
    ipc := s.ipc.set src 0
    drain := s.drain.set (handlerOf src) .idle }

/-- The return: the context is popped and its source is no longer in service (R192, R208). -/
def returnIsr (s : State) (src : Source) : State :=
  { s with act := s.act.set src false, ctxStack := s.ctxStack.tail }

/-- The interrupt output of the block (R219). -/
def irqOut (s : State) : Bool := req s .txc || req s .rxr

end Sys2Proof.Machine
end

