-- ==== Sys2Proof/Machine/Operands.lean ====
section
/-!
DEFINITION. The operand forms of the commands: the requested MTU (R150), the hardware address payload (R83, R150), the
counter a selector names (R81, R154), the numbers a result value is built from (R77, R130, R132), and the codes of R78.
-/

namespace Sys2Proof.Machine

/-- The MTU an IF_UP argument asks for: 0 means the default (R150). -/
def requestedMtu (arg : Half) : Half := if arg = 0#16 then Config.mtuDefault else arg

/-- The hardware address of a payload of exactly 6 bytes (R83, R150). -/
def hwAddrOf : List Byte → Option HwAddr
  | [b0, b1, b2, b3, b4, b5] => some ⟨b0, b1, b2, b3, b4, b5⟩
  | _ => none

/-- The 6 bytes of a hardware address in transmission order (R56). -/
def hwAddrBytes (h : HwAddr) : List Byte := [h.b0, h.b1, h.b2, h.b3, h.b4, h.b5]

/-- The counter of a selector (R81). -/
def counterValue (s : State) : Counter → Word
  | .err => s.cntErr
  | .nobuf => s.cntNobuf
  | .miss => s.cntMiss
  | .dlverr => s.cntDlverr

/-- `zext_32` of a Boolean (R151). -/
def boolWord (b : Bool) : Word := if b then 1#32 else 0#32

/-- The value of a FRAME result: the length in [15:0], the slot index in [23:16] (R130, entry 12). -/
def frameValue (len : Half) (i : Nat) : Word := len.setWidth 32 ||| (BitVec.ofNat 32 i <<< 16)

/-- A count of frames as a result value (R132). Where it does not fit 32 bits the spec states no value: a free value
(entry 6). -/
def countWord (k : Nat) : Word := if k < 2 ^ 32 then BitVec.ofNat 32 k else Config.wideCount k

/-- The 4-bit code of a result (R78). -/
def codeBits : ResultCode → BitVec 4
  | .ok => 0x0#4
  | .busy => 0x1#4
  | .empty => 0x2#4
  | .frame => 0x3#4
  | .errLen => 0x4#4
  | .errMtu => 0x5#4
  | .errRange => 0x6#4
  | .errState => 0x7#4
  | .errNotInit => 0x8#4
  | .errFatal => 0x9#4
  | .errInitFail => 0xA#4
  | .errIllegal => 0xB#4

end Sys2Proof.Machine
end

