-- ==== Sys2Proof/Machine/Flags.lean ====
section
/-!
DEFINITION. The status flags and the words that show flags: the MTU and frame-length validator (R102), the receive
classifier (R103), and the STATUS, IFINFO and DESC words (R79, R80, R82).
-/

namespace Sys2Proof.Machine

/-- The longest frame TRANSMIT accepts (R102). -/
def txMax (p : Params) (mtu : Half) : Nat := min p.bufCap (Config.hdrLen + mtu.toNat)

/-- The transmit-length validator (R102). -/
def txLenOk (p : Params) (mtu len : Half) : Bool := decide (1 ≤ len.toNat ∧ len.toNat ≤ txMax p mtu)

/-- The MTU validator (R102). -/
def mtuOk (p : Params) (m : Half) : Bool := decide (1 ≤ m.toNat ∧ m.toNat ≤ p.bufCap - Config.hdrLen)

/-- The longest frame that is not oversize (R102). -/
def rxMax (mtu : Half) : Nat := Config.hdrLen + mtu.toNat

/-- The status of a received frame (R103). -/
def classify (p : Params) (len : Half) (crcErr otherErr : Bool) (mtu : Half) : Status where
  good := !crcErr && !otherErr && decide (p.runtMin ≤ len.toNat) && decide (len.toNat ≤ rxMax mtu)
  crc := crcErr
  runt := decide (len.toNat < p.runtMin)
  oversize := decide (rxMax mtu < len.toNat)
  irqp := true

/-- No flag set: the status INIT writes (R100). -/
def Status.clear : Status := ⟨false, false, false, false, false⟩

/-- The status TX_DONE writes: `irqp` alone (R170). -/
def Status.txDone : Status := ⟨false, false, false, false, true⟩

/-- The code of a phase in the STATUS word (R27, R79). -/
def phaseBits : Phase → BitVec 2
  | .uninit => 0#2
  | .ready => 1#2
  | .fatal => 2#2

/-- The STATUS word (R79), its fields from bit 31 down. A cursor keeps its low 8 bits (entry 12). -/
def statusWord (s : State) : Word :=
  BitVec.ofNat 8 s.cur.rx ++ BitVec.ofNat 8 s.cur.tx ++ 0#3
    ++ BitVec.ofBool s.ifcfg ++ BitVec.ofBool s.linkUp ++ BitVec.ofBool s.kick
    ++ BitVec.ofBool s.rxEn ++ BitVec.ofBool s.txEn
    ++ BitVec.ofBool s.act.rxr ++ BitVec.ofBool s.act.txc
    ++ BitVec.ofBool s.ie.rxr ++ BitVec.ofBool s.ie.txc
    ++ BitVec.ofBool s.pend.rxr ++ BitVec.ofBool s.pend.txc ++ phaseBits s.phase

/-- The IFINFO word (R80), its fields from bit 31 down. -/
def ifinfoWord (s : State) : Word :=
  0#11 ++ BitVec.ofBool s.ifcfg ++ BitVec.ofBool s.linkUp ++ BitVec.ofBool s.fEther
    ++ BitVec.ofBool s.fEtharp ++ BitVec.ofBool s.fBcast ++ s.mtu

/-- The DESC word (R82), its fields from bit 31 down. -/
def descWord (d : Desc) : Word :=
  BitVec.ofBool (d.own = .controllerOwned) ++ 0#8 ++ BitVec.ofBool d.st.runt ++ 0#1 ++ BitVec.ofBool d.st.good
    ++ BitVec.ofBool d.st.oversize ++ 0#1 ++ BitVec.ofBool d.st.crc ++ BitVec.ofBool d.st.irqp ++ d.len

end Sys2Proof.Machine
end

