-- ==== Sys2Proof/Machine/Completion.lean ====
section
/-!
DEFINITION. The completion commands (45_completion.md): ACK_TX, IRQ_MASK, EOI.
-/

namespace Sys2Proof.Machine

/-- ACK_TX (R190). -/
def execAckTx (s : State) : Host.Outcome State Fault Refusal :=
  .next (finish { s with pend := s.pend.set .txc false } (encodeWord .ackTx) .ok 0#32 [])

/-- IRQ_MASK (R191). -/
def execIrqMask (tx rx : Bool) (s : State) : Host.Outcome State Fault Refusal :=
  .next (finish { s with ie := ⟨tx, rx⟩ } (encodeWord (.irqMask tx rx)) .ok 0#32 [])

/-- EOI (R192): the result is recorded for the handler's context, then the preempted context goes on. -/
def execEoi (src : Source) (s : State) : Host.Outcome State Fault Refusal :=
  if s.act.get src ∧ running s = handlerOf src then
    .next (returnIsr (finish s (encodeWord (.eoi src)) .ok 0#32 []) src)
  else .next (raise s (encodeWord (.eoi src)) .errState)

end Sys2Proof.Machine
end

