-- ==== Sys2Proof/Machine/Controller.lean ====
section
/-!
DEFINITION. The controller port (44_controller_port.md): TX_DONE, RX_FRAME, RX_BERR, PHY_LINK. An event that is not
enabled is ignored: no state changes.
-/

namespace Sys2Proof.Machine

/-- Slot `i` is given back with its completion status, and the controller cursor moves on (R170). -/
def txGiveBack (s : State) (i : Nat) (d : Desc) : State :=
  { writeDesc s .tx i { d with st := Status.txDone, own := .hostOwned } with
    ccur := s.ccur.set .tx (advance s.cfg .tx i) }

/-- The doorbell after a completion: cleared where the next slot is HostOwned (R170). -/
def idleDoorbell (s : State) : Except Fault Bool :=
  match readDesc s .tx s.ccur.tx with
  | .error f => .error f
  | .ok d => .ok (s.kick && d.own != .hostOwned)

/-- TX_DONE for the ControllerOwned slot `d` at the controller cursor (R170). -/
def txComplete (d : Desc) (s : State) : Host.Outcome State Fault Refusal :=
  match memRead s.cfg .tx s.ccur.tx s.mem d.addr.toNat d.len.toNat with
  | .error f => .fault f
  | .ok frame =>
    match idleDoorbell (txGiveBack s s.ccur.tx d) with
    | .error f => .fault f
    | .ok kick =>
      .next { txGiveBack s s.ccur.tx d with
        wireOut := s.wireOut ++ [frame]
        kick := kick
        pend := s.pend.set .txc true }

/-- TX_DONE (R170). -/
def execTxDone (s : State) : Host.Outcome State Fault Refusal :=
  if s.phase = .ready ∧ s.txEn ∧ s.kick then
    match readDesc s .tx s.ccur.tx with
    | .error f => .fault f
    | .ok d =>
      match d.own with
      | .hostOwned => .next s
      | .controllerOwned => txComplete d s
  else .next s

/-- The bytes of a received frame that fit the buffer (R171). -/
def storedBytes (p : Params) (len : Half) (bytes : List Byte) : List Byte := bytes.take (min len.toNat p.bufCap)

/-- RX_FRAME into the ControllerOwned slot `d` at the controller cursor (R171). -/
def rxStore (len : Half) (crcErr otherErr : Bool) (bytes : List Byte) (d : Desc) (s : State) :
    Host.Outcome State Fault Refusal :=
  match memWrite s.cfg .rx s.ccur.rx s.mem d.addr.toNat (storedBytes s.cfg len bytes) with
  | .error f => .fault f
  | .ok m =>
    .next { writeDesc s .rx s.ccur.rx
        { d with
          len := BitVec.ofNat 16 (min len.toNat s.cfg.bufCap)
          st := classify s.cfg len crcErr otherErr s.mtu
          own := .hostOwned } with
      mem := m
      ccur := s.ccur.set .rx (advance s.cfg .rx s.ccur.rx)
      pend := s.pend.set .rxr true }

/-- RX_FRAME (R171). What decodes carries exactly L bytes (entry 14). -/
def execRxFrame (len : Half) (crcErr otherErr : Bool) (bytes : List Byte) (s : State) :
    Host.Outcome State Fault Refusal :=
  if s.phase = .ready ∧ s.rxEn then
    match readDesc s .rx s.ccur.rx with
    | .error f => .fault f
    | .ok d =>
      match d.own with
      | .hostOwned => .next { s with cntMiss := inc32 s.cntMiss }
      | .controllerOwned => rxStore len crcErr otherErr bytes d s
  else .next s

/-- RX_BERR (R172). -/
def execRxBerr (s : State) : Host.Outcome State Fault Refusal :=
  if s.phase = .ready then .next { s with phase := .fatal, pend := s.pend.set .rxr true } else .next s

/-- PHY_LINK (R173). -/
def execPhyLink (v : Bool) (s : State) : Host.Outcome State Fault Refusal := .next { s with phyLink := v }

end Sys2Proof.Machine
end

