-- ==== Sys2Proof/Machine/Interface.lean ====
section
/-!
DEFINITION. The interface shim, link monitor and read-out commands (43_interface.md): IF_UP, LINK_POLL, GET_STATUS,
GET_IFINFO, GET_COUNTERS, GET_DESC.
-/

namespace Sys2Proof.Machine

/-- The state IF_UP leaves, before its result (R150). -/
def ifUpState (s : State) (h : HwAddr) (m : Half) : State :=
  { s with
    hwaddr := h
    mtu := m
    fBcast := true
    fEtharp := true
    fEther := true
    txEn := true
    rxEn := true
    ie := ⟨true, true⟩
    ifcfg := true }

/-- The argument checks of IF_UP in their order, and its effect (R150, R201). -/
def ifUpReady (mtu : Half) (payload : List Byte) (s : State) : Host.Outcome State Fault Refusal :=
  match hwAddrOf payload with
  | none => .next (raise s (encodeWord (.ifUp mtu payload)) .errLen)
  | some h =>
    if mtuOk s.cfg (requestedMtu mtu) = false then .next (raise s (encodeWord (.ifUp mtu payload)) .errMtu)
    else if s.ifcfg then .next (raise s (encodeWord (.ifUp mtu payload)) .errState)
    else
      .next (finish (ifUpState s h (requestedMtu mtu)) (encodeWord (.ifUp mtu payload)) .ok
        ((requestedMtu mtu).setWidth 32) [])

/-- IF_UP (R150). -/
def execIfUp (mtu : Half) (payload : List Byte) (s : State) : Host.Outcome State Fault Refusal :=
  match s.phase with
  | .uninit => .next (raise s (encodeWord (.ifUp mtu payload)) .errNotInit)
  | .fatal => .next (raise s (encodeWord (.ifUp mtu payload)) .errFatal)
  | .ready => ifUpReady mtu payload s

/-- LINK_POLL (R151). -/
def execLinkPoll (s : State) : Host.Outcome State Fault Refusal :=
  .next (finish { s with linkUp := s.phyLink } (encodeWord .linkPoll) .ok (boolWord s.phyLink) [])

/-- GET_STATUS (R152). -/
def execGetStatus (s : State) : Host.Outcome State Fault Refusal :=
  .next (finish s (encodeWord .getStatus) .ok (statusWord s) [])

/-- GET_IFINFO (R153). -/
def execGetIfinfo (s : State) : Host.Outcome State Fault Refusal :=
  .next (finish s (encodeWord .getIfinfo) .ok (ifinfoWord s) (hwAddrBytes s.hwaddr))

/-- GET_COUNTERS (R154). -/
def execGetCounters (sel : Counter) (s : State) : Host.Outcome State Fault Refusal :=
  .next (finish s (encodeWord (.getCounters sel)) .ok (counterValue s sel) [])

/-- GET_DESC after its phase check: the range check and the read (R155). -/
def getDescAt (ring : Ring) (idx : Byte) (s : State) : Host.Outcome State Fault Refusal :=
  if s.cfg.card ring ≤ idx.toNat then .next (raise s (encodeWord (.getDesc ring idx)) .errRange)
  else
    match readDesc s ring idx.toNat with
    | .error f => .fault f
    | .ok d => .next (finish s (encodeWord (.getDesc ring idx)) .ok (descWord d) [])

/-- GET_DESC (R155); it is allowed in FATAL. -/
def execGetDesc (ring : Ring) (idx : Byte) (s : State) : Host.Outcome State Fault Refusal :=
  match s.phase with
  | .uninit => .next (raise s (encodeWord (.getDesc ring idx)) .errNotInit)
  | .ready => getDescAt ring idx s
  | .fatal => getDescAt ring idx s

end Sys2Proof.Machine
end

