-- ==== Sys2Proof/Machine/Receive.lean ====
section
/-!
DEFINITION. The receive path and drain (42_receive.md): RECEIVE, DRAIN with its later steps, ACK_RX.
-/

namespace Sys2Proof.Machine

/-- Slot `i` goes back to the controller and the host cursor moves on (R130). Only `own` is written in the slot. -/
def recycle (s : State) (i : Nat) (d : Desc) : State :=
  { writeDesc s .rx i { d with own := .controllerOwned } with cur := s.cur.set .rx (advance s.cfg .rx i) }

/-- A slot discarded for its status flags (R130). -/
def discardErr (s : State) (i : Nat) (d : Desc) : State :=
  recycle { s with cntErr := inc32 s.cntErr } i d

/-- A good slot discarded because the stack's pool gave no buffer (R130). -/
def discardNobuf (s : State) (i : Nat) (d : Desc) : State :=
  recycle { s with cntNobuf := inc32 s.cntNobuf } i d

/-- The loop of RECEIVE (R130), at most `passes` passes; it answers the value and the bytes of a frame, or none where
nothing is available. The bound is never spent (R131, entry 13): see `receiveFrom`. -/
def receiveLoop : Nat → State → Except Fault (Option (Word × List Byte) × State)
  | 0, _ => .error .unwrittenRead
  | passes + 1, s =>
    match readDesc s .rx s.cur.rx with
    | .error f => .error f
    | .ok d =>
      match d.own with
      | .controllerOwned => .ok (none, s)
      | .hostOwned =>
        if d.st.good then
          match drawAlloc s with
          | (true, s1) =>
            match memRead s1.cfg .rx s1.cur.rx s1.mem d.addr.toNat d.len.toNat with
            | .error f => .error f
            | .ok frame => .ok (some (frameValue d.len s1.cur.rx, frame), recycle s1 s1.cur.rx d)
          | (false, s1) => receiveLoop passes (discardNobuf s1 s1.cur.rx d)
        else receiveLoop passes (discardErr s s.cur.rx d)

/-- RECEIVE without its phase checks (R130, R132). Every pass that does not end the loop turns one HostOwned slot
ControllerOwned (R131), so one pass more than there are slots is enough. -/
def receiveFrom (s : State) : Except Fault (Option (Word × List Byte) × State) :=
  receiveLoop (s.descs.rx.length + 1) s

/-- RECEIVE after its phase checks. -/
def receiveResult (s : State) : Host.Outcome State Fault Refusal :=
  match receiveFrom s with
  | .error f => .fault f
  | .ok (none, s1) => .next (finish s1 (encodeWord .receive) .empty 0#32 [])
  | .ok (some (v, frame), s1) => .next (finish s1 (encodeWord .receive) .frame v frame)

/-- RECEIVE (R130). -/
def execReceive (s : State) : Host.Outcome State Fault Refusal :=
  match s.phase with
  | .uninit => .next (raise s (encodeWord .receive) .errNotInit)
  | .fatal => .next (raise s (encodeWord .receive) .errFatal)
  | .ready => receiveResult s

/-- The DRAIN progress of the running context set to `d` (R132). -/
def setDrain (s : State) (d : DrainState) : State := { s with drain := s.drain.set (running s) d }

/-- DRAIN: its start step (R132). It also starts in FATAL. No result is recorded yet. -/
def execDrain (s : State) : Host.Outcome State Fault Refusal :=
  match s.phase with
  | .uninit => .next (raise s (encodeWord .drain) .errNotInit)
  | .ready => .next (setDrain s (.draining 0))
  | .fatal => .next (setDrain s (.draining 0))

/-- The end of a DRAIN: the receive notification is cleared, no DRAIN is in progress, and the result is recorded
(R132). -/
def endDrain (s : State) (code : ResultCode) (k : Nat) : State :=
  finish (setDrain { s with pend := s.pend.set .rxr false } .idle) (encodeWord .drain) code (countWord k) []

/-- A received frame offered to the stack's input pipe (R132). -/
def deliver (s : State) (k : Nat) (frame : List Byte) : State :=
  match drawDeliver s with
  | (true, s1) => setDrain { s1 with delivered := s1.delivered ++ [frame] } (.draining (k + 1))
  | (false, s1) => { s1 with cntDlverr := inc32 s1.cntDlverr }

/-- DRAIN_STEP after its phase check. -/
def drainReceive (k : Nat) (s : State) : Host.Outcome State Fault Refusal :=
  match receiveFrom s with
  | .error f => .fault f
  | .ok (none, s1) => .next (setDrain s1 (.acking k))
  | .ok (some (_, frame), s1) => .next (deliver s1 k frame)

/-- DRAIN_STEP with `k` frames delivered so far (R132). -/
def drainStep (k : Nat) (s : State) : Host.Outcome State Fault Refusal :=
  match s.phase with
  | .fatal => .next (endDrain s .errFatal k)
  | .ready => drainReceive k s
  | .uninit => drainReceive k s

/-- DRAIN_ACK with `k` frames delivered (R132). -/
def drainAck (k : Nat) (s : State) : Host.Outcome State Fault Refusal := .next (endDrain s .ok k)

/-- ACK_RX (R134). -/
def execAckRx (s : State) : Host.Outcome State Fault Refusal :=
  .next (finish { s with pend := s.pend.set .rxr false } (encodeWord .ackRx) .ok 0#32 [])

end Sys2Proof.Machine
end

