-- ==== Sys2Proof/Machine/RingManager.lean ====
section
/-!
DEFINITION. The ring manager (40_ring_manager.md): INIT.
-/

namespace Sys2Proof.Machine

/-- The owner INIT gives a ring's slots: the host for Tx, the controller for Rx (R100). -/
def initOwner : Ring → Own
  | .tx => .hostOwned
  | .rx => .controllerOwned

/-- Descriptor `i` of ring `r` as INIT writes it (R100). -/
def initDesc (p : Params) (r : Ring) (i : Nat) : Desc where
  own := initOwner r
  addr := BitVec.ofNat 32 (bufAddr p r i)
  len := 0#16
  st := Status.clear
  next := (i + 1) % p.card r

/-- The descriptors of ring `r` as INIT writes them (R100). -/
def initRing (p : Params) (r : Ring) : List Desc := (List.range (p.card r)).map (initDesc p r)

/-- The state INIT leaves, before its result (R100). -/
def initState (s : State) : State :=
  { s with
    phase := .ready
    descs := ⟨initRing s.cfg .tx, initRing s.cfg .rx⟩
    cur := ⟨0, 0⟩
    ccur := ⟨0, 0⟩
    kick := false
    txEn := false
    rxEn := false
    pend := ⟨false, false⟩
    ie := ⟨false, false⟩
    ifcfg := false
    cntErr := 0#32
    cntNobuf := 0#32
    cntMiss := 0#32
    cntDlverr := 0#32 }

/-- INIT (R100). -/
def execInit (s : State) : Host.Outcome State Fault Refusal :=
  if (s.cfg.nTx + s.cfg.nRx) * s.cfg.bufCap > s.cfg.poolBytes then
    .next (raise s (encodeWord .init) .errInitFail)
  else .next (finish (initState s) (encodeWord .init) .ok 0#32 [])

end Sys2Proof.Machine
end

