-- ==== Sys2Proof/Machine/Transmit.lean ====
section
/-!
DEFINITION. The transmit path (41_transmit.md): TRANSMIT.
-/

namespace Sys2Proof.Machine

/-- The hand-off of slot `i`, whose buffer now holds the frame in memory `m`: length, ownership, cursor, doorbell
(R120). -/
def handOff (s : State) (i : Nat) (d : Desc) (m : List Host.Cell) (len : Half) : State :=
  { writeDesc s .tx i { d with len := len, own := .controllerOwned } with
    mem := m
    cur := s.cur.set .tx (advance s.cfg .tx i)
    kick := true }

/-- TRANSMIT after its phase and length checks: the ring's own check, the copy and the hand-off (R120). -/
def transmitSlot (len : Half) (frame : List Byte) (s : State) : Host.Outcome State Fault Refusal :=
  match readDesc s .tx s.cur.tx with
  | .error f => .fault f
  | .ok d =>
    match d.own with
    | .controllerOwned => .next (raise s (encodeWord (.transmit len frame)) .busy)
    | .hostOwned =>
      match memWrite s.cfg .tx s.cur.tx s.mem d.addr.toNat frame with
      | .error f => .fault f
      | .ok m =>
        .next (finish (handOff s s.cur.tx d m len) (encodeWord (.transmit len frame)) .ok
          (BitVec.ofNat 32 s.cur.tx) [])

/-- TRANSMIT (R120), its checks in the order of R201. -/
def execTransmit (len : Half) (frame : List Byte) (s : State) : Host.Outcome State Fault Refusal :=
  match s.phase with
  | .uninit => .next (raise s (encodeWord (.transmit len frame)) .errNotInit)
  | .fatal => .next (raise s (encodeWord (.transmit len frame)) .errFatal)
  | .ready =>
    if frame.length = len.toNat ∧ txLenOk s.cfg s.mtu len then transmitSlot len frame s
    else .next (raise s (encodeWord (.transmit len frame)) .errLen)

end Sys2Proof.Machine
end

