-- ==== Sys2Proof/Machine/Dispatch.lean ====
section
/-!
DEFINITION. The meaning of every instruction, one arm per constructor.
-/

namespace Sys2Proof.Machine

/-- The meaning of an instruction: a host command in the running context, or a controller event. -/
def exec (i : Instr) (s : State) : Host.Outcome State Fault Refusal :=
  match i with
  | .init => Sys2Proof.Machine.execInit s
  | .ifUp mtu payload => Sys2Proof.Machine.execIfUp mtu payload s
  | .transmit len frame => Sys2Proof.Machine.execTransmit len frame s
  | .receive => Sys2Proof.Machine.execReceive s
  | .drain => Sys2Proof.Machine.execDrain s
  | .ackRx => Sys2Proof.Machine.execAckRx s
  | .ackTx => Sys2Proof.Machine.execAckTx s
  | .linkPoll => Sys2Proof.Machine.execLinkPoll s
  | .getStatus => Sys2Proof.Machine.execGetStatus s
  | .getIfinfo => Sys2Proof.Machine.execGetIfinfo s
  | .irqMask tx rx => Sys2Proof.Machine.execIrqMask tx rx s
  | .eoi src => Sys2Proof.Machine.execEoi src s
  | .getCounters sel => Sys2Proof.Machine.execGetCounters sel s
  | .getDesc ring idx => Sys2Proof.Machine.execGetDesc ring idx s
  | .txDone => Sys2Proof.Machine.execTxDone s
  | .rxFrame len crcErr otherErr bytes => Sys2Proof.Machine.execRxFrame len crcErr otherErr bytes s
  | .rxBerr => Sys2Proof.Machine.execRxBerr s
  | .phyLink v => Sys2Proof.Machine.execPhyLink v s

end Sys2Proof.Machine
end

