-- ==== Sys2Proof/Machine/Schedule.lean ====
section
/-!
DEFINITION. What the next step is: which agent takes it (R6), which command the running context issues (R207, R210), what
a word on the controller port is (R76), whether an entry is enabled (R206); and where the next instruction is placed.
-/

namespace Sys2Proof.Machine

/-- The agent of the next step and the state with that choice taken: the head of the schedule, or a free value where the
schedule is empty (R6, entry 1). -/
def pickAgent (s : State) : Agent × State :=
  match s.sched with
  | a :: rest => (a, { s with sched := rest })
  | [] => (Config.freeAgent s.freeCount, { s with freeCount := s.freeCount + 1 })

/-- The fixed body of a handler (R207). -/
def handlerBody : Source → List Command
  | .txc => [⟨0x70000000#32, []⟩, ⟨0xC0000000#32, []⟩]
  | .rxr => [⟨0x50000000#32, []⟩, ⟨0xC0000001#32, []⟩]

/-- The command the running context issues next; none where the mainline is done (R210). -/
def fetch (s : State) : Option Command :=
  match running s with
  | .mainline => s.prog[s.pc]?
  | .isrTx => (handlerBody .txc)[s.ipc.txc]?
  | .isrRx => (handlerBody .rxr)[s.ipc.rxr]?

/-- What a step does. -/
inductive Action where
  /-- An instruction: a command of the running context or a controller event. -/
  | run (i : Instr)
  /-- An illegal host word (R74). -/
  | illegal (w : Word)
  /-- Interrupt entry (R206). -/
  | enter (src : Source)
  /-- DRAIN_STEP with `k` frames delivered (R132). -/
  | drainStep (k : Nat)
  /-- DRAIN_ACK with `k` frames delivered (R132). -/
  | drainAck (k : Nat)
  /-- Nothing: the chosen agent has no enabled step, or the controller word is ignored (R76, R210; entry 1). -/
  | idle
  deriving DecidableEq, Repr

/-- A host word as an action: its instruction, or the illegal word (R74, R84). -/
def commandAction (c : Command) : Action :=
  match decode .host c.word c.payload with
  | .ok i => .run i
  | .error _ => .illegal c.word

/-- HOST_STEP (R210). -/
def hostAction (s : State) : Action :=
  match s.drain.get (running s) with
  | .draining k => .drainStep k
  | .acking k => .drainAck k
  | .idle =>
    match fetch s with
    | some c => commandAction c
    | none => .idle

/-- A word on the controller port as an action: its event, or ignored (R76, R84). -/
def controllerAction (w : Word) (payload : List Byte) : Action :=
  match decode .controller w payload with
  | .ok i => .run i
  | .error _ => .idle

/-- The action of an agent's step (R6). -/
def agentAction (a : Agent) (s : State) : Action :=
  match a with
  | .host => hostAction s
  | .enter src => if canEnter s src then .enter src else .idle
  | .controller w payload => controllerAction w payload

/-- An illegal host word: ERR_ILLEGAL with value 0, and nothing else (R74). -/
def rejectWord (w : Word) (s : State) : State := raise s w .errIllegal

/-- The mainline program with `c` as command number `n`; a gap before it is filled with the all-zero word, which is
illegal on purpose (R74). -/
def placeAt (prog : List Command) (n : Nat) (c : Command) : List Command :=
  prog.take n ++ List.replicate (n - prog.length) ⟨0#32, []⟩ ++ c :: prog.drop (n + 1)

/-- The mainline is the running context with no DRAIN in progress. Where a handler runs, it and every preempted context
are dropped and no source is in service (R32). -/
def mainlineReady (s : State) : State :=
  if running s = .mainline then { s with drain := s.drain.set .mainline .idle }
  else
    { s with
      ctxStack := [.mainline]
      act := ⟨false, false⟩
      drain := ⟨.idle, .idle, .idle⟩ }

/-- A host command placed where the mainline issues its next one, and the host as the next agent. -/
def placeHost (s : State) (c : Command) : State :=
  { mainlineReady s with prog := placeAt s.prog s.pc c, sched := .host :: s.sched }

/-- A controller word placed as the next step. -/
def placeController (s : State) (w : Word) (payload : List Byte) : State :=
  { s with sched := .controller w payload :: s.sched }

/-- A table word placed so that the next step runs it: on the port `decodeTableWord` reads it from, and on the host port
where both reject it (entries 2, 9). -/
def placeTableWord (s : State) (nbits w : Nat) : State :=
  match decodeTableOn .host nbits w, decodeTableOn .controller nbits w with
  | none, some _ =>
    placeController s (tableWord nbits w) (zeroPayload .controller (tableWord nbits w))
  | _, _ => placeHost s ⟨tableWord nbits w, zeroPayload .host (tableWord nbits w)⟩

end Sys2Proof.Machine
end

