-- ==== Sys2Proof/Machine/Step.lean ====
section
/-!
DEFINITION. One step of the block: one atomic step of one agent (R6, R9).
-/

namespace Sys2Proof.Machine

/-- An action carried out. -/
def perform (a : Action) (s : State) : Host.Outcome State Fault Refusal :=
  match a with
  | .run i => exec i s
  | .illegal w => .next (rejectWord w s)
  | .enter src => .next (enterIsr s src)
  | .drainStep k => drainStep k s
  | .drainAck k => drainAck k s
  | .idle => .next s

/-- One step. A parameter set that breaks R5 is refused before any step (R5, R202). -/
def step (s : State) : Host.Outcome State Fault Refusal :=
  if s.cfg.Ok then perform (agentAction (pickAgent s).1 (pickAgent s).2) (pickAgent s).2
  else .refused .badConfig

/-- `s` with the instruction of a table word placed where the next step takes it from (entries 2, 9). -/
def State.withFetchWord (s : State) (nbits w : Nat) : State := placeTableWord s nbits w

end Sys2Proof.Machine
end

