-- ==== Sys2Proof/Safety.lean ====
section
/-!
DEFINITION. What counts as a sound state and a safe run: the invariants the spec states (R22, R32, R34 to R36, R102, R170),
the frames queued in a ring in service order (R67), the end of a run and its observation, cut there (R10), and weak fairness of
interrupt entry (R206).
-/

namespace Sys2Proof.Machine

/-- How many descriptors of a ring have the owner `o` (R35, R36). -/
def countOwn (l : List Desc) (o : Own) : Nat := l.countP (fun d => d.own = o)

/-- The slots owned by `o` are exactly `first, first + 1, ..., first + k - 1` modulo `n`, where `k` is their number, and
`last` is the slot after them (R35, R36). -/
abbrev OwnedRun (l : List Desc) (o : Own) (n first last : Nat) : Prop :=
  (∀ j < n, (l[(first + j) % n]?.map (fun d => d.own) = some o ↔ j < countOwn l o)) ∧
    last = (first + countOwn l o) % n

/-- The owner whose slots of a ring hold a frame in flight: the controller in the Tx ring, the host in the Rx ring. -/
def holder : Ring → Own
  | .tx => .controllerOwned
  | .rx => .hostOwned

/-- What holds of descriptor `i` of ring `r` once INIT has written it (R22, R23, R51, R103). -/
abbrev DescLaw (p : Params) (r : Ring) (i : Nat) (d : Desc) : Prop :=
  d.addr.toNat = bufAddr p r i ∧ d.next = (i + 1) % p.card r ∧ d.len.toNat ≤ p.bufCap ∧
    (d.st.good = true → d.st.crc = false ∧ d.st.runt = false ∧ d.st.oversize = false)

/-- Every byte of the frame that `d` holds has been written (R26). -/
abbrev FrameWritten (s : State) (d : Desc) : Prop :=
  ∀ k < d.len.toNat, (Memory.read s.mem (d.addr.toNat + k)).isSome

/-- What holds of ring `r` once INIT has run (R22 to R26). -/
abbrev RingLaw (s : State) (r : Ring) : Prop :=
  (s.descs.get r).length = s.cfg.card r ∧ s.cur.get r < s.cfg.card r ∧ s.ccur.get r < s.cfg.card r ∧
    ∀ i < s.cfg.card r, ∀ d ∈ (s.descs.get r)[i]?,
      DescLaw s.cfg r i d ∧ (d.own = holder r → FrameWritten s d)

/-- The Tx ring invariant (R35). -/
abbrev TxRun (s : State) : Prop :=
  OwnedRun s.descs.tx .controllerOwned s.cfg.nTx s.ccur.tx s.cur.tx

/-- The Rx ring invariant (R36). -/
abbrev RxRun (s : State) : Prop :=
  OwnedRun s.descs.rx .hostOwned s.cfg.nRx s.cur.rx s.ccur.rx

/-- The doorbell law: `kick` is true exactly when some Tx slot is ControllerOwned (R170). -/
abbrev KickLaw (s : State) : Prop := s.kick = true ↔ 0 < countOwn s.descs.tx .controllerOwned

/-- The invariants of the rings in READY and FATAL. -/
abbrev RingsLaw (s : State) : Prop := RingLaw s .tx ∧ RingLaw s .rx ∧ TxRun s ∧ RxRun s ∧ KickLaw s

/-- The context stack always ends in Mainline, holds each context at most once, and holds a handler exactly when its
source is in service (R32). -/
abbrev CtxLaw (s : State) : Prop :=
  s.ctxStack.getLast? = some .mainline ∧ s.ctxStack.Nodup ∧
    (Ctx.isrTx ∈ s.ctxStack ↔ s.act.txc = true) ∧ (Ctx.isrRx ∈ s.ctxStack ↔ s.act.rxr = true)

/-- The controller is enabled exactly while the interface is configured: IF_UP sets and INIT clears all three (R28,
R30). -/
abbrev EnableLaw (s : State) : Prop := s.txEn = s.ifcfg ∧ s.rxEn = s.ifcfg

/-- Before INIT succeeds nothing is in the rings, pending, in service or in progress (R37). -/
abbrev UninitLaw (s : State) : Prop :=
  s.descs = ⟨[], []⟩ ∧ s.cur = ⟨0, 0⟩ ∧ s.ccur = ⟨0, 0⟩ ∧ s.kick = false ∧ s.ifcfg = false ∧
    s.pend = ⟨false, false⟩ ∧ s.act = ⟨false, false⟩ ∧ s.drain = ⟨.idle, .idle, .idle⟩

/-- The invariant of the block. -/
abbrev State.Invariant (s : State) : Prop :=
  s.cfg.Ok ∧ Memory.wf s.mem ∧ mtuOk s.cfg s.mtu = true ∧ CtxLaw s ∧ EnableLaw s ∧
    (s.phase = .uninit → UninitLaw s) ∧ (s.phase ≠ .uninit → RingsLaw s)

/-- The running context is inside its handler body: a handler's index is 0 or 1, a DRAIN in progress in IsrRx is the
body's first command, and IsrTx runs no DRAIN (R207, R210). -/
abbrev HandlerLaw (s : State) : Prop :=
  (Ctx.isrTx ∈ s.ctxStack → s.ipc.txc ≤ 1 ∧ s.drain.isrTx = .idle) ∧
    (Ctx.isrRx ∈ s.ctxStack → s.ipc.rxr ≤ 1 ∧ (s.drain.isrRx ≠ .idle → s.ipc.rxr = 0))

/-- The bytes of the frame in slot `i` of ring `r`; none for an unwritten slot or byte. -/
def slotFrame (s : State) (r : Ring) (i : Nat) : Option (List Byte) :=
  match (s.descs.get r)[i]? with
  | none => none
  | some d =>
    match memRead s.cfg r i s.mem d.addr.toNat d.len.toNat with
    | .ok frame => some frame
    | .error _ => none

/-- The frames handed to the controller and not yet on the wire, in service order (R35, R67). -/
def txQueue (s : State) : List (Option (List Byte)) :=
  (List.range (countOwn s.descs.tx .controllerOwned)).map fun j =>
    slotFrame s .tx ((s.ccur.tx + j) % s.cfg.nTx)

/-- The received frames not yet taken by the host, in service order, discarded ones included (R36, R67). -/
def rxQueue (s : State) : List (Option (List Byte)) :=
  (List.range (countOwn s.descs.rx .hostOwned)).map fun j =>
    slotFrame s .rx ((s.cur.rx + j) % s.cfg.nRx)

/-- The three traces through which a run is observed (R10). -/
structure Observation where
  wireOut : List (List Byte)
  delivered : List (List Byte)
  results : List ResultEntry
  deriving DecidableEq, Repr

/-- The traces of a state; `observeSteps` and `Observes` say at which state of a run they are taken (R10). -/
def observe (s : State) : Observation := ⟨s.wireOut, s.delivered, s.results⟩

/-- The run has ended: the program is past its last command, the context stack is [Mainline], and no DRAIN is in
progress (R10). -/
abbrev State.Ended (s : State) : Prop :=
  s.prog.length ≤ s.pc ∧ s.ctxStack = [.mainline] ∧ s.drain = ⟨.idle, .idle, .idle⟩

/-- The observation of at most `n` steps from `s`: it is taken at the first state at which the run has ended, and what
the block does after that is not part of it; a run that has not ended is observed where it stands (R10). -/
def observeSteps : Nat → State → Host.Outcome Observation Fault Refusal
  | 0, s => .next (observe s)
  | n + 1, s =>
    if s.Ended then .next (observe s)
    else
      match step s with
      | .next t => observeSteps n t
      | .fault f => .fault f
      | .refused r => .refused r

/-- An infinite run: each state is the step of the one before. -/
def IsRun (run : Nat → State) : Prop := ∀ n, step (run n) = .next (run (n + 1))

/-- State `n` is the first at which the run has ended (R10). -/
def EndsAt (run : Nat → State) (n : Nat) : Prop := (run n).Ended ∧ ∀ m < n, ¬(run m).Ended

/-- `o` is the observation of a run that ends: the traces at its first ended state (R10). -/
def Observes (run : Nat → State) (o : Observation) : Prop := ∃ n, EndsAt run n ∧ o = observe (run n)

/-- Step `n` of a run is an interrupt entry for `src`. -/
def EntersAt (run : Nat → State) (src : Source) (n : Nat) : Prop :=
  agentAction (pickAgent (run n)).1 (pickAgent (run n)).2 = .enter src

/-- Weak fairness of interrupt entry: where `src` requests from some step on, an entry for it or for the other source is
taken (R206). A premise on runs; no step depends on it (entry 8). -/
def WeaklyFair (run : Nat → State) : Prop :=
  ∀ src n, (∀ m, n ≤ m → req (run m) src = true) → ∃ m, n ≤ m ∧ (EntersAt run src m ∨ EntersAt run src.other m)

end Sys2Proof.Machine
end

