-- ==== Sys2Proof/Certificates/Slice0/Obligations.lean ====
section
/-!
DEFINITION. The statements for the provers. Each formalises rules of spec/ about the whole block, one command or one
event; the docstring says which. `finish s w code v p` is the end of a command (CompletedCommandRecordsItsResult says
what it is), `raise s w code` is `finish` with value 0 and no payload (R8).
-/

open Sys2Proof Sys2Proof.Machine

/-! ### Encoding -/

/-- Words and payloads of 95_test_vectors.md V1 on both ports, and two host words that are illegal. -/
def Obligations.SampleWordsDecode : Prop :=
  decode .host 0x10000000#32 [] = .ok .init ∧
    decode .host 0x30000005#32 [0x48#8, 0x45#8, 0x4C#8, 0x4C#8, 0x4F#8] =
      .ok (.transmit 5#16 [0x48#8, 0x45#8, 0x4C#8, 0x4C#8, 0x4F#8]) ∧
    decode .host 0xB0000002#32 [] = .ok (.irqMask false true) ∧
    decode .host 0xC0000001#32 [] = .ok (.eoi .rxr) ∧
    decode .host 0xD0000002#32 [] = .ok (.getCounters .miss) ∧
    decode .host 0xE0008002#32 [] = .ok (.getDesc .rx 2#8) ∧
    decode .host 0x00000000#32 [] = .error .reservedCode ∧
    decode .host 0x40000000#32 [0#8] = .error .payloadLength ∧
    decode .controller 0x10000000#32 [] = .ok .txDone ∧
    decode .controller 0x20020001#32 [7#8] = .ok (.rxFrame 1#16 false true [7#8]) ∧
    decode .controller 0x40000001#32 [] = .ok (.phyLink true)

/-- Decoding the word and payload of a well-formed instruction on its port gives it back, every operand at every value
(R70 to R75, R83). -/
def Obligations.DecodeOfEncode : Prop :=
  ∀ i : Instr, i.wellFormed = true → decode i.port (encodeWord i) i.payload = .ok i

/-- What decodes is well formed and comes from its own word and payload: no bit of a word is dropped (R73, R75, R84). -/
def Obligations.EncodeOfDecode : Prop :=
  ∀ (port : Port) (w : Word) (payload : List Byte) (i : Instr), decode port w payload = .ok i →
    i.port = port ∧ i.wellFormed = true ∧ encodeWord i = w ∧ i.payload = payload

/-- The payloads a row of the opcode table allows with a word: any with IF_UP and TRANSMIT, L bytes with RX_FRAME, none
with every other row (R83, R76). -/
def Sys2Proof.payloadAllowed (row : Instr) (w : Word) (payload : List Byte) : Prop :=
  match row with
  | .ifUp _ _ => True
  | .transmit _ _ => True
  | .rxFrame _ _ _ _ => payload.length = (w.extractLsb' 0 16).toNat
  | _ => payload = []

/-- A word decodes to exactly one row of the opcode table: the row that it matches under the row's mask, and a word that
matches a row decodes to an instruction of that row wherever its payload is allowed (R84). -/
def Obligations.WordsDecodeToTheRowTheyMatch : Prop :=
  (∀ (port : Port) (w : Word) (payload : List Byte) (i : Instr), decode port w payload = .ok i →
    w &&& (tableRow i).2 = (tableRow i).1 ∧
      ∀ row : Instr, row.port = port → w &&& (tableRow row).2 = (tableRow row).1 → tableRow row = tableRow i) ∧
  (∀ (row : Instr) (w : Word) (payload : List Byte), w &&& (tableRow row).2 = (tableRow row).1 →
    payloadAllowed row w payload → ∃ i, decode row.port w payload = .ok i ∧ tableRow i = tableRow row)

/-- A word on a byte-wide channel is little-endian: byte 0 holds bits [7:0], and the four bytes decode as the word
(R56). That the payload follows the four bytes at once is the model's choice, no rule's (entry 15). -/
def Obligations.LittleEndianBytesDecodeAsTheirWord : Prop :=
  ∀ (port : Port) (w : Word) (payload : List Byte),
    (∀ k < 4, (leBytes w)[k]? = some (w.extractLsb' (8 * k) 8)) ∧
      decodeBytes port (leBytes w ++ payload) = decode port w payload

/-- The illegal format H words of R74, with the ARG bits of R73 and the payload rule of R83. -/
def Sys2Proof.illegalHost (w : Word) (payload : List Byte) : Prop :=
  w.extractLsb' 28 4 = 0x0#4 ∨ w.extractLsb' 28 4 = 0xF#4 ∨ w.extractLsb' 16 12 ≠ 0#12 ∨
    ((1 ≤ (w.extractLsb' 28 4).toNat ∧ (w.extractLsb' 28 4).toNat ≤ 14 ∧ w.extractLsb' 28 4 ≠ 0x2#4 ∧
        w.extractLsb' 28 4 ≠ 0x3#4) ∧ payload ≠ []) ∨
    ((w.extractLsb' 28 4 = 0x1#4 ∨ (4 ≤ (w.extractLsb' 28 4).toNat ∧ (w.extractLsb' 28 4).toNat ≤ 10)) ∧
      w.extractLsb' 0 16 ≠ 0#16) ∨
    (w.extractLsb' 28 4 = 0xB#4 ∧ w.extractLsb' 2 14 ≠ 0#14) ∨
    (w.extractLsb' 28 4 = 0xC#4 ∧ w.extractLsb' 1 15 ≠ 0#15) ∨
    (w.extractLsb' 28 4 = 0xD#4 ∧ w.extractLsb' 2 14 ≠ 0#14) ∨
    (w.extractLsb' 28 4 = 0xE#4 ∧ w.extractLsb' 8 7 ≠ 0#7)

/-- The host port rejects exactly the illegal words, and an illegal word of the mainline program gives
ERR_ILLEGAL(0, []) and changes nothing but the record of that result and the program index (R74, R32). -/
def Obligations.IllegalHostWordGivesErrIllegal : Prop :=
  (∀ (w : Word) (payload : List Byte), illegalHost w payload ↔ ∃ e, decode .host w payload = .error e) ∧
  (∀ (s : State) (rest : List Agent) (w : Word) (payload : List Byte), s.cfg.Ok → s.sched = .host :: rest →
    running s = .mainline → s.drain.mainline = .idle → s.prog[s.pc]? = some ⟨w, payload⟩ → illegalHost w payload →
    step s = .next { s with
      sched := rest
      results := s.results ++ [⟨.mainline, w, ⟨.errIllegal, 0#32, []⟩⟩]
      pc := s.pc + 1 })

/-- The illegal format C words of R76. -/
def Sys2Proof.illegalController (w : Word) (payload : List Byte) : Prop :=
  w.extractLsb' 28 4 = 0x0#4 ∨ 5 ≤ (w.extractLsb' 28 4).toNat ∨
    ((w.extractLsb' 28 4 = 0x1#4 ∨ w.extractLsb' 28 4 = 0x3#4) ∧ (w.extractLsb' 0 28 ≠ 0#28 ∨ payload ≠ [])) ∨
    (w.extractLsb' 28 4 = 0x2#4 ∧
      (w.extractLsb' 18 10 ≠ 0#10 ∨ payload.length ≠ (w.extractLsb' 0 16).toNat)) ∨
    (w.extractLsb' 28 4 = 0x4#4 ∧ (w.extractLsb' 1 27 ≠ 0#27 ∨ payload ≠ []))

/-- The controller port rejects exactly the illegal words, and an illegal word is ignored: no state changes and no trace
grows. The schedule, which the model alone has (entry 1), moves on. -/
def Obligations.IllegalControllerWordIsIgnored : Prop :=
  (∀ (w : Word) (payload : List Byte), illegalController w payload ↔ ∃ e, decode .controller w payload = .error e) ∧
  (∀ (s : State) (rest : List Agent) (w : Word) (payload : List Byte), s.cfg.Ok →
    s.sched = .controller w payload :: rest → illegalController w payload → step s = .next { s with sched := rest })

/-! ### Steps, contexts and interrupts -/

/-- A step of the mainline runs the command at its program index: where it decodes to `i`, the step is `exec i`, the
schedule's head taken (R32, R210). -/
def Obligations.StepRunsTheMainlineCommand : Prop :=
  ∀ (s : State) (rest : List Agent) (c : Command) (i : Instr), s.cfg.Ok → s.sched = .host :: rest →
    running s = .mainline → s.drain.mainline = .idle → s.prog[s.pc]? = some c →
    decode .host c.word c.payload = .ok i → step s = exec i { s with sched := rest }

/-- A word on the controller port is a step of its own: where it decodes to `i`, the step is `exec i`, the schedule's
head taken (R6, R75). -/
def Obligations.StepRunsTheControllerEvent : Prop :=
  ∀ (s : State) (rest : List Agent) (w : Word) (payload : List Byte) (i : Instr), s.cfg.Ok →
    s.sched = .controller w payload :: rest → decode .controller w payload = .ok i →
    step s = exec i { s with sched := rest }

/-- The handlers run their fixed bodies, and nothing outside them (R207). -/
def Obligations.HandlersRunTheirFixedBodies : Prop :=
  ∀ (s : State) (rest : List Agent), s.cfg.Ok → s.sched = .host :: rest →
    (running s = .isrTx → s.drain.isrTx = .idle →
      (s.ipc.txc = 0 → step s = exec .ackTx { s with sched := rest }) ∧
      (s.ipc.txc = 1 → step s = exec (.eoi .txc) { s with sched := rest }) ∧
      (2 ≤ s.ipc.txc → step s = .next { s with sched := rest })) ∧
    (running s = .isrRx → s.drain.isrRx = .idle →
      (s.ipc.rxr = 0 → step s = exec .drain { s with sched := rest }) ∧
      (s.ipc.rxr = 1 → step s = exec (.eoi .rxr) { s with sched := rest }) ∧
      (2 ≤ s.ipc.rxr → step s = .next { s with sched := rest }))

/-- A host step continues a DRAIN in progress before anything else, and there is no step once the mainline is done
(R210). -/
def Obligations.HostStepContinuesTheDrainFirst : Prop :=
  ∀ (s : State) (rest : List Agent), s.cfg.Ok → s.sched = .host :: rest →
    (∀ k, s.drain.get (running s) = .draining k → step s = drainStep k { s with sched := rest }) ∧
    (∀ k, s.drain.get (running s) = .acking k → step s = drainAck k { s with sched := rest }) ∧
    (running s = .mainline → s.drain.mainline = .idle → s.prog.length ≤ s.pc → step s = .next { s with sched := rest })

/-- When a source requests (R204), and when its entry is enabled under each priority (R205). -/
def Obligations.RequestAndArbitration : Prop :=
  ∀ (s : State) (src : Source),
    (req s src = true ↔
      s.pend.get src = true ∧ s.ie.get src = true ∧ s.act.get src = false ∧
        (running s = .mainline ∨
          (s.cfg.crossNest = true ∧ running s = (match src with | .txc => Ctx.isrRx | .rxr => Ctx.isrTx)))) ∧
    (canEnter s src = true ↔
      req s src = true ∧
        ¬(s.cfg.arbPriority = .txFirst ∧ src = .rxr ∧ req s .txc = true) ∧
        ¬(s.cfg.arbPriority = .rxFirst ∧ src = .txc ∧ req s .rxr = true))

/-- Interrupt entry: `act` set, the handler's context pushed, its index 0 and its DRAIN idle, nothing else saved or
changed; an entry that is not enabled does nothing (R206). -/
def Obligations.InterruptEntry : Prop :=
  ∀ (s : State) (rest : List Agent) (src : Source), s.cfg.Ok → s.sched = .enter src :: rest →
    (canEnter s src = true → step s = .next { s with
      sched := rest
      act := s.act.set src true
      ctxStack := (match src with | .txc => Ctx.isrTx | .rxr => Ctx.isrRx) :: s.ctxStack
      ipc := s.ipc.set src 0
      drain := s.drain.set (match src with | .txc => Ctx.isrTx | .rxr => Ctx.isrRx) .idle }) ∧
    (canEnter s src = false → step s = .next { s with sched := rest })

/-- EOI of the running handler, whenever it is issued after an entry, gives back the context that was preempted, with its
own index and DRAIN progress (R206, R208). -/
def Obligations.ReturnRestoresThePreemptedContext : Prop :=
  ∀ (s : State) (src : Source) (t : State), exec (.eoi src) (enterIsr s src) = .next t →
    t.ctxStack = s.ctxStack ∧ t.act = s.act.set src false ∧ t.pc = s.pc ∧
      t.ipc.get src.other = s.ipc.get src.other ∧
      ∀ c, c ≠ handlerOf src → t.drain.get c = s.drain.get c

/-- A parameter set that breaks one of the constraints of R5 is refused before any step, whatever the rest of the state,
and one that meets them all is not (R5, R202). -/
def Obligations.BadParametersAreRefused : Prop :=
  ∀ s : State, step s = .refused .badConfig ↔
    ¬((1 ≤ s.cfg.nTx ∧ s.cfg.nTx ≤ 256) ∧ (1 ≤ s.cfg.nRx ∧ s.cfg.nRx ≤ 256) ∧ s.cfg.bufCap % 4 = 0 ∧
      (14 + 1500 ≤ s.cfg.bufCap ∧ s.cfg.bufCap ≤ 65535) ∧ s.cfg.txBufBase % 4 = 0 ∧ s.cfg.rxBufBase % 4 = 0 ∧
      s.cfg.txBufBase + s.cfg.nTx * s.cfg.bufCap ≤ 2 ^ 32 ∧ s.cfg.rxBufBase + s.cfg.nRx * s.cfg.bufCap ≤ 2 ^ 32 ∧
      ∀ a, ¬((s.cfg.txBufBase ≤ a ∧ a < s.cfg.txBufBase + s.cfg.nTx * s.cfg.bufCap) ∧
        (s.cfg.rxBufBase ≤ a ∧ a < s.cfg.rxBufBase + s.cfg.nRx * s.cfg.bufCap)))

/-- The power-on values of R37, for every parameter set; the four lists and the counter that the model adds are not
among them. -/
def Obligations.PowerOnValues : Prop :=
  ∀ p : Params,
    (State.resetWith p).cfg = p ∧ (State.resetWith p).phase = .uninit ∧
    (∀ r i, readDesc (State.resetWith p) r i = .error .unwrittenRead) ∧
    (∀ a, Memory.read (State.resetWith p).mem a = none) ∧
    (State.resetWith p).cur = ⟨0, 0⟩ ∧ (State.resetWith p).ccur = ⟨0, 0⟩ ∧
    (State.resetWith p).txEn = false ∧ (State.resetWith p).rxEn = false ∧ (State.resetWith p).kick = false ∧
    (State.resetWith p).pend = ⟨false, false⟩ ∧ (State.resetWith p).ie = ⟨false, false⟩ ∧
    (State.resetWith p).act = ⟨false, false⟩ ∧
    hwAddrBytes (State.resetWith p).hwaddr = List.replicate 6 0#8 ∧ (State.resetWith p).mtu = 1500#16 ∧
    (State.resetWith p).fBcast = false ∧ (State.resetWith p).fEtharp = false ∧ (State.resetWith p).fEther = false ∧
    (State.resetWith p).linkUp = false ∧ (State.resetWith p).ifcfg = false ∧
    (State.resetWith p).cntErr = 0#32 ∧ (State.resetWith p).cntNobuf = 0#32 ∧
    (State.resetWith p).cntMiss = 0#32 ∧ (State.resetWith p).cntDlverr = 0#32 ∧
    (State.resetWith p).ctxStack = [.mainline] ∧ (State.resetWith p).pc = 0 ∧ (State.resetWith p).ipc = ⟨0, 0⟩ ∧
    (State.resetWith p).drain = ⟨.idle, .idle, .idle⟩ ∧ (State.resetWith p).phyLink = false ∧
    observe (State.resetWith p) = ⟨[], [], []⟩

/-- The end of a command: the result is appended with the running context and the word, the running context's index
advances by 1, and nothing else changes (R77, R32, R207, R210). -/
def Obligations.CompletedCommandRecordsItsResult : Prop :=
  ∀ (s : State) (w : Word) (code : ResultCode) (v : Word) (p : List Byte),
    finish s w code v p = { s with
      results := s.results ++ [⟨running s, w, ⟨code, v, p⟩⟩]
      pc := if running s = .mainline then s.pc + 1 else s.pc
      ipc := ⟨if running s = .isrTx then s.ipc.txc + 1 else s.ipc.txc,
        if running s = .isrRx then s.ipc.rxr + 1 else s.ipc.rxr⟩ }

/-! ### Ring manager, validator, decoder -/

/-- INIT: the pool test, every descriptor of both rings, the cursors and the control state; nothing else is written
(R100). -/
def Obligations.InitInitialisesTheRings : Prop :=
  ∀ s : State,
    (s.cfg.poolBytes < (s.cfg.nTx + s.cfg.nRx) * s.cfg.bufCap →
      exec .init s = .next (raise s 0x10000000#32 .errInitFail)) ∧
    ((s.cfg.nTx + s.cfg.nRx) * s.cfg.bufCap ≤ s.cfg.poolBytes →
      exec .init s = .next (finish { s with
        phase := .ready
        descs :=
          ⟨(List.range s.cfg.nTx).map fun i =>
              ⟨.hostOwned, BitVec.ofNat 32 (s.cfg.txBufBase + i * s.cfg.bufCap), 0#16,
                ⟨false, false, false, false, false⟩, (i + 1) % s.cfg.nTx⟩,
            (List.range s.cfg.nRx).map fun i =>
              ⟨.controllerOwned, BitVec.ofNat 32 (s.cfg.rxBufBase + i * s.cfg.bufCap), 0#16,
                ⟨false, false, false, false, false⟩, (i + 1) % s.cfg.nRx⟩⟩
        cur := ⟨0, 0⟩
        ccur := ⟨0, 0⟩
        kick := false
        txEn := false
        rxEn := false
        pend := ⟨false, false⟩
        ie := ⟨false, false⟩
        ifcfg := false
        cntErr := 0#32
        cntNobuf := 0#32
        cntMiss := 0#32
        cntDlverr := 0#32 } 0x10000000#32 .ok 0#32 []))

/-- After a successful INIT the Tx run has k = 0 and the Rx run h = 0, a TRANSMIT of a length that passes the validator
succeeds, and a RECEIVE returns EMPTY and changes nothing (R104). -/
def Obligations.RingLawsAfterInit : Prop :=
  ∀ s t : State, s.cfg.Ok → (s.cfg.nTx + s.cfg.nRx) * s.cfg.bufCap ≤ s.cfg.poolBytes → exec .init s = .next t →
    TxRun t ∧ countOwn t.descs.tx .controllerOwned = 0 ∧ RxRun t ∧ countOwn t.descs.rx .hostOwned = 0 ∧
    (∀ (len : Half) (frame : List Byte), frame.length = len.toNat → txLenOk t.cfg t.mtu len = true →
      ∃ u, exec (.transmit len frame) t = .next u ∧
        u.results.getLast?.map (fun e => e.result.code) = some .ok) ∧
    exec .receive t = .next (finish t 0x40000000#32 .empty 0#32 [])

/-- The cursor step stays in the ring, wraps at its end, and `N_r` of them give the start value back (R101). -/
def Obligations.AdvanceGoesRoundTheRing : Prop :=
  ∀ (p : Params) (r : Ring) (c : Nat), c < p.card r →
    advance p r c = (c + 1) % p.card r ∧ advance p r c < p.card r ∧ advance p r (p.card r - 1) = 0 ∧
      (advance p r)^[p.card r] c = c

/-- The length and MTU validators, and `tx_max` where the MTU is one they accept (R102). -/
def Obligations.ValidatorsOfLengthAndMtu : Prop :=
  ∀ (p : Params) (mtu len m : Half),
    txMax p mtu = min p.bufCap (14 + mtu.toNat) ∧
    (txLenOk p mtu len = true ↔ 1 ≤ len.toNat ∧ len.toNat ≤ txMax p mtu) ∧
    (mtuOk p m = true ↔ 1 ≤ m.toNat ∧ m.toNat ≤ p.bufCap - 14) ∧
    rxMax mtu = 14 + mtu.toNat ∧
    (mtuOk p mtu = true → txMax p mtu = 14 + mtu.toNat)

/-- The receive classifier: each flag on its own, and `good` exactly where there is no error of any kind (R103). -/
def Obligations.ClassifierSetsTheStatusFlags : Prop :=
  ∀ (p : Params) (len mtu : Half) (crcErr otherErr : Bool),
    ((classify p len crcErr otherErr mtu).crc = crcErr ∧
      ((classify p len crcErr otherErr mtu).runt = true ↔ len.toNat < p.runtMin) ∧
      ((classify p len crcErr otherErr mtu).oversize = true ↔ 14 + mtu.toNat < len.toNat) ∧
      (classify p len crcErr otherErr mtu).irqp = true) ∧
    ((classify p len crcErr otherErr mtu).good = true ↔
      crcErr = false ∧ otherErr = false ∧ p.runtMin ≤ len.toNat ∧ len.toNat ≤ 14 + mtu.toNat)

/-- The frame-buffer address decoder: the bytes of every slot's buffer decode to that slot, what decodes to a slot is a
byte of its buffer, and every other address is unmapped (R51, R52). -/
def Obligations.AddressDecoderInvertsTheBufferMap : Prop :=
  ∀ p : Params, p.Ok →
    (∀ r i k, i < p.card r → k < p.bufCap →
      p.base r + i * p.bufCap + k < 2 ^ 32 ∧ decodeAddr p (p.base r + i * p.bufCap + k) = .buf r i k) ∧
    (∀ a r i k, decodeAddr p a = .buf r i k →
      i < p.card r ∧ k < p.bufCap ∧ a = p.base r + i * p.bufCap + k) ∧
    (∀ a, decodeAddr p a = .unmapped ↔ ∀ r, a < p.base r ∨ p.base r + p.card r * p.bufCap ≤ a)

/-! ### Transmit -/

/-- TRANSMIT, each result in the order of its checks: the phase, the length, BUSY, and the hand-off with the bytes it
stores and every byte it does not (R120). -/
def Obligations.TransmitHandsOffOneFrame : Prop :=
  ∀ (len : Half) (frame : List Byte) (s : State),
    (s.phase = .uninit → exec (.transmit len frame) s = .next (raise s (0x3000#16 ++ len) .errNotInit)) ∧
    (s.phase = .fatal → exec (.transmit len frame) s = .next (raise s (0x3000#16 ++ len) .errFatal)) ∧
    (s.phase = .ready →
      ¬(frame.length = len.toNat ∧ 1 ≤ len.toNat ∧ len.toNat ≤ min s.cfg.bufCap (14 + s.mtu.toNat)) →
      exec (.transmit len frame) s = .next (raise s (0x3000#16 ++ len) .errLen)) ∧
    (s.phase = .ready →
      frame.length = len.toNat → 1 ≤ len.toNat → len.toNat ≤ min s.cfg.bufCap (14 + s.mtu.toNat) →
      ∀ d, s.descs.tx[s.cur.tx]? = some d →
        (d.own = .controllerOwned → exec (.transmit len frame) s = .next (raise s (0x3000#16 ++ len) .busy)) ∧
        (d.own = .hostOwned → s.Invariant → ∃ m,
          exec (.transmit len frame) s = .next (finish { s with
              mem := m
              descs := s.descs.set .tx (s.descs.tx.set s.cur.tx { d with len := len, own := .controllerOwned })
              cur := s.cur.set .tx ((s.cur.tx + 1) % s.cfg.nTx)
              kick := true } (0x3000#16 ++ len) .ok (BitVec.ofNat 32 s.cur.tx) []) ∧
            (∀ j, (hj : j < frame.length) → Memory.read m (d.addr.toNat + j) = some frame[j]) ∧
            (∀ a, a < d.addr.toNat ∨ d.addr.toNat + len.toNat ≤ a → Memory.read m a = Memory.read s.mem a)))

/-- No TRANSMIT writes a descriptor that is ControllerOwned when it starts; an OK one moves `cur[TX]` by exactly 1, and
any other changes nothing but the record of its result: no counter counts it and no copy of the frame is kept (R122). -/
def Obligations.TransmitWritesOnlyAHostOwnedSlot : Prop :=
  ∀ (len : Half) (frame : List Byte) (s t : State), exec (.transmit len frame) s = .next t →
    (∀ (j : Nat) (d : Desc), s.descs.tx[j]? = some d → d.own = .controllerOwned → t.descs.tx[j]? = some d) ∧
    (t.results.getLast?.map (fun e => e.result.code) = some .ok →
      t.cur = s.cur.set .tx (advance s.cfg .tx s.cur.tx)) ∧
    (t.results.getLast?.map (fun e => e.result.code) ≠ some .ok →
      t = { s with results := t.results, pc := t.pc, ipc := t.ipc })

/-- A slot handed to the controller stays as it is, descriptor and buffer, whatever instruction but TX_DONE and INIT
runs, and across the steps of a DRAIN (R121). -/
def Obligations.HandOffIsIrreversible : Prop :=
  ∀ (s t : State) (j : Nat) (d : Desc), s.Invariant → s.descs.tx[j]? = some d → d.own = .controllerOwned →
    ((∃ i : Instr, i.wellFormed = true ∧ i ≠ .txDone ∧ i ≠ .init ∧ exec i s = .next t) ∨
      (∃ k, drainStep k s = .next t) ∨ (∃ k, drainAck k s = .next t)) →
    t.descs.tx[j]? = some d ∧
      ∀ k < s.cfg.bufCap, Memory.read t.mem (d.addr.toNat + k) = Memory.read s.mem (d.addr.toNat + k)

/-! ### Receive and drain -/

/-- RECEIVE, one clause for each way a pass can go: the phases, nothing available, a good slot with a buffer (the frame,
its value, the slot recycled), and the two discards, after which RECEIVE goes on as from the state they leave (R130). -/
def Obligations.ReceiveTakesTheNextGoodFrame : Prop :=
  ∀ s : State,
    (s.phase = .uninit → exec .receive s = .next (raise s 0x40000000#32 .errNotInit)) ∧
    (s.phase = .fatal → exec .receive s = .next (raise s 0x40000000#32 .errFatal)) ∧
    (s.phase = .ready → ∀ d, s.descs.rx[s.cur.rx]? = some d →
      (d.own = .controllerOwned → exec .receive s = .next (finish s 0x40000000#32 .empty 0#32 [])) ∧
      (d.own = .hostOwned → d.st.good = false →
        exec .receive s = exec .receive { s with
          cntErr := s.cntErr + 1
          descs := s.descs.set .rx (s.descs.rx.set s.cur.rx { d with own := .controllerOwned })
          cur := s.cur.set .rx ((s.cur.rx + 1) % s.cfg.nRx) }) ∧
      (d.own = .hostOwned → d.st.good = true → (drawAlloc s).1 = false →
        exec .receive s = exec .receive { (drawAlloc s).2 with
          cntNobuf := s.cntNobuf + 1
          descs := s.descs.set .rx (s.descs.rx.set s.cur.rx { d with own := .controllerOwned })
          cur := s.cur.set .rx ((s.cur.rx + 1) % s.cfg.nRx) }) ∧
      (d.own = .hostOwned → d.st.good = true → (drawAlloc s).1 = true → s.Invariant → ∃ frame : List Byte,
        frame.length = d.len.toNat ∧
        (∀ j, (hj : j < frame.length) → Memory.read s.mem (d.addr.toNat + j) = some frame[j]) ∧
        exec .receive s = .next (finish { (drawAlloc s).2 with
          descs := s.descs.set .rx (s.descs.rx.set s.cur.rx { d with own := .controllerOwned })
          cur := s.cur.set .rx ((s.cur.rx + 1) % s.cfg.nRx) } 0x40000000#32 .frame
          (d.len.setWidth 32 ||| (BitVec.ofNat 32 s.cur.rx <<< 16)) frame)))

/-- The loop of RECEIVE ends within `N_RX + 1` passes, and RECEIVE answers a next state (R131). That the bound which the
model puts on the loop never ends it is the model's own point (entry 13, DEDUCED). -/
def Obligations.ReceiveEndsWithinTheRing : Prop :=
  ∀ s : State, s.Invariant → s.phase = .ready →
    (∃ r, receiveLoop (s.cfg.nRx + 1) s = .ok r ∧ receiveFrom s = .ok r) ∧ ∃ t, exec .receive s = .next t

/-- After a RECEIVE that returned EMPTY, a RECEIVE with no step between returns EMPTY and changes nothing (R59). -/
def Obligations.EmptyReceiveIsIdempotent : Prop :=
  ∀ s t : State, s.phase = .ready → exec .receive s = .next t →
    t.results.getLast?.map (fun e => e.result.code) = some .empty →
    exec .receive t = .next (finish t 0x40000000#32 .empty 0#32 [])

/-- No per-frame error gives an error code: in READY a RECEIVE ends in FRAME or EMPTY, a DRAIN_STEP records no result,
and what either changes is among the Rx descriptors and cursor, counters, draws, the delivered frames, the DRAIN progress
and the record of a result (R135). -/
def Obligations.PerFrameErrorsStayInsideThePath : Prop :=
  (∀ s t : State, s.phase = .ready → exec .receive s = .next t →
    (t.results.getLast?.map (fun e => e.result.code) = some .frame ∨
      t.results.getLast?.map (fun e => e.result.code) = some .empty) ∧
    t.descs.tx = s.descs.tx ∧ t.cur.tx = s.cur.tx ∧
    t = { s with
      descs := t.descs
      cur := t.cur
      cntErr := t.cntErr
      cntNobuf := t.cntNobuf
      allocDraws := t.allocDraws
      freeCount := t.freeCount
      results := t.results
      pc := t.pc
      ipc := t.ipc }) ∧
  (∀ (k : Nat) (s t : State), s.phase = .ready → drainStep k s = .next t →
    t.descs.tx = s.descs.tx ∧ t.cur.tx = s.cur.tx ∧
    t = { s with
      descs := t.descs
      cur := t.cur
      cntErr := t.cntErr
      cntNobuf := t.cntNobuf
      cntDlverr := t.cntDlverr
      allocDraws := t.allocDraws
      deliverDraws := t.deliverDraws
      freeCount := t.freeCount
      delivered := t.delivered
      drain := t.drain })

/-- DRAIN: its start in each phase; a DRAIN_STEP in FATAL, on EMPTY and on a frame the stack takes or refuses;
DRAIN_ACK; and what the RECEIVE inside a step is: RECEIVE without its phase checks (R132). The recorded count is `k`
where it fits the 32 bits of a result value; for a larger `k` the spec states no value (entry 6). -/
def Obligations.DrainStartsStepsAndAcknowledges : Prop :=
  ∀ (s : State) (k : Nat), ∃ count : Word, (k < 2 ^ 32 → count = BitVec.ofNat 32 k) ∧
    (s.phase = .uninit → exec .drain s = .next (raise s 0x50000000#32 .errNotInit)) ∧
    (s.phase ≠ .uninit → exec .drain s = .next { s with drain := s.drain.set (running s) (.draining 0) }) ∧
    (s.phase = .fatal → drainStep k s = .next (finish { s with
      pend := s.pend.set .rxr false
      drain := s.drain.set (running s) .idle } 0x50000000#32 .errFatal count [])) ∧
    (∀ u, s.phase ≠ .fatal → receiveFrom s = .ok (none, u) →
      drainStep k s = .next { u with drain := u.drain.set (running u) (.acking k) }) ∧
    (∀ v frame u, s.phase ≠ .fatal → receiveFrom s = .ok (some (v, frame), u) →
      ((drawDeliver u).1 = true → drainStep k s = .next { (drawDeliver u).2 with
        delivered := u.delivered ++ [frame]
        drain := u.drain.set (running u) (.draining (k + 1)) }) ∧
      ((drawDeliver u).1 = false → drainStep k s = .next { (drawDeliver u).2 with
        cntDlverr := u.cntDlverr + 1 })) ∧
    drainAck k s = .next (finish { s with
      pend := s.pend.set .rxr false
      drain := s.drain.set (running s) .idle } 0x50000000#32 .ok count []) ∧
    (∀ u, s.phase = .ready → receiveFrom s = .ok (none, u) →
      exec .receive s = .next (finish u 0x40000000#32 .empty 0#32 [])) ∧
    (∀ v frame u, s.phase = .ready → receiveFrom s = .ok (some (v, frame), u) →
      exec .receive s = .next (finish u 0x40000000#32 .frame v frame))

/-- `n` DRAIN_STEPs of the running context, one after another. -/
def Sys2Proof.Machine.drainSteps : Nat → State → Host.Outcome State Fault Refusal
  | 0, s => .next s
  | n + 1, s =>
    match s.drain.get (running s) with
    | .draining k =>
      match drainStep k s with
      | .next t => drainSteps n t
      | .fault f => .fault f
      | .refused r => .refused r
    | .acking _ => .next s
    | .idle => .next s

/-- Draining `n` available good frames with every draw true and no other step between delivers them in ring order, each
exactly once, and leaves every drained slot ControllerOwned (R133). -/
def Obligations.DrainDeliversInRingOrder : Prop :=
  ∀ (n k : Nat) (s : State) (allocs delivers : List Bool), s.Invariant → s.phase = .ready →
    s.drain.get (running s) = .draining k → n ≤ countOwn s.descs.rx .hostOwned →
    (∀ j < n, ∀ d ∈ s.descs.rx[(s.cur.rx + j) % s.cfg.nRx]?, d.st.good = true) →
    s.allocDraws = List.replicate n true ++ allocs → s.deliverDraws = List.replicate n true ++ delivers →
    ∃ t, drainSteps n s = .next t ∧
      t.delivered.map some = s.delivered.map some ++ (rxQueue s).take n ∧
      rxQueue t = (rxQueue s).drop n ∧
      t.drain.get (running t) = .draining (k + n) ∧
      ∀ j < n, t.descs.rx[(s.cur.rx + j) % s.cfg.nRx]?.map (fun d => d.own) = some .controllerOwned

/-- The lost receive-ready notification: an RX_FRAME that stores its frame while a DRAIN is about to acknowledge sets
`pend[RXR]`, the DRAIN_ACK clears it, and the frame's slot stays HostOwned (R235). -/
def Obligations.LostNotificationRace : Prop :=
  ∀ (len : Half) (crcErr otherErr : Bool) (bytes : List Byte) (s t u : State) (d : Desc) (k : Nat),
    s.phase = .ready → s.rxEn = true → s.descs.rx[s.ccur.rx]? = some d → d.own = .controllerOwned →
    s.drain.get (running s) = .acking k → exec (.rxFrame len crcErr otherErr bytes) s = .next t →
    drainAck k t = .next u →
    t.pend.rxr = true ∧ u.pend.rxr = false ∧
      u.descs.rx[s.ccur.rx]?.map (fun e => e.own) = some .hostOwned

/-- ACK_RX clears `pend[RXR]` in every phase and touches no descriptor (R134). -/
def Obligations.AckRxClearsReceiveReady : Prop :=
  ∀ s : State, exec .ackRx s = .next (finish { s with pend := ⟨s.pend.txc, false⟩ } 0x60000000#32 .ok 0#32 [])

/-! ### Interface and read-out -/

/-- IF_UP, each result in the order of its checks: the phase, the payload, the MTU, the one-time bring-up, and the
handle with the enables (R150). -/
def Obligations.IfUpBringsTheInterfaceUp : Prop :=
  ∀ (mtu m : Half) (payload : List Byte) (s : State), m = (if mtu = 0#16 then 1500#16 else mtu) →
    (s.phase = .uninit → exec (.ifUp mtu payload) s = .next (raise s (0x2000#16 ++ mtu) .errNotInit)) ∧
    (s.phase = .fatal → exec (.ifUp mtu payload) s = .next (raise s (0x2000#16 ++ mtu) .errFatal)) ∧
    (s.phase = .ready → payload.length ≠ 6 →
      exec (.ifUp mtu payload) s = .next (raise s (0x2000#16 ++ mtu) .errLen)) ∧
    (s.phase = .ready → payload.length = 6 → ¬(1 ≤ m.toNat ∧ m.toNat ≤ s.cfg.bufCap - 14) →
      exec (.ifUp mtu payload) s = .next (raise s (0x2000#16 ++ mtu) .errMtu)) ∧
    (s.phase = .ready → payload.length = 6 → 1 ≤ m.toNat → m.toNat ≤ s.cfg.bufCap - 14 → s.ifcfg = true →
      exec (.ifUp mtu payload) s = .next (raise s (0x2000#16 ++ mtu) .errState)) ∧
    (s.phase = .ready → payload.length = 6 → 1 ≤ m.toNat → m.toNat ≤ s.cfg.bufCap - 14 → s.ifcfg = false →
      ∃ h : HwAddr, hwAddrBytes h = payload ∧
        exec (.ifUp mtu payload) s = .next (finish { s with
          hwaddr := h
          mtu := m
          fBcast := true
          fEtharp := true
          fEther := true
          txEn := true
          rxEn := true
          ie := ⟨true, true⟩
          ifcfg := true } (0x2000#16 ++ mtu) .ok (m.setWidth 32) []))

/-- LINK_POLL copies `phy_link` to `link_up` and returns it, in every phase (R151). -/
def Obligations.LinkPollCopiesThePhyLink : Prop :=
  ∀ s : State, exec .linkPoll s =
    .next (finish { s with linkUp := s.phyLink } 0x80000000#32 .ok (if s.phyLink then 1#32 else 0#32) [])

/-- GET_STATUS returns the STATUS word and writes nothing; the word's fields are those of the table (R152, R79). -/
def Obligations.GetStatusReadsTheStatusWord : Prop :=
  ∀ s : State, ∃ w : Word, exec .getStatus s = .next (finish s 0x90000000#32 .ok w []) ∧
    w.extractLsb' 0 2 = (match s.phase with | .uninit => 0#2 | .ready => 1#2 | .fatal => 2#2) ∧
    w.getLsbD 2 = s.pend.txc ∧ w.getLsbD 3 = s.pend.rxr ∧ w.getLsbD 4 = s.ie.txc ∧ w.getLsbD 5 = s.ie.rxr ∧
    w.getLsbD 6 = s.act.txc ∧ w.getLsbD 7 = s.act.rxr ∧ w.getLsbD 8 = s.txEn ∧ w.getLsbD 9 = s.rxEn ∧
    w.getLsbD 10 = s.kick ∧ w.getLsbD 11 = s.linkUp ∧ w.getLsbD 12 = s.ifcfg ∧ w.extractLsb' 13 3 = 0#3 ∧
    w.extractLsb' 16 8 = BitVec.ofNat 8 s.cur.tx ∧ w.extractLsb' 24 8 = BitVec.ofNat 8 s.cur.rx

/-- GET_IFINFO returns the IFINFO word and the address in transmission order, and writes nothing; the word's fields are
those of the table (R153, R80). -/
def Obligations.GetIfinfoReadsTheHandle : Prop :=
  ∀ s : State, ∃ w : Word,
    exec .getIfinfo s = .next (finish s 0xA0000000#32 .ok w
      [s.hwaddr.b0, s.hwaddr.b1, s.hwaddr.b2, s.hwaddr.b3, s.hwaddr.b4, s.hwaddr.b5]) ∧
    w.extractLsb' 0 16 = s.mtu ∧ w.getLsbD 16 = s.fBcast ∧ w.getLsbD 17 = s.fEtharp ∧ w.getLsbD 18 = s.fEther ∧
    w.getLsbD 19 = s.linkUp ∧ w.getLsbD 20 = s.ifcfg ∧ w.extractLsb' 21 11 = 0#11

/-- GET_COUNTERS returns the selected counter and writes nothing (R154, R81). -/
def Obligations.GetCountersReadsTheSelectedCounter : Prop :=
  ∀ s : State,
    exec (.getCounters .err) s = .next (finish s 0xD0000000#32 .ok s.cntErr []) ∧
    exec (.getCounters .nobuf) s = .next (finish s 0xD0000001#32 .ok s.cntNobuf []) ∧
    exec (.getCounters .miss) s = .next (finish s 0xD0000002#32 .ok s.cntMiss []) ∧
    exec (.getCounters .dlverr) s = .next (finish s 0xD0000003#32 .ok s.cntDlverr [])

/-- GET_DESC, each result in the order of its checks, and nothing written (R155). For a HostOwned slot the word is the
rule's own sum of shifted fields. For a ControllerOwned slot the statement says bit 31 and the reserved bits (R82) only:
`len` and `st` are stale there and no claim may depend on them (93_implementation_defined item 23, entry 7). -/
def Obligations.GetDescReadsOneDescriptor : Prop :=
  ∀ (r : Ring) (idx : Byte) (s : State),
    (s.phase = .uninit → exec (.getDesc r idx) s = .next (raise s (encodeWord (.getDesc r idx)) .errNotInit)) ∧
    (s.phase ≠ .uninit → s.cfg.card r ≤ idx.toNat →
      exec (.getDesc r idx) s = .next (raise s (encodeWord (.getDesc r idx)) .errRange)) ∧
    (∀ d, s.phase ≠ .uninit → idx.toNat < s.cfg.card r → (s.descs.get r)[idx.toNat]? = some d →
      (d.own = .hostOwned → exec (.getDesc r idx) s = .next (finish s (encodeWord (.getDesc r idx)) .ok
        ((if d.st.runt then 1#32 else 0#32) <<< 22
          ||| (if d.st.good then 1#32 else 0#32) <<< 20
          ||| (if d.st.oversize then 1#32 else 0#32) <<< 19
          ||| (if d.st.crc then 1#32 else 0#32) <<< 17
          ||| (if d.st.irqp then 1#32 else 0#32) <<< 16
          ||| d.len.setWidth 32) [])) ∧
      (d.own = .controllerOwned → ∃ w : Word,
        exec (.getDesc r idx) s = .next (finish s (encodeWord (.getDesc r idx)) .ok w []) ∧
          w.getLsbD 31 = true ∧ w.extractLsb' 23 8 = 0#8 ∧ w.getLsbD 21 = false ∧ w.getLsbD 18 = false))

/-! ### Controller port -/

/-- TX_DONE: ignored unless it is enabled; else the frame goes on the wire, the slot is given back with `irqp` alone, the
controller cursor moves on, the doorbell is cleared where the next slot is HostOwned, and `pend[TXC]` is set (R170). -/
def Obligations.TxDoneGivesTheSlotBack : Prop :=
  ∀ s : State,
    (¬(s.phase = .ready ∧ s.txEn = true ∧ s.kick = true) → exec .txDone s = .next s) ∧
    (s.phase = .ready → s.txEn = true → s.kick = true → ∀ d, s.descs.tx[s.ccur.tx]? = some d →
      (d.own = .hostOwned → exec .txDone s = .next s) ∧
      (d.own = .controllerOwned → s.Invariant → ∃ (frame : List Byte) (ring : List Desc),
        frame.length = d.len.toNat ∧
        (∀ j, (hj : j < frame.length) → Memory.read s.mem (d.addr.toNat + j) = some frame[j]) ∧
        ring = s.descs.tx.set s.ccur.tx { d with st := ⟨false, false, false, false, true⟩, own := .hostOwned } ∧
        exec .txDone s = .next { s with
          wireOut := s.wireOut ++ [frame]
          descs := s.descs.set .tx ring
          ccur := s.ccur.set .tx ((s.ccur.tx + 1) % s.cfg.nTx)
          kick := decide (ring[(s.ccur.tx + 1) % s.cfg.nTx]?.map (fun e => e.own) = some .controllerOwned)
          pend := ⟨true, s.pend.rxr⟩ }))

/-- RX_FRAME: ignored unless it is enabled; dropped and counted where the slot is HostOwned; else stored, truncated to the
buffer, classified with the MTU in force and handed over, with every byte it stores and every byte it does not
(R171). -/
def Obligations.RxFrameStoresOrDropsTheFrame : Prop :=
  ∀ (len : Half) (crcErr otherErr : Bool) (bytes : List Byte) (s : State), bytes.length = len.toNat →
    (¬(s.phase = .ready ∧ s.rxEn = true) → exec (.rxFrame len crcErr otherErr bytes) s = .next s) ∧
    (s.phase = .ready → s.rxEn = true → ∀ d, s.descs.rx[s.ccur.rx]? = some d →
      (d.own = .hostOwned →
        exec (.rxFrame len crcErr otherErr bytes) s = .next { s with cntMiss := s.cntMiss + 1 }) ∧
      (d.own = .controllerOwned → s.Invariant → ∃ m,
        exec (.rxFrame len crcErr otherErr bytes) s = .next { s with
          mem := m
          descs := s.descs.set .rx (s.descs.rx.set s.ccur.rx
            { d with
              len := BitVec.ofNat 16 (min len.toNat s.cfg.bufCap)
              st := classify s.cfg len crcErr otherErr s.mtu
              own := .hostOwned })
          ccur := s.ccur.set .rx ((s.ccur.rx + 1) % s.cfg.nRx)
          pend := ⟨s.pend.txc, true⟩ } ∧
        (∀ j, (hj : j < bytes.length) → j < s.cfg.bufCap → Memory.read m (d.addr.toNat + j) = some bytes[j]) ∧
        (∀ a, a < d.addr.toNat ∨ d.addr.toNat + min len.toNat s.cfg.bufCap ≤ a →
          Memory.read m a = Memory.read s.mem a)))

/-- RX_BERR in READY enters FATAL and sets `pend[RXR]`; at any other time it is ignored (R172). -/
def Obligations.RxBerrEntersFatal : Prop :=
  ∀ s : State,
    (s.phase = .ready → exec .rxBerr s = .next { s with phase := .fatal, pend := ⟨s.pend.txc, true⟩ }) ∧
    (s.phase ≠ .ready → exec .rxBerr s = .next s)

/-- PHY_LINK writes `phy_link`, in every phase, and nothing else (R173). -/
def Obligations.PhyLinkWritesTheLinkBit : Prop :=
  ∀ (v : Bool) (s : State), exec (.phyLink v) s = .next { s with phyLink := v }

/-- The controller's events leave every HostOwned slot as it is, descriptor and buffer (R175). -/
def Obligations.ControllerNeverWritesAHostOwnedSlot : Prop :=
  ∀ (i : Instr) (s t : State) (r : Ring) (j : Nat) (d : Desc), s.Invariant → i.wellFormed = true →
    i.port = .controller → exec i s = .next t → (s.descs.get r)[j]? = some d → d.own = .hostOwned →
    (t.descs.get r)[j]? = some d ∧
      ∀ k < s.cfg.bufCap, Memory.read t.mem (d.addr.toNat + k) = Memory.read s.mem (d.addr.toNat + k)

/-! ### Completion -/

/-- ACK_TX clears `pend[TXC]` in every phase and changes no descriptor (R190). -/
def Obligations.AckTxClearsTransmitComplete : Prop :=
  ∀ s : State, exec .ackTx s = .next (finish { s with pend := ⟨false, s.pend.rxr⟩ } 0x70000000#32 .ok 0#32 [])

/-- IRQ_MASK writes both enables in every phase, and neither `pend` nor `act` (R191). -/
def Obligations.IrqMaskWritesBothEnables : Prop :=
  ∀ (tx rx : Bool) (s : State), exec (.irqMask tx rx) s =
    .next (finish { s with ie := ⟨tx, rx⟩ }
      (0xB0000000#32 ||| (if rx then 2#32 else 0#32) ||| (if tx then 1#32 else 0#32)) .ok 0#32 [])

/-- EOI of the source in service whose handler is running ends the handler: the result is recorded for the handler's
context, `act` is cleared and the context popped; any other EOI gives ERR_STATE (R192). -/
def Obligations.EoiEndsTheRunningHandler : Prop :=
  ∀ (src : Source) (s t : State) (w : Word), w = (match src with | .txc => 0xC0000000#32 | .rxr => 0xC0000001#32) →
    (s.act.get src = true → s.ctxStack.head? = some (match src with | .txc => Ctx.isrTx | .rxr => Ctx.isrRx) →
      t = finish s w .ok 0#32 [] →
      exec (.eoi src) s = .next { t with act := s.act.set src false, ctxStack := s.ctxStack.tail }) ∧
    (¬(s.act.get src = true ∧ s.ctxStack.head? = some (match src with | .txc => Ctx.isrTx | .rxr => Ctx.isrRx)) →
      exec (.eoi src) s = .next (raise s w .errState))

/-! ### The whole block -/

/-- Which fields an instruction can write: each field has the writers its rule names, and every other instruction leaves
it as it is (R24, R25, R27 to R33, R38). -/
def Obligations.OnlyTheNamedInstructionsWriteEachField : Prop :=
  ∀ (i : Instr) (s t : State), exec i s = .next t →
    (t.cfg = s.cfg ∧ t.prog = s.prog ∧ t.sched = s.sched ∧ t.delivered = s.delivered) ∧
    (i ≠ .init → i ≠ .rxBerr → t.phase = s.phase) ∧
    ((∀ m p, i ≠ .ifUp m p) → t.hwaddr = s.hwaddr ∧ t.mtu = s.mtu ∧ t.fBcast = s.fBcast ∧ t.fEtharp = s.fEtharp ∧
      t.fEther = s.fEther) ∧
    (i ≠ .init → (∀ m p, i ≠ .ifUp m p) → t.txEn = s.txEn ∧ t.rxEn = s.rxEn ∧ t.ifcfg = s.ifcfg) ∧
    (i ≠ .init → (∀ m p, i ≠ .ifUp m p) → (∀ a b, i ≠ .irqMask a b) → t.ie = s.ie) ∧
    (i ≠ .linkPoll → t.linkUp = s.linkUp) ∧
    ((∀ v, i ≠ .phyLink v) → t.phyLink = s.phyLink) ∧
    ((∀ src, i ≠ .eoi src) → t.act = s.act ∧ t.ctxStack = s.ctxStack) ∧
    (i ≠ .drain → t.drain = s.drain) ∧
    (i ≠ .init → (∀ l f, i ≠ .transmit l f) → i ≠ .txDone → t.kick = s.kick) ∧
    (i ≠ .init → i ≠ .txDone → i ≠ .ackTx → t.pend.txc = s.pend.txc) ∧
    (i ≠ .init → (∀ l c o b, i ≠ .rxFrame l c o b) → i ≠ .rxBerr → i ≠ .ackRx → t.pend.rxr = s.pend.rxr) ∧
    (i ≠ .init → (∀ l f, i ≠ .transmit l f) → i ≠ .receive → t.cur = s.cur) ∧
    (i ≠ .init → i ≠ .txDone → (∀ l c o b, i ≠ .rxFrame l c o b) → t.ccur = s.ccur) ∧
    (i ≠ .init → (∀ l f, i ≠ .transmit l f) → i ≠ .receive → i ≠ .txDone → (∀ l c o b, i ≠ .rxFrame l c o b) →
      t.descs = s.descs) ∧
    ((∀ l f, i ≠ .transmit l f) → (∀ l c o b, i ≠ .rxFrame l c o b) → t.mem = s.mem) ∧
    (i ≠ .init → i ≠ .receive → t.cntErr = s.cntErr ∧ t.cntNobuf = s.cntNobuf) ∧
    (i ≠ .init → (∀ l c o b, i ≠ .rxFrame l c o b) → t.cntMiss = s.cntMiss) ∧
    (i ≠ .init → t.cntDlverr = s.cntDlverr) ∧
    (i ≠ .txDone → t.wireOut = s.wireOut) ∧
    (i.port = .controller → t.results = s.results ∧ t.pc = s.pc ∧ t.ipc = s.ipc)

/-- Nothing removes from a trace, and no step writes the parameters or the program (R33, R4, R65). -/
def Obligations.TracesOnlyGrow : Prop :=
  ∀ s t : State, step s = .next t →
    s.wireOut <+: t.wireOut ∧ s.delivered <+: t.delivered ∧ s.results <+: t.results ∧
      t.cfg = s.cfg ∧ t.prog = s.prog

/-- In FATAL the ring commands give ERR_FATAL and change nothing else, DRAIN ends with the notification cleared, the
controller's ring events do nothing, and only INIT leaves the phase (R211). -/
def Obligations.OnlyInitLeavesFatal : Prop :=
  ∀ s : State, s.phase = .fatal →
    (∀ len frame, exec (.transmit len frame) s =
      .next (raise s (encodeWord (.transmit len frame)) .errFatal)) ∧
    exec .receive s = .next (raise s 0x40000000#32 .errFatal) ∧
    (∀ mtu payload, exec (.ifUp mtu payload) s = .next (raise s (encodeWord (.ifUp mtu payload)) .errFatal)) ∧
    exec .drain s = .next { s with drain := s.drain.set (running s) (.draining 0) } ∧
    (∀ k t, drainStep k s = .next t → t.pend.rxr = false ∧ t.drain.get (running t) = .idle ∧ t.phase = .fatal ∧
      t.results.getLast?.map (fun e => e.result.code) = some .errFatal) ∧
    exec .txDone s = .next s ∧ exec .rxBerr s = .next s ∧
    (∀ len crcErr otherErr bytes, exec (.rxFrame len crcErr otherErr bytes) s = .next s) ∧
    (∀ i t, i ≠ .init → exec i s = .next t → t.phase = .fatal) ∧
    ((s.cfg.nTx + s.cfg.nRx) * s.cfg.bufCap ≤ s.cfg.poolBytes → ∃ t, exec .init s = .next t ∧ t.phase = .ready)

/-- In READY and FATAL the ControllerOwned Tx slots are exactly `ccur, ..., ccur + k - 1`, `cur = ccur + k`, and the slot
at the cursor is HostOwned exactly where the ring is not full (R35). -/
def Obligations.TxRingIsOneRun : Prop :=
  ∀ s : State, s.Invariant → s.phase ≠ .uninit →
    (∀ i < s.cfg.nTx, (s.descs.tx[i]?.map (fun d => d.own) = some .controllerOwned ↔
      ∃ j < countOwn s.descs.tx .controllerOwned, i = (s.ccur.tx + j) % s.cfg.nTx)) ∧
    s.cur.tx = (s.ccur.tx + countOwn s.descs.tx .controllerOwned) % s.cfg.nTx ∧
    (s.descs.tx[s.cur.tx]?.map (fun d => d.own) = some .hostOwned ↔
      countOwn s.descs.tx .controllerOwned < s.cfg.nTx) ∧
    (s.descs.tx[s.cur.tx]?.map (fun d => d.own) = some .controllerOwned ↔
      ∀ d ∈ s.descs.tx, d.own = .controllerOwned)

/-- In READY and FATAL the HostOwned Rx slots are exactly `cur, ..., cur + h - 1` and `ccur = cur + h` (R36). -/
def Obligations.RxRingIsOneRun : Prop :=
  ∀ s : State, s.Invariant → s.phase ≠ .uninit →
    (∀ i < s.cfg.nRx, (s.descs.rx[i]?.map (fun d => d.own) = some .hostOwned ↔
      ∃ j < countOwn s.descs.rx .hostOwned, i = (s.cur.rx + j) % s.cfg.nRx)) ∧
    s.ccur.rx = (s.cur.rx + countOwn s.descs.rx .hostOwned) % s.cfg.nRx

/-- The Tx ring is a FIFO queue of frames: an OK TRANSMIT appends its frame, a TX_DONE that is taken puts the oldest on
the wire, and no other instruction but INIT, and no step of a DRAIN, changes the queue or the wire (R67). -/
def Obligations.TxRingIsAFifoQueue : Prop :=
  ∀ s t : State, s.Invariant → s.phase ≠ .uninit →
    (∀ len frame, exec (.transmit len frame) s = .next t →
      t.results.getLast?.map (fun e => e.result.code) = some .ok →
      txQueue t = txQueue s ++ [some frame] ∧ t.wireOut = s.wireOut) ∧
    (∀ len frame, exec (.transmit len frame) s = .next t →
      t.results.getLast?.map (fun e => e.result.code) ≠ some .ok → txQueue t = txQueue s ∧ t.wireOut = s.wireOut) ∧
    (exec .txDone s = .next t →
      t = s ∨ ∃ frame, txQueue s = some frame :: txQueue t ∧ t.wireOut = s.wireOut ++ [frame]) ∧
    (∀ i : Instr, i.wellFormed = true → i ≠ .init → i ≠ .txDone → (∀ l f, i ≠ .transmit l f) → exec i s = .next t →
      txQueue t = txQueue s ∧ t.wireOut = s.wireOut) ∧
    (∀ k, drainStep k s = .next t → txQueue t = txQueue s ∧ t.wireOut = s.wireOut)

/-- The Rx ring is a FIFO queue of frames: an RX_FRAME that is stored appends its bytes as far as they fit the buffer, a
RECEIVE that returns a frame takes it out after the discarded ones before it, one that returns EMPTY leaves nothing, and
no other instruction but INIT changes the queue (R67). -/
def Obligations.RxRingIsAFifoQueue : Prop :=
  ∀ s t : State, s.Invariant → s.phase = .ready →
    (∀ len crcErr otherErr bytes, bytes.length = len.toNat →
      exec (.rxFrame len crcErr otherErr bytes) s = .next t →
      (t.ccur = s.ccur ∧ rxQueue t = rxQueue s) ∨ rxQueue t = rxQueue s ++ [some (bytes.take s.cfg.bufCap)]) ∧
    (exec .receive s = .next t →
      (t.results.getLast?.map (fun e => e.result.code) = some .empty ∧ rxQueue t = []) ∨
      ∃ e n, t.results.getLast? = some e ∧ e.result.code = .frame ∧
        (rxQueue s).drop n = some e.result.payload :: rxQueue t) ∧
    (∀ i : Instr, i ≠ .init → i ≠ .receive → (∀ l c o b, i ≠ .rxFrame l c o b) → exec i s = .next t →
      rxQueue t = rxQueue s)

/-- The invariant holds after power-on reset, with the default parameters and with any that meet R5. -/
def Obligations.InvariantHoldsAtReset : Prop :=
  (State.reset.Invariant ∧ HandlerLaw State.reset) ∧
    ∀ p : Params, p.Ok → (State.resetWith p).Invariant ∧ HandlerLaw (State.resetWith p)

/-- Every step keeps the invariant: the parameters stay legal, memory canonical, the MTU acceptable, the context stack
and `act` in step, and the rings in their runs with their descriptors, buffers and doorbell (R22, R26, R32, R35, R36,
R102, R170). -/
def Obligations.EveryStepKeepsTheInvariant : Prop :=
  ∀ s t : State, s.Invariant → step s = .next t → t.Invariant

/-- From a state that meets the invariant every step answers a next state: the two faults of R41 and R53 cannot be
reached, and nothing is refused. -/
def Obligations.EveryStepAnswersANextState : Prop :=
  ∀ s : State, s.Invariant → ∃ t, step s = .next t

/-- Every step keeps each handler on the context stack inside its fixed body (R207, R32). -/
def Obligations.HandlersStayInTheirBodies : Prop :=
  ∀ s t : State, s.Invariant → HandlerLaw s → step s = .next t → HandlerLaw t

/-- The context stack is at most three deep and no source nests in itself (R209, R32). -/
def Obligations.NestingIsAtMostThreeDeep : Prop :=
  ∀ s t : State, s.Invariant → step s = .next t →
    t.ctxStack.length ≤ 3 ∧ t.ctxStack.Nodup ∧
      ∀ src, s.act.get src = true → canEnter s src = false
end

