-- ==== Sys2Proof/Laws/Memory.lean ====
section
/-!
SUPPORT. The laws of memory: a read after a write, that every memory operation keeps the canonical form, and everything
`memRead` and `memWrite` can do.
-/

namespace Sys2Proof.Machine

@[simp] theorem Memory.read_write_same (m : List Host.Cell) (x : Nat) (v : Byte) :
    Memory.read (Memory.write m x v) x = some v := by
  induction m with
  | nil => simp [Memory.write, Memory.read]
  | cons c m ih =>
    obtain ⟨a, b⟩ := c
    by_cases h1 : x < a
    · simp [Memory.write, h1, Memory.read]
    · by_cases h2 : x = a
      · simp [Memory.write, h2, Memory.read]
      · simp [Memory.write, h1, h2, Memory.read, ih]

theorem Memory.read_write_ne (m : List Host.Cell) {x y : Nat} (v : Byte) (h : y ≠ x) :
    Memory.read (Memory.write m x v) y = Memory.read m y := by
  induction m with
  | nil => simp [Memory.write, Memory.read, h]
  | cons c m ih =>
    obtain ⟨a, b⟩ := c
    by_cases h1 : x < a
    · simp [Memory.write, h1, Memory.read, h]
    · by_cases h2 : x = a
      · subst h2; simp [Memory.write, Memory.read, h]
      · simp [Memory.write, h1, h2, Memory.read, ih]

/-- The addresses a write leaves are the old ones and the written one. -/
theorem Memory.addr_of_write {m : List Host.Cell} {x y : Nat} {v : Byte}
    (h : y ∈ (Memory.write m x v).map Prod.fst) : y = x ∨ y ∈ m.map Prod.fst := by
  induction m with
  | nil => simpa [Memory.write] using h
  | cons c m ih =>
    obtain ⟨a, b⟩ := c
    unfold Memory.write at h
    split at h
    · simpa using h
    · split at h
      · rename_i h2
        subst h2
        simp only [List.map_cons, List.mem_cons] at h ⊢
        tauto
      · simp only [List.map_cons, List.mem_cons] at h ⊢
        rcases h with h | h
        · tauto
        · have := ih h
          tauto

/-- A write keeps the canonical form. -/
theorem Memory.write_wf {m : List Host.Cell} (x : Nat) (v : Byte) (h : Memory.wf m) :
    Memory.wf (Memory.write m x v) := by
  induction m with
  | nil => simp [Memory.write, Memory.wf]
  | cons c m ih =>
    obtain ⟨a, b⟩ := c
    simp only [Memory.wf, List.map_cons, List.pairwise_cons] at h
    unfold Memory.write
    split
    · rename_i h1
      simp only [Memory.wf, List.map_cons, List.pairwise_cons, List.mem_cons]
      refine ⟨?_, h⟩
      rintro y (rfl | hy)
      · exact h1
      · exact lt_trans h1 (h.1 y hy)
    · split
      · rename_i h2
        subst h2
        simpa [Memory.wf] using h
      · rename_i h1 h2
        simp only [Memory.wf, List.map_cons, List.pairwise_cons]
        refine ⟨fun y hy => ?_, ih h.2⟩
        rcases Memory.addr_of_write hy with rfl | hy
        · omega
        · exact h.1 y hy

/-- A write only adds written bytes. -/
theorem Memory.isSome_write {m : List Host.Cell} {y : Nat} (x : Nat) (v : Byte)
    (h : (Memory.read m y).isSome) : (Memory.read (Memory.write m x v) y).isSome := by
  by_cases hxy : y = x
  · subst hxy; simp
  · rwa [Memory.read_write_ne m v hxy]

/-- Everything a slot write does where every address is in the slot: it succeeds, the bytes are there, no other byte
changes, and the canonical form is kept (R53, R54). -/
theorem memWrite_ok {p : Params} {r : Ring} {i : Nat} (bs : List Byte) {m : List Host.Cell} {a : Nat}
    (h : ∀ j < bs.length, inSlot p r i (a + j) = true) :
    ∃ m', memWrite p r i m a bs = .ok m' ∧ (∀ j, (hj : j < bs.length) → Memory.read m' (a + j) = some bs[j]) ∧
      (∀ x, x < a ∨ a + bs.length ≤ x → Memory.read m' x = Memory.read m x) ∧
      (Memory.wf m → Memory.wf m') := by
  induction bs generalizing m a with
  | nil => exact ⟨m, rfl, by simp, by simp, id⟩
  | cons b bs ih =>
    have h0 : inSlot p r i a = true := by simpa using h 0 (by simp)
    obtain ⟨m', he, hr, hf, hw⟩ := ih (m := Memory.write m a b) (a := a + 1) (fun j hj => by
      have := h (j + 1) (by simpa using hj)
      rwa [show a + 1 + j = a + (j + 1) by omega])
    refine ⟨m', by simp [memWrite, h0, he], ?_, ?_, fun hm => hw (Memory.write_wf a b hm)⟩
    · intro j hj
      cases j with
      | zero =>
        rw [hf (a + 0) (by omega)]
        simp
      | succ j =>
        have := hr j (by simpa using hj)
        rw [show a + (j + 1) = a + 1 + j by omega]
        simpa using this
    · intro x hx
      simp only [List.length_cons] at hx
      rw [hf x (by omega), Memory.read_write_ne m b (by omega)]

/-- A slot write that succeeds kept every address in the slot (R53). -/
theorem memWrite_inSlot {p : Params} {r : Ring} {i : Nat} {bs : List Byte} {m m' : List Host.Cell} {a : Nat}
    (h : memWrite p r i m a bs = .ok m') : ∀ j < bs.length, inSlot p r i (a + j) = true := by
  induction bs generalizing m a with
  | nil => simp
  | cons b bs ih =>
    unfold memWrite at h
    split at h
    · rename_i h0
      intro j hj
      cases j with
      | zero => simpa using h0
      | succ j =>
        have := ih h j (by simpa using hj)
        rwa [show a + (j + 1) = a + 1 + j by omega]
    · cases h

/-- What a slot write that succeeds has done (R53, R54). -/
theorem memWrite_spec {p : Params} {r : Ring} {i : Nat} {bs : List Byte} {m m' : List Host.Cell} {a : Nat}
    (h : memWrite p r i m a bs = .ok m') :
    (∀ j, (hj : j < bs.length) → Memory.read m' (a + j) = some bs[j]) ∧
      (∀ x, x < a ∨ a + bs.length ≤ x → Memory.read m' x = Memory.read m x) ∧
      (Memory.wf m → Memory.wf m') := by
  obtain ⟨m'', he, hs⟩ := memWrite_ok (m := m) bs (memWrite_inSlot h)
  rw [h] at he
  cases he
  exact hs

/-- A slot write only adds written bytes. -/
theorem memWrite_isSome {p : Params} {r : Ring} {i : Nat} {bs : List Byte} {m m' : List Host.Cell} {a x : Nat}
    (h : memWrite p r i m a bs = .ok m') (hx : (Memory.read m x).isSome) : (Memory.read m' x).isSome := by
  obtain ⟨hr, hf, _⟩ := memWrite_spec h
  by_cases hin : x < a ∨ a + bs.length ≤ x
  · rwa [hf x hin]
  · have := hr (x - a) (by omega)
    rw [show a + (x - a) = x by omega] at this
    rw [this]
    rfl

/-- Everything a slot read answers where it succeeds: the written bytes at addresses in the slot (R53, R54). -/
theorem memRead_eq_ok {p : Params} {r : Ring} {i : Nat} {m : List Host.Cell} {a n : Nat} {bs : List Byte} :
    memRead p r i m a n = .ok bs ↔
      bs.length = n ∧ ∀ j, (hj : j < bs.length) → inSlot p r i (a + j) = true ∧ Memory.read m (a + j) = some bs[j] := by
  induction n generalizing a bs with
  | zero =>
    cases bs with
    | nil => simp [memRead]
    | cons b bs => simp [memRead]
  | succ n ih =>
    cases bs with
    | nil =>
      refine ⟨fun h => ?_, fun h => by simp at h⟩
      unfold memRead at h
      split at h
      · split at h
        · cases h
        · split at h <;> cases h
      · cases h
    | cons b bs =>
      constructor
      · intro h
        unfold memRead at h
        split at h
        · rename_i h0
          split at h
          · cases h
          · rename_i b' hb
            split at h
            · cases h
            · rename_i bs' hbs
              cases h
              obtain ⟨hl, hr⟩ := ih.1 hbs
              refine ⟨by simp [hl], fun j hj => ?_⟩
              cases j with
              | zero => simpa using ⟨h0, hb⟩
              | succ j =>
                have := hr j (by simpa using hj)
                rw [show a + (j + 1) = a + 1 + j by omega]
                simpa using this
        · cases h
      · rintro ⟨hl, hr⟩
        have h0 := hr 0 (by simp)
        simp only [Nat.add_zero, List.getElem_cons_zero] at h0
        have hrest : memRead p r i m (a + 1) n = .ok bs := ih.2 ⟨by simpa using hl, fun j hj => by
          have := hr (j + 1) (by simpa using hj)
          rw [show a + 1 + j = a + (j + 1) by omega]
          simpa using this⟩
        simp [memRead, h0.1, h0.2, hrest]

/-- A slot read succeeds where every address is in the slot and written (R26, R41, R53). -/
theorem memRead_ok {p : Params} {r : Ring} {i : Nat} {m : List Host.Cell} {a n : Nat}
    (hs : ∀ j < n, inSlot p r i (a + j) = true) (hw : ∀ j < n, (Memory.read m (a + j)).isSome) :
    ∃ bs, memRead p r i m a n = .ok bs := by
  induction n generalizing a with
  | zero => exact ⟨[], rfl⟩
  | succ n ih =>
    obtain ⟨bs, hbs⟩ := ih (a := a + 1)
      (fun j hj => by rw [show a + 1 + j = a + (j + 1) by omega]; exact hs (j + 1) (by omega))
      (fun j hj => by rw [show a + 1 + j = a + (j + 1) by omega]; exact hw (j + 1) (by omega))
    have h0 : inSlot p r i a = true := by simpa using hs 0 (by omega)
    obtain ⟨b, hb⟩ := Option.isSome_iff_exists.1 (by simpa using hw 0 (by omega))
    exact ⟨b :: bs, by simp [memRead, h0, hb, hbs]⟩

end Sys2Proof.Machine
end

