-- ==== Sys2Proof/Laws/State.lean ====
section
/-!
SUPPORT. One lemma per field of State for each update the model makes, so that no proof unfolds a record update; and the
accessors of a value per ring, per source and per context.
-/

namespace Sys2Proof

@[simp] theorem PerRing.get_tx {α : Type} (p : PerRing α) : p.get .tx = p.tx := rfl
@[simp] theorem PerRing.get_rx {α : Type} (p : PerRing α) : p.get .rx = p.rx := rfl
@[simp] theorem PerRing.set_tx_tx {α : Type} (p : PerRing α) (v : α) : (p.set .tx v).tx = v := rfl
@[simp] theorem PerRing.set_tx_rx {α : Type} (p : PerRing α) (v : α) : (p.set .tx v).rx = p.rx := rfl
@[simp] theorem PerRing.set_rx_rx {α : Type} (p : PerRing α) (v : α) : (p.set .rx v).rx = v := rfl
@[simp] theorem PerRing.set_rx_tx {α : Type} (p : PerRing α) (v : α) : (p.set .rx v).tx = p.tx := rfl
@[simp] theorem PerRing.get_set_same {α : Type} (p : PerRing α) (r : Ring) (v : α) : (p.set r v).get r = v := by
  cases r <;> rfl
theorem PerRing.get_set_ne {α : Type} (p : PerRing α) {r q : Ring} (v : α) (h : q ≠ r) :
    (p.set r v).get q = p.get q := by
  cases r <;> cases q <;> first | rfl | exact absurd rfl h

@[simp] theorem PerSource.get_txc {α : Type} (p : PerSource α) : p.get .txc = p.txc := rfl
@[simp] theorem PerSource.get_rxr {α : Type} (p : PerSource α) : p.get .rxr = p.rxr := rfl
@[simp] theorem PerSource.set_txc_txc {α : Type} (p : PerSource α) (v : α) : (p.set .txc v).txc = v := rfl
@[simp] theorem PerSource.set_txc_rxr {α : Type} (p : PerSource α) (v : α) : (p.set .txc v).rxr = p.rxr := rfl
@[simp] theorem PerSource.set_rxr_rxr {α : Type} (p : PerSource α) (v : α) : (p.set .rxr v).rxr = v := rfl
@[simp] theorem PerSource.set_rxr_txc {α : Type} (p : PerSource α) (v : α) : (p.set .rxr v).txc = p.txc := rfl
@[simp] theorem PerSource.get_set_same {α : Type} (p : PerSource α) (r : Source) (v : α) :
    (p.set r v).get r = v := by
  cases r <;> rfl
theorem PerSource.get_set_ne {α : Type} (p : PerSource α) {r q : Source} (v : α) (h : q ≠ r) :
    (p.set r v).get q = p.get q := by
  cases r <;> cases q <;> first | rfl | exact absurd rfl h

@[simp] theorem PerCtx.get_mainline {α : Type} (p : PerCtx α) : p.get .mainline = p.mainline := rfl
@[simp] theorem PerCtx.get_isrTx {α : Type} (p : PerCtx α) : p.get .isrTx = p.isrTx := rfl
@[simp] theorem PerCtx.get_isrRx {α : Type} (p : PerCtx α) : p.get .isrRx = p.isrRx := rfl
@[simp] theorem PerCtx.get_set_same {α : Type} (p : PerCtx α) (c : Ctx) (v : α) : (p.set c v).get c = v := by
  cases c <;> rfl
theorem PerCtx.get_set_ne {α : Type} (p : PerCtx α) {c e : Ctx} (v : α) (h : e ≠ c) :
    (p.set c v).get e = p.get e := by
  cases c <;> cases e <;> first | rfl | exact absurd rfl h

namespace Machine

/-! `advancePc` -/

@[simp] theorem advancePc_cfg (s : State) (c : Ctx) : (advancePc s c).cfg = s.cfg := by
  cases c <;> rfl
@[simp] theorem advancePc_phase (s : State) (c : Ctx) : (advancePc s c).phase = s.phase := by
  cases c <;> rfl
@[simp] theorem advancePc_descs (s : State) (c : Ctx) : (advancePc s c).descs = s.descs := by
  cases c <;> rfl
@[simp] theorem advancePc_mem (s : State) (c : Ctx) : (advancePc s c).mem = s.mem := by
  cases c <;> rfl
@[simp] theorem advancePc_cur (s : State) (c : Ctx) : (advancePc s c).cur = s.cur := by
  cases c <;> rfl
@[simp] theorem advancePc_ccur (s : State) (c : Ctx) : (advancePc s c).ccur = s.ccur := by
  cases c <;> rfl
@[simp] theorem advancePc_txEn (s : State) (c : Ctx) : (advancePc s c).txEn = s.txEn := by
  cases c <;> rfl
@[simp] theorem advancePc_rxEn (s : State) (c : Ctx) : (advancePc s c).rxEn = s.rxEn := by
  cases c <;> rfl
@[simp] theorem advancePc_kick (s : State) (c : Ctx) : (advancePc s c).kick = s.kick := by
  cases c <;> rfl
@[simp] theorem advancePc_pend (s : State) (c : Ctx) : (advancePc s c).pend = s.pend := by
  cases c <;> rfl
@[simp] theorem advancePc_ie (s : State) (c : Ctx) : (advancePc s c).ie = s.ie := by
  cases c <;> rfl
@[simp] theorem advancePc_act (s : State) (c : Ctx) : (advancePc s c).act = s.act := by
  cases c <;> rfl
@[simp] theorem advancePc_hwaddr (s : State) (c : Ctx) : (advancePc s c).hwaddr = s.hwaddr := by
  cases c <;> rfl
@[simp] theorem advancePc_mtu (s : State) (c : Ctx) : (advancePc s c).mtu = s.mtu := by
  cases c <;> rfl
@[simp] theorem advancePc_fBcast (s : State) (c : Ctx) : (advancePc s c).fBcast = s.fBcast := by
  cases c <;> rfl
@[simp] theorem advancePc_fEtharp (s : State) (c : Ctx) : (advancePc s c).fEtharp = s.fEtharp := by
  cases c <;> rfl
@[simp] theorem advancePc_fEther (s : State) (c : Ctx) : (advancePc s c).fEther = s.fEther := by
  cases c <;> rfl
@[simp] theorem advancePc_linkUp (s : State) (c : Ctx) : (advancePc s c).linkUp = s.linkUp := by
  cases c <;> rfl
@[simp] theorem advancePc_ifcfg (s : State) (c : Ctx) : (advancePc s c).ifcfg = s.ifcfg := by
  cases c <;> rfl
@[simp] theorem advancePc_cntErr (s : State) (c : Ctx) : (advancePc s c).cntErr = s.cntErr := by
  cases c <;> rfl
@[simp] theorem advancePc_cntNobuf (s : State) (c : Ctx) : (advancePc s c).cntNobuf = s.cntNobuf := by
  cases c <;> rfl
@[simp] theorem advancePc_cntMiss (s : State) (c : Ctx) : (advancePc s c).cntMiss = s.cntMiss := by
  cases c <;> rfl
@[simp] theorem advancePc_cntDlverr (s : State) (c : Ctx) : (advancePc s c).cntDlverr = s.cntDlverr := by
  cases c <;> rfl
@[simp] theorem advancePc_ctxStack (s : State) (c : Ctx) : (advancePc s c).ctxStack = s.ctxStack := by
  cases c <;> rfl
@[simp] theorem advancePc_drain (s : State) (c : Ctx) : (advancePc s c).drain = s.drain := by
  cases c <;> rfl
@[simp] theorem advancePc_phyLink (s : State) (c : Ctx) : (advancePc s c).phyLink = s.phyLink := by
  cases c <;> rfl
@[simp] theorem advancePc_wireOut (s : State) (c : Ctx) : (advancePc s c).wireOut = s.wireOut := by
  cases c <;> rfl
@[simp] theorem advancePc_delivered (s : State) (c : Ctx) : (advancePc s c).delivered = s.delivered := by
  cases c <;> rfl
@[simp] theorem advancePc_results (s : State) (c : Ctx) : (advancePc s c).results = s.results := by
  cases c <;> rfl
@[simp] theorem advancePc_prog (s : State) (c : Ctx) : (advancePc s c).prog = s.prog := by
  cases c <;> rfl
@[simp] theorem advancePc_sched (s : State) (c : Ctx) : (advancePc s c).sched = s.sched := by
  cases c <;> rfl
@[simp] theorem advancePc_allocDraws (s : State) (c : Ctx) : (advancePc s c).allocDraws = s.allocDraws := by
  cases c <;> rfl
@[simp] theorem advancePc_deliverDraws (s : State) (c : Ctx) : (advancePc s c).deliverDraws = s.deliverDraws := by
  cases c <;> rfl
@[simp] theorem advancePc_freeCount (s : State) (c : Ctx) : (advancePc s c).freeCount = s.freeCount := by
  cases c <;> rfl

/-! `finish` -/

@[simp] theorem finish_cfg (s : State) (w : Word) (code : ResultCode) (v : Word) (p : List Byte) :
    (finish s w code v p).cfg = s.cfg := advancePc_cfg _ _
@[simp] theorem finish_phase (s : State) (w : Word) (code : ResultCode) (v : Word) (p : List Byte) :
    (finish s w code v p).phase = s.phase := advancePc_phase _ _
@[simp] theorem finish_descs (s : State) (w : Word) (code : ResultCode) (v : Word) (p : List Byte) :
    (finish s w code v p).descs = s.descs := advancePc_descs _ _
@[simp] theorem finish_mem (s : State) (w : Word) (code : ResultCode) (v : Word) (p : List Byte) :
    (finish s w code v p).mem = s.mem := advancePc_mem _ _
@[simp] theorem finish_cur (s : State) (w : Word) (code : ResultCode) (v : Word) (p : List Byte) :
    (finish s w code v p).cur = s.cur := advancePc_cur _ _
@[simp] theorem finish_ccur (s : State) (w : Word) (code : ResultCode) (v : Word) (p : List Byte) :
    (finish s w code v p).ccur = s.ccur := advancePc_ccur _ _
@[simp] theorem finish_txEn (s : State) (w : Word) (code : ResultCode) (v : Word) (p : List Byte) :
    (finish s w code v p).txEn = s.txEn := advancePc_txEn _ _
@[simp] theorem finish_rxEn (s : State) (w : Word) (code : ResultCode) (v : Word) (p : List Byte) :
    (finish s w code v p).rxEn = s.rxEn := advancePc_rxEn _ _
@[simp] theorem finish_kick (s : State) (w : Word) (code : ResultCode) (v : Word) (p : List Byte) :
    (finish s w code v p).kick = s.kick := advancePc_kick _ _
@[simp] theorem finish_pend (s : State) (w : Word) (code : ResultCode) (v : Word) (p : List Byte) :
    (finish s w code v p).pend = s.pend := advancePc_pend _ _
@[simp] theorem finish_ie (s : State) (w : Word) (code : ResultCode) (v : Word) (p : List Byte) :
    (finish s w code v p).ie = s.ie := advancePc_ie _ _
@[simp] theorem finish_act (s : State) (w : Word) (code : ResultCode) (v : Word) (p : List Byte) :
    (finish s w code v p).act = s.act := advancePc_act _ _
@[simp] theorem finish_hwaddr (s : State) (w : Word) (code : ResultCode) (v : Word) (p : List Byte) :
    (finish s w code v p).hwaddr = s.hwaddr := advancePc_hwaddr _ _
@[simp] theorem finish_mtu (s : State) (w : Word) (code : ResultCode) (v : Word) (p : List Byte) :
    (finish s w code v p).mtu = s.mtu := advancePc_mtu _ _
@[simp] theorem finish_fBcast (s : State) (w : Word) (code : ResultCode) (v : Word) (p : List Byte) :
    (finish s w code v p).fBcast = s.fBcast := advancePc_fBcast _ _
@[simp] theorem finish_fEtharp (s : State) (w : Word) (code : ResultCode) (v : Word) (p : List Byte) :
    (finish s w code v p).fEtharp = s.fEtharp := advancePc_fEtharp _ _
@[simp] theorem finish_fEther (s : State) (w : Word) (code : ResultCode) (v : Word) (p : List Byte) :
    (finish s w code v p).fEther = s.fEther := advancePc_fEther _ _
@[simp] theorem finish_linkUp (s : State) (w : Word) (code : ResultCode) (v : Word) (p : List Byte) :
    (finish s w code v p).linkUp = s.linkUp := advancePc_linkUp _ _
@[simp] theorem finish_ifcfg (s : State) (w : Word) (code : ResultCode) (v : Word) (p : List Byte) :
    (finish s w code v p).ifcfg = s.ifcfg := advancePc_ifcfg _ _
@[simp] theorem finish_cntErr (s : State) (w : Word) (code : ResultCode) (v : Word) (p : List Byte) :
    (finish s w code v p).cntErr = s.cntErr := advancePc_cntErr _ _
@[simp] theorem finish_cntNobuf (s : State) (w : Word) (code : ResultCode) (v : Word) (p : List Byte) :
    (finish s w code v p).cntNobuf = s.cntNobuf := advancePc_cntNobuf _ _
@[simp] theorem finish_cntMiss (s : State) (w : Word) (code : ResultCode) (v : Word) (p : List Byte) :
    (finish s w code v p).cntMiss = s.cntMiss := advancePc_cntMiss _ _
@[simp] theorem finish_cntDlverr (s : State) (w : Word) (code : ResultCode) (v : Word) (p : List Byte) :
    (finish s w code v p).cntDlverr = s.cntDlverr := advancePc_cntDlverr _ _
@[simp] theorem finish_ctxStack (s : State) (w : Word) (code : ResultCode) (v : Word) (p : List Byte) :
    (finish s w code v p).ctxStack = s.ctxStack := advancePc_ctxStack _ _
@[simp] theorem finish_drain (s : State) (w : Word) (code : ResultCode) (v : Word) (p : List Byte) :
    (finish s w code v p).drain = s.drain := advancePc_drain _ _
@[simp] theorem finish_phyLink (s : State) (w : Word) (code : ResultCode) (v : Word) (p : List Byte) :
    (finish s w code v p).phyLink = s.phyLink := advancePc_phyLink _ _
@[simp] theorem finish_wireOut (s : State) (w : Word) (code : ResultCode) (v : Word) (p : List Byte) :
    (finish s w code v p).wireOut = s.wireOut := advancePc_wireOut _ _
@[simp] theorem finish_delivered (s : State) (w : Word) (code : ResultCode) (v : Word) (p : List Byte) :
    (finish s w code v p).delivered = s.delivered := advancePc_delivered _ _
@[simp] theorem finish_results (s : State) (w : Word) (code : ResultCode) (v : Word) (p : List Byte) :
    (finish s w code v p).results = s.results ++ [⟨running s, w, ⟨code, v, p⟩⟩] := advancePc_results _ _
@[simp] theorem finish_prog (s : State) (w : Word) (code : ResultCode) (v : Word) (p : List Byte) :
    (finish s w code v p).prog = s.prog := advancePc_prog _ _
@[simp] theorem finish_sched (s : State) (w : Word) (code : ResultCode) (v : Word) (p : List Byte) :
    (finish s w code v p).sched = s.sched := advancePc_sched _ _
@[simp] theorem finish_allocDraws (s : State) (w : Word) (code : ResultCode) (v : Word) (p : List Byte) :
    (finish s w code v p).allocDraws = s.allocDraws := advancePc_allocDraws _ _
@[simp] theorem finish_deliverDraws (s : State) (w : Word) (code : ResultCode) (v : Word) (p : List Byte) :
    (finish s w code v p).deliverDraws = s.deliverDraws := advancePc_deliverDraws _ _
@[simp] theorem finish_freeCount (s : State) (w : Word) (code : ResultCode) (v : Word) (p : List Byte) :
    (finish s w code v p).freeCount = s.freeCount := advancePc_freeCount _ _

/-! `raise` -/

@[simp] theorem raise_cfg (s : State) (w : Word) (code : ResultCode) : (raise s w code).cfg = s.cfg :=
  finish_cfg _ _ _ _ _
@[simp] theorem raise_phase (s : State) (w : Word) (code : ResultCode) : (raise s w code).phase = s.phase :=
  finish_phase _ _ _ _ _
@[simp] theorem raise_descs (s : State) (w : Word) (code : ResultCode) : (raise s w code).descs = s.descs :=
  finish_descs _ _ _ _ _
@[simp] theorem raise_mem (s : State) (w : Word) (code : ResultCode) : (raise s w code).mem = s.mem :=
  finish_mem _ _ _ _ _
@[simp] theorem raise_cur (s : State) (w : Word) (code : ResultCode) : (raise s w code).cur = s.cur :=
  finish_cur _ _ _ _ _
@[simp] theorem raise_ccur (s : State) (w : Word) (code : ResultCode) : (raise s w code).ccur = s.ccur :=
  finish_ccur _ _ _ _ _
@[simp] theorem raise_txEn (s : State) (w : Word) (code : ResultCode) : (raise s w code).txEn = s.txEn :=
  finish_txEn _ _ _ _ _
@[simp] theorem raise_rxEn (s : State) (w : Word) (code : ResultCode) : (raise s w code).rxEn = s.rxEn :=
  finish_rxEn _ _ _ _ _
@[simp] theorem raise_kick (s : State) (w : Word) (code : ResultCode) : (raise s w code).kick = s.kick :=
  finish_kick _ _ _ _ _
@[simp] theorem raise_pend (s : State) (w : Word) (code : ResultCode) : (raise s w code).pend = s.pend :=
  finish_pend _ _ _ _ _
@[simp] theorem raise_ie (s : State) (w : Word) (code : ResultCode) : (raise s w code).ie = s.ie :=
  finish_ie _ _ _ _ _
@[simp] theorem raise_act (s : State) (w : Word) (code : ResultCode) : (raise s w code).act = s.act :=
  finish_act _ _ _ _ _
@[simp] theorem raise_hwaddr (s : State) (w : Word) (code : ResultCode) : (raise s w code).hwaddr = s.hwaddr :=
  finish_hwaddr _ _ _ _ _
@[simp] theorem raise_mtu (s : State) (w : Word) (code : ResultCode) : (raise s w code).mtu = s.mtu :=
  finish_mtu _ _ _ _ _
@[simp] theorem raise_fBcast (s : State) (w : Word) (code : ResultCode) : (raise s w code).fBcast = s.fBcast :=
  finish_fBcast _ _ _ _ _
@[simp] theorem raise_fEtharp (s : State) (w : Word) (code : ResultCode) : (raise s w code).fEtharp = s.fEtharp :=
  finish_fEtharp _ _ _ _ _
@[simp] theorem raise_fEther (s : State) (w : Word) (code : ResultCode) : (raise s w code).fEther = s.fEther :=
  finish_fEther _ _ _ _ _
@[simp] theorem raise_linkUp (s : State) (w : Word) (code : ResultCode) : (raise s w code).linkUp = s.linkUp :=
  finish_linkUp _ _ _ _ _
@[simp] theorem raise_ifcfg (s : State) (w : Word) (code : ResultCode) : (raise s w code).ifcfg = s.ifcfg :=
  finish_ifcfg _ _ _ _ _
@[simp] theorem raise_cntErr (s : State) (w : Word) (code : ResultCode) : (raise s w code).cntErr = s.cntErr :=
  finish_cntErr _ _ _ _ _
@[simp] theorem raise_cntNobuf (s : State) (w : Word) (code : ResultCode) : (raise s w code).cntNobuf = s.cntNobuf :=
  finish_cntNobuf _ _ _ _ _
@[simp] theorem raise_cntMiss (s : State) (w : Word) (code : ResultCode) : (raise s w code).cntMiss = s.cntMiss :=
  finish_cntMiss _ _ _ _ _
@[simp] theorem raise_cntDlverr (s : State) (w : Word) (code : ResultCode) : (raise s w code).cntDlverr = s.cntDlverr :=
  finish_cntDlverr _ _ _ _ _
@[simp] theorem raise_ctxStack (s : State) (w : Word) (code : ResultCode) : (raise s w code).ctxStack = s.ctxStack :=
  finish_ctxStack _ _ _ _ _
@[simp] theorem raise_drain (s : State) (w : Word) (code : ResultCode) : (raise s w code).drain = s.drain :=
  finish_drain _ _ _ _ _
@[simp] theorem raise_phyLink (s : State) (w : Word) (code : ResultCode) : (raise s w code).phyLink = s.phyLink :=
  finish_phyLink _ _ _ _ _
@[simp] theorem raise_wireOut (s : State) (w : Word) (code : ResultCode) : (raise s w code).wireOut = s.wireOut :=
  finish_wireOut _ _ _ _ _
@[simp] theorem raise_delivered (s : State) (w : Word) (code : ResultCode) : (raise s w code).delivered = s.delivered :=
  finish_delivered _ _ _ _ _
@[simp] theorem raise_results (s : State) (w : Word) (code : ResultCode) :
    (raise s w code).results = s.results ++ [⟨running s, w, ⟨code, 0#32, []⟩⟩] := finish_results _ _ _ _ _
@[simp] theorem raise_prog (s : State) (w : Word) (code : ResultCode) : (raise s w code).prog = s.prog :=
  finish_prog _ _ _ _ _
@[simp] theorem raise_sched (s : State) (w : Word) (code : ResultCode) : (raise s w code).sched = s.sched :=
  finish_sched _ _ _ _ _
@[simp] theorem raise_allocDraws (s : State) (w : Word) (code : ResultCode) : (raise s w code).allocDraws = s.allocDraws :=
  finish_allocDraws _ _ _ _ _
@[simp] theorem raise_deliverDraws (s : State) (w : Word) (code : ResultCode) : (raise s w code).deliverDraws = s.deliverDraws :=
  finish_deliverDraws _ _ _ _ _
@[simp] theorem raise_freeCount (s : State) (w : Word) (code : ResultCode) : (raise s w code).freeCount = s.freeCount :=
  finish_freeCount _ _ _ _ _

/-! `writeDesc` -/

@[simp] theorem writeDesc_cfg (s : State) (r : Ring) (i : Nat) (d : Desc) : (writeDesc s r i d).cfg = s.cfg := rfl
@[simp] theorem writeDesc_phase (s : State) (r : Ring) (i : Nat) (d : Desc) :
    (writeDesc s r i d).phase = s.phase := rfl
@[simp] theorem writeDesc_descs (s : State) (r : Ring) (i : Nat) (d : Desc) :
    (writeDesc s r i d).descs = s.descs.set r ((s.descs.get r).set i d) := rfl
@[simp] theorem writeDesc_mem (s : State) (r : Ring) (i : Nat) (d : Desc) : (writeDesc s r i d).mem = s.mem := rfl
@[simp] theorem writeDesc_cur (s : State) (r : Ring) (i : Nat) (d : Desc) : (writeDesc s r i d).cur = s.cur := rfl
@[simp] theorem writeDesc_ccur (s : State) (r : Ring) (i : Nat) (d : Desc) : (writeDesc s r i d).ccur = s.ccur := rfl
@[simp] theorem writeDesc_txEn (s : State) (r : Ring) (i : Nat) (d : Desc) : (writeDesc s r i d).txEn = s.txEn := rfl
@[simp] theorem writeDesc_rxEn (s : State) (r : Ring) (i : Nat) (d : Desc) : (writeDesc s r i d).rxEn = s.rxEn := rfl
@[simp] theorem writeDesc_kick (s : State) (r : Ring) (i : Nat) (d : Desc) : (writeDesc s r i d).kick = s.kick := rfl
@[simp] theorem writeDesc_pend (s : State) (r : Ring) (i : Nat) (d : Desc) : (writeDesc s r i d).pend = s.pend := rfl
@[simp] theorem writeDesc_ie (s : State) (r : Ring) (i : Nat) (d : Desc) : (writeDesc s r i d).ie = s.ie := rfl
@[simp] theorem writeDesc_act (s : State) (r : Ring) (i : Nat) (d : Desc) : (writeDesc s r i d).act = s.act := rfl
@[simp] theorem writeDesc_hwaddr (s : State) (r : Ring) (i : Nat) (d : Desc) :
    (writeDesc s r i d).hwaddr = s.hwaddr := rfl
@[simp] theorem writeDesc_mtu (s : State) (r : Ring) (i : Nat) (d : Desc) : (writeDesc s r i d).mtu = s.mtu := rfl
@[simp] theorem writeDesc_fBcast (s : State) (r : Ring) (i : Nat) (d : Desc) :
    (writeDesc s r i d).fBcast = s.fBcast := rfl
@[simp] theorem writeDesc_fEtharp (s : State) (r : Ring) (i : Nat) (d : Desc) :
    (writeDesc s r i d).fEtharp = s.fEtharp := rfl
@[simp] theorem writeDesc_fEther (s : State) (r : Ring) (i : Nat) (d : Desc) :
    (writeDesc s r i d).fEther = s.fEther := rfl
@[simp] theorem writeDesc_linkUp (s : State) (r : Ring) (i : Nat) (d : Desc) :
    (writeDesc s r i d).linkUp = s.linkUp := rfl
@[simp] theorem writeDesc_ifcfg (s : State) (r : Ring) (i : Nat) (d : Desc) :
    (writeDesc s r i d).ifcfg = s.ifcfg := rfl
@[simp] theorem writeDesc_cntErr (s : State) (r : Ring) (i : Nat) (d : Desc) :
    (writeDesc s r i d).cntErr = s.cntErr := rfl
@[simp] theorem writeDesc_cntNobuf (s : State) (r : Ring) (i : Nat) (d : Desc) :
    (writeDesc s r i d).cntNobuf = s.cntNobuf := rfl
@[simp] theorem writeDesc_cntMiss (s : State) (r : Ring) (i : Nat) (d : Desc) :
    (writeDesc s r i d).cntMiss = s.cntMiss := rfl
@[simp] theorem writeDesc_cntDlverr (s : State) (r : Ring) (i : Nat) (d : Desc) :
    (writeDesc s r i d).cntDlverr = s.cntDlverr := rfl
@[simp] theorem writeDesc_ctxStack (s : State) (r : Ring) (i : Nat) (d : Desc) :
    (writeDesc s r i d).ctxStack = s.ctxStack := rfl
@[simp] theorem writeDesc_pc (s : State) (r : Ring) (i : Nat) (d : Desc) : (writeDesc s r i d).pc = s.pc := rfl
@[simp] theorem writeDesc_ipc (s : State) (r : Ring) (i : Nat) (d : Desc) : (writeDesc s r i d).ipc = s.ipc := rfl
@[simp] theorem writeDesc_drain (s : State) (r : Ring) (i : Nat) (d : Desc) :
    (writeDesc s r i d).drain = s.drain := rfl
@[simp] theorem writeDesc_phyLink (s : State) (r : Ring) (i : Nat) (d : Desc) :
    (writeDesc s r i d).phyLink = s.phyLink := rfl
@[simp] theorem writeDesc_wireOut (s : State) (r : Ring) (i : Nat) (d : Desc) :
    (writeDesc s r i d).wireOut = s.wireOut := rfl
@[simp] theorem writeDesc_delivered (s : State) (r : Ring) (i : Nat) (d : Desc) :
    (writeDesc s r i d).delivered = s.delivered := rfl
@[simp] theorem writeDesc_results (s : State) (r : Ring) (i : Nat) (d : Desc) :
    (writeDesc s r i d).results = s.results := rfl
@[simp] theorem writeDesc_prog (s : State) (r : Ring) (i : Nat) (d : Desc) : (writeDesc s r i d).prog = s.prog := rfl
@[simp] theorem writeDesc_sched (s : State) (r : Ring) (i : Nat) (d : Desc) :
    (writeDesc s r i d).sched = s.sched := rfl
@[simp] theorem writeDesc_allocDraws (s : State) (r : Ring) (i : Nat) (d : Desc) :
    (writeDesc s r i d).allocDraws = s.allocDraws := rfl
@[simp] theorem writeDesc_deliverDraws (s : State) (r : Ring) (i : Nat) (d : Desc) :
    (writeDesc s r i d).deliverDraws = s.deliverDraws := rfl
@[simp] theorem writeDesc_freeCount (s : State) (r : Ring) (i : Nat) (d : Desc) :
    (writeDesc s r i d).freeCount = s.freeCount := rfl

/-! `recycle` -/

@[simp] theorem recycle_cfg (s : State) (i : Nat) (d : Desc) : (recycle s i d).cfg = s.cfg := rfl
@[simp] theorem recycle_phase (s : State) (i : Nat) (d : Desc) : (recycle s i d).phase = s.phase := rfl
@[simp] theorem recycle_descs (s : State) (i : Nat) (d : Desc) :
    (recycle s i d).descs = (writeDesc s .rx i { d with own := .controllerOwned }).descs := rfl
@[simp] theorem recycle_mem (s : State) (i : Nat) (d : Desc) : (recycle s i d).mem = s.mem := rfl
@[simp] theorem recycle_cur (s : State) (i : Nat) (d : Desc) :
    (recycle s i d).cur = s.cur.set .rx (advance s.cfg .rx i) := rfl
@[simp] theorem recycle_ccur (s : State) (i : Nat) (d : Desc) : (recycle s i d).ccur = s.ccur := rfl
@[simp] theorem recycle_txEn (s : State) (i : Nat) (d : Desc) : (recycle s i d).txEn = s.txEn := rfl
@[simp] theorem recycle_rxEn (s : State) (i : Nat) (d : Desc) : (recycle s i d).rxEn = s.rxEn := rfl
@[simp] theorem recycle_kick (s : State) (i : Nat) (d : Desc) : (recycle s i d).kick = s.kick := rfl
@[simp] theorem recycle_pend (s : State) (i : Nat) (d : Desc) : (recycle s i d).pend = s.pend := rfl
@[simp] theorem recycle_ie (s : State) (i : Nat) (d : Desc) : (recycle s i d).ie = s.ie := rfl
@[simp] theorem recycle_act (s : State) (i : Nat) (d : Desc) : (recycle s i d).act = s.act := rfl
@[simp] theorem recycle_hwaddr (s : State) (i : Nat) (d : Desc) : (recycle s i d).hwaddr = s.hwaddr := rfl
@[simp] theorem recycle_mtu (s : State) (i : Nat) (d : Desc) : (recycle s i d).mtu = s.mtu := rfl
@[simp] theorem recycle_fBcast (s : State) (i : Nat) (d : Desc) : (recycle s i d).fBcast = s.fBcast := rfl
@[simp] theorem recycle_fEtharp (s : State) (i : Nat) (d : Desc) : (recycle s i d).fEtharp = s.fEtharp := rfl
@[simp] theorem recycle_fEther (s : State) (i : Nat) (d : Desc) : (recycle s i d).fEther = s.fEther := rfl
@[simp] theorem recycle_linkUp (s : State) (i : Nat) (d : Desc) : (recycle s i d).linkUp = s.linkUp := rfl
@[simp] theorem recycle_ifcfg (s : State) (i : Nat) (d : Desc) : (recycle s i d).ifcfg = s.ifcfg := rfl
@[simp] theorem recycle_cntErr (s : State) (i : Nat) (d : Desc) : (recycle s i d).cntErr = s.cntErr := rfl
@[simp] theorem recycle_cntNobuf (s : State) (i : Nat) (d : Desc) : (recycle s i d).cntNobuf = s.cntNobuf := rfl
@[simp] theorem recycle_cntMiss (s : State) (i : Nat) (d : Desc) : (recycle s i d).cntMiss = s.cntMiss := rfl
@[simp] theorem recycle_cntDlverr (s : State) (i : Nat) (d : Desc) : (recycle s i d).cntDlverr = s.cntDlverr := rfl
@[simp] theorem recycle_ctxStack (s : State) (i : Nat) (d : Desc) : (recycle s i d).ctxStack = s.ctxStack := rfl
@[simp] theorem recycle_pc (s : State) (i : Nat) (d : Desc) : (recycle s i d).pc = s.pc := rfl
@[simp] theorem recycle_ipc (s : State) (i : Nat) (d : Desc) : (recycle s i d).ipc = s.ipc := rfl
@[simp] theorem recycle_drain (s : State) (i : Nat) (d : Desc) : (recycle s i d).drain = s.drain := rfl
@[simp] theorem recycle_phyLink (s : State) (i : Nat) (d : Desc) : (recycle s i d).phyLink = s.phyLink := rfl
@[simp] theorem recycle_wireOut (s : State) (i : Nat) (d : Desc) : (recycle s i d).wireOut = s.wireOut := rfl
@[simp] theorem recycle_delivered (s : State) (i : Nat) (d : Desc) : (recycle s i d).delivered = s.delivered := rfl
@[simp] theorem recycle_results (s : State) (i : Nat) (d : Desc) : (recycle s i d).results = s.results := rfl
@[simp] theorem recycle_prog (s : State) (i : Nat) (d : Desc) : (recycle s i d).prog = s.prog := rfl
@[simp] theorem recycle_sched (s : State) (i : Nat) (d : Desc) : (recycle s i d).sched = s.sched := rfl
@[simp] theorem recycle_allocDraws (s : State) (i : Nat) (d : Desc) : (recycle s i d).allocDraws = s.allocDraws := rfl
@[simp] theorem recycle_deliverDraws (s : State) (i : Nat) (d : Desc) :
    (recycle s i d).deliverDraws = s.deliverDraws := rfl
@[simp] theorem recycle_freeCount (s : State) (i : Nat) (d : Desc) : (recycle s i d).freeCount = s.freeCount := rfl

/-! `discardErr` -/

@[simp] theorem discardErr_cfg (s : State) (i : Nat) (d : Desc) : (discardErr s i d).cfg = s.cfg := rfl
@[simp] theorem discardErr_phase (s : State) (i : Nat) (d : Desc) : (discardErr s i d).phase = s.phase := rfl
@[simp] theorem discardErr_descs (s : State) (i : Nat) (d : Desc) :
    (discardErr s i d).descs = (recycle s i d).descs := rfl
@[simp] theorem discardErr_mem (s : State) (i : Nat) (d : Desc) : (discardErr s i d).mem = s.mem := rfl
@[simp] theorem discardErr_cur (s : State) (i : Nat) (d : Desc) : (discardErr s i d).cur = (recycle s i d).cur := rfl
@[simp] theorem discardErr_ccur (s : State) (i : Nat) (d : Desc) : (discardErr s i d).ccur = s.ccur := rfl
@[simp] theorem discardErr_txEn (s : State) (i : Nat) (d : Desc) : (discardErr s i d).txEn = s.txEn := rfl
@[simp] theorem discardErr_rxEn (s : State) (i : Nat) (d : Desc) : (discardErr s i d).rxEn = s.rxEn := rfl
@[simp] theorem discardErr_kick (s : State) (i : Nat) (d : Desc) : (discardErr s i d).kick = s.kick := rfl
@[simp] theorem discardErr_pend (s : State) (i : Nat) (d : Desc) : (discardErr s i d).pend = s.pend := rfl
@[simp] theorem discardErr_ie (s : State) (i : Nat) (d : Desc) : (discardErr s i d).ie = s.ie := rfl
@[simp] theorem discardErr_act (s : State) (i : Nat) (d : Desc) : (discardErr s i d).act = s.act := rfl
@[simp] theorem discardErr_hwaddr (s : State) (i : Nat) (d : Desc) : (discardErr s i d).hwaddr = s.hwaddr := rfl
@[simp] theorem discardErr_mtu (s : State) (i : Nat) (d : Desc) : (discardErr s i d).mtu = s.mtu := rfl
@[simp] theorem discardErr_fBcast (s : State) (i : Nat) (d : Desc) : (discardErr s i d).fBcast = s.fBcast := rfl
@[simp] theorem discardErr_fEtharp (s : State) (i : Nat) (d : Desc) : (discardErr s i d).fEtharp = s.fEtharp := rfl
@[simp] theorem discardErr_fEther (s : State) (i : Nat) (d : Desc) : (discardErr s i d).fEther = s.fEther := rfl
@[simp] theorem discardErr_linkUp (s : State) (i : Nat) (d : Desc) : (discardErr s i d).linkUp = s.linkUp := rfl
@[simp] theorem discardErr_ifcfg (s : State) (i : Nat) (d : Desc) : (discardErr s i d).ifcfg = s.ifcfg := rfl
@[simp] theorem discardErr_cntErr (s : State) (i : Nat) (d : Desc) : (discardErr s i d).cntErr = inc32 s.cntErr := rfl
@[simp] theorem discardErr_cntNobuf (s : State) (i : Nat) (d : Desc) : (discardErr s i d).cntNobuf = s.cntNobuf := rfl
@[simp] theorem discardErr_cntMiss (s : State) (i : Nat) (d : Desc) : (discardErr s i d).cntMiss = s.cntMiss := rfl
@[simp] theorem discardErr_cntDlverr (s : State) (i : Nat) (d : Desc) :
    (discardErr s i d).cntDlverr = s.cntDlverr := rfl
@[simp] theorem discardErr_ctxStack (s : State) (i : Nat) (d : Desc) : (discardErr s i d).ctxStack = s.ctxStack := rfl
@[simp] theorem discardErr_pc (s : State) (i : Nat) (d : Desc) : (discardErr s i d).pc = s.pc := rfl
@[simp] theorem discardErr_ipc (s : State) (i : Nat) (d : Desc) : (discardErr s i d).ipc = s.ipc := rfl
@[simp] theorem discardErr_drain (s : State) (i : Nat) (d : Desc) : (discardErr s i d).drain = s.drain := rfl
@[simp] theorem discardErr_phyLink (s : State) (i : Nat) (d : Desc) : (discardErr s i d).phyLink = s.phyLink := rfl
@[simp] theorem discardErr_wireOut (s : State) (i : Nat) (d : Desc) : (discardErr s i d).wireOut = s.wireOut := rfl
@[simp] theorem discardErr_delivered (s : State) (i : Nat) (d : Desc) :
    (discardErr s i d).delivered = s.delivered := rfl
@[simp] theorem discardErr_results (s : State) (i : Nat) (d : Desc) : (discardErr s i d).results = s.results := rfl
@[simp] theorem discardErr_prog (s : State) (i : Nat) (d : Desc) : (discardErr s i d).prog = s.prog := rfl
@[simp] theorem discardErr_sched (s : State) (i : Nat) (d : Desc) : (discardErr s i d).sched = s.sched := rfl
@[simp] theorem discardErr_allocDraws (s : State) (i : Nat) (d : Desc) :
    (discardErr s i d).allocDraws = s.allocDraws := rfl
@[simp] theorem discardErr_deliverDraws (s : State) (i : Nat) (d : Desc) :
    (discardErr s i d).deliverDraws = s.deliverDraws := rfl
@[simp] theorem discardErr_freeCount (s : State) (i : Nat) (d : Desc) :
    (discardErr s i d).freeCount = s.freeCount := rfl

/-! `discardNobuf` -/

@[simp] theorem discardNobuf_cfg (s : State) (i : Nat) (d : Desc) : (discardNobuf s i d).cfg = s.cfg := rfl
@[simp] theorem discardNobuf_phase (s : State) (i : Nat) (d : Desc) : (discardNobuf s i d).phase = s.phase := rfl
@[simp] theorem discardNobuf_descs (s : State) (i : Nat) (d : Desc) :
    (discardNobuf s i d).descs = (recycle s i d).descs := rfl
@[simp] theorem discardNobuf_mem (s : State) (i : Nat) (d : Desc) : (discardNobuf s i d).mem = s.mem := rfl
@[simp] theorem discardNobuf_cur (s : State) (i : Nat) (d : Desc) :
    (discardNobuf s i d).cur = (recycle s i d).cur := rfl
@[simp] theorem discardNobuf_ccur (s : State) (i : Nat) (d : Desc) : (discardNobuf s i d).ccur = s.ccur := rfl
@[simp] theorem discardNobuf_txEn (s : State) (i : Nat) (d : Desc) : (discardNobuf s i d).txEn = s.txEn := rfl
@[simp] theorem discardNobuf_rxEn (s : State) (i : Nat) (d : Desc) : (discardNobuf s i d).rxEn = s.rxEn := rfl
@[simp] theorem discardNobuf_kick (s : State) (i : Nat) (d : Desc) : (discardNobuf s i d).kick = s.kick := rfl
@[simp] theorem discardNobuf_pend (s : State) (i : Nat) (d : Desc) : (discardNobuf s i d).pend = s.pend := rfl
@[simp] theorem discardNobuf_ie (s : State) (i : Nat) (d : Desc) : (discardNobuf s i d).ie = s.ie := rfl
@[simp] theorem discardNobuf_act (s : State) (i : Nat) (d : Desc) : (discardNobuf s i d).act = s.act := rfl
@[simp] theorem discardNobuf_hwaddr (s : State) (i : Nat) (d : Desc) : (discardNobuf s i d).hwaddr = s.hwaddr := rfl
@[simp] theorem discardNobuf_mtu (s : State) (i : Nat) (d : Desc) : (discardNobuf s i d).mtu = s.mtu := rfl
@[simp] theorem discardNobuf_fBcast (s : State) (i : Nat) (d : Desc) : (discardNobuf s i d).fBcast = s.fBcast := rfl
@[simp] theorem discardNobuf_fEtharp (s : State) (i : Nat) (d : Desc) :
    (discardNobuf s i d).fEtharp = s.fEtharp := rfl
@[simp] theorem discardNobuf_fEther (s : State) (i : Nat) (d : Desc) : (discardNobuf s i d).fEther = s.fEther := rfl
@[simp] theorem discardNobuf_linkUp (s : State) (i : Nat) (d : Desc) : (discardNobuf s i d).linkUp = s.linkUp := rfl
@[simp] theorem discardNobuf_ifcfg (s : State) (i : Nat) (d : Desc) : (discardNobuf s i d).ifcfg = s.ifcfg := rfl
@[simp] theorem discardNobuf_cntErr (s : State) (i : Nat) (d : Desc) : (discardNobuf s i d).cntErr = s.cntErr := rfl
@[simp] theorem discardNobuf_cntNobuf (s : State) (i : Nat) (d : Desc) :
    (discardNobuf s i d).cntNobuf = inc32 s.cntNobuf := rfl
@[simp] theorem discardNobuf_cntMiss (s : State) (i : Nat) (d : Desc) :
    (discardNobuf s i d).cntMiss = s.cntMiss := rfl
@[simp] theorem discardNobuf_cntDlverr (s : State) (i : Nat) (d : Desc) :
    (discardNobuf s i d).cntDlverr = s.cntDlverr := rfl
@[simp] theorem discardNobuf_ctxStack (s : State) (i : Nat) (d : Desc) :
    (discardNobuf s i d).ctxStack = s.ctxStack := rfl
@[simp] theorem discardNobuf_pc (s : State) (i : Nat) (d : Desc) : (discardNobuf s i d).pc = s.pc := rfl
@[simp] theorem discardNobuf_ipc (s : State) (i : Nat) (d : Desc) : (discardNobuf s i d).ipc = s.ipc := rfl
@[simp] theorem discardNobuf_drain (s : State) (i : Nat) (d : Desc) : (discardNobuf s i d).drain = s.drain := rfl
@[simp] theorem discardNobuf_phyLink (s : State) (i : Nat) (d : Desc) :
    (discardNobuf s i d).phyLink = s.phyLink := rfl
@[simp] theorem discardNobuf_wireOut (s : State) (i : Nat) (d : Desc) :
    (discardNobuf s i d).wireOut = s.wireOut := rfl
@[simp] theorem discardNobuf_delivered (s : State) (i : Nat) (d : Desc) :
    (discardNobuf s i d).delivered = s.delivered := rfl
@[simp] theorem discardNobuf_results (s : State) (i : Nat) (d : Desc) :
    (discardNobuf s i d).results = s.results := rfl
@[simp] theorem discardNobuf_prog (s : State) (i : Nat) (d : Desc) : (discardNobuf s i d).prog = s.prog := rfl
@[simp] theorem discardNobuf_sched (s : State) (i : Nat) (d : Desc) : (discardNobuf s i d).sched = s.sched := rfl
@[simp] theorem discardNobuf_allocDraws (s : State) (i : Nat) (d : Desc) :
    (discardNobuf s i d).allocDraws = s.allocDraws := rfl
@[simp] theorem discardNobuf_deliverDraws (s : State) (i : Nat) (d : Desc) :
    (discardNobuf s i d).deliverDraws = s.deliverDraws := rfl
@[simp] theorem discardNobuf_freeCount (s : State) (i : Nat) (d : Desc) :
    (discardNobuf s i d).freeCount = s.freeCount := rfl

/-! `handOff` -/

@[simp] theorem handOff_cfg (s : State) (i : Nat) (d : Desc) (m : List Host.Cell) (len : Half) :
    (handOff s i d m len).cfg = s.cfg := rfl
@[simp] theorem handOff_phase (s : State) (i : Nat) (d : Desc) (m : List Host.Cell) (len : Half) :
    (handOff s i d m len).phase = s.phase := rfl
@[simp] theorem handOff_descs (s : State) (i : Nat) (d : Desc) (m : List Host.Cell) (len : Half) :
    (handOff s i d m len).descs = (writeDesc s .tx i { d with len := len, own := .controllerOwned }).descs := rfl
@[simp] theorem handOff_mem (s : State) (i : Nat) (d : Desc) (m : List Host.Cell) (len : Half) :
    (handOff s i d m len).mem = m := rfl
@[simp] theorem handOff_cur (s : State) (i : Nat) (d : Desc) (m : List Host.Cell) (len : Half) :
    (handOff s i d m len).cur = s.cur.set .tx (advance s.cfg .tx i) := rfl
@[simp] theorem handOff_ccur (s : State) (i : Nat) (d : Desc) (m : List Host.Cell) (len : Half) :
    (handOff s i d m len).ccur = s.ccur := rfl
@[simp] theorem handOff_txEn (s : State) (i : Nat) (d : Desc) (m : List Host.Cell) (len : Half) :
    (handOff s i d m len).txEn = s.txEn := rfl
@[simp] theorem handOff_rxEn (s : State) (i : Nat) (d : Desc) (m : List Host.Cell) (len : Half) :
    (handOff s i d m len).rxEn = s.rxEn := rfl
@[simp] theorem handOff_kick (s : State) (i : Nat) (d : Desc) (m : List Host.Cell) (len : Half) :
    (handOff s i d m len).kick = true := rfl
@[simp] theorem handOff_pend (s : State) (i : Nat) (d : Desc) (m : List Host.Cell) (len : Half) :
    (handOff s i d m len).pend = s.pend := rfl
@[simp] theorem handOff_ie (s : State) (i : Nat) (d : Desc) (m : List Host.Cell) (len : Half) :
    (handOff s i d m len).ie = s.ie := rfl
@[simp] theorem handOff_act (s : State) (i : Nat) (d : Desc) (m : List Host.Cell) (len : Half) :
    (handOff s i d m len).act = s.act := rfl
@[simp] theorem handOff_hwaddr (s : State) (i : Nat) (d : Desc) (m : List Host.Cell) (len : Half) :
    (handOff s i d m len).hwaddr = s.hwaddr := rfl
@[simp] theorem handOff_mtu (s : State) (i : Nat) (d : Desc) (m : List Host.Cell) (len : Half) :
    (handOff s i d m len).mtu = s.mtu := rfl
@[simp] theorem handOff_fBcast (s : State) (i : Nat) (d : Desc) (m : List Host.Cell) (len : Half) :
    (handOff s i d m len).fBcast = s.fBcast := rfl
@[simp] theorem handOff_fEtharp (s : State) (i : Nat) (d : Desc) (m : List Host.Cell) (len : Half) :
    (handOff s i d m len).fEtharp = s.fEtharp := rfl
@[simp] theorem handOff_fEther (s : State) (i : Nat) (d : Desc) (m : List Host.Cell) (len : Half) :
    (handOff s i d m len).fEther = s.fEther := rfl
@[simp] theorem handOff_linkUp (s : State) (i : Nat) (d : Desc) (m : List Host.Cell) (len : Half) :
    (handOff s i d m len).linkUp = s.linkUp := rfl
@[simp] theorem handOff_ifcfg (s : State) (i : Nat) (d : Desc) (m : List Host.Cell) (len : Half) :
    (handOff s i d m len).ifcfg = s.ifcfg := rfl
@[simp] theorem handOff_cntErr (s : State) (i : Nat) (d : Desc) (m : List Host.Cell) (len : Half) :
    (handOff s i d m len).cntErr = s.cntErr := rfl
@[simp] theorem handOff_cntNobuf (s : State) (i : Nat) (d : Desc) (m : List Host.Cell) (len : Half) :
    (handOff s i d m len).cntNobuf = s.cntNobuf := rfl
@[simp] theorem handOff_cntMiss (s : State) (i : Nat) (d : Desc) (m : List Host.Cell) (len : Half) :
    (handOff s i d m len).cntMiss = s.cntMiss := rfl
@[simp] theorem handOff_cntDlverr (s : State) (i : Nat) (d : Desc) (m : List Host.Cell) (len : Half) :
    (handOff s i d m len).cntDlverr = s.cntDlverr := rfl
@[simp] theorem handOff_ctxStack (s : State) (i : Nat) (d : Desc) (m : List Host.Cell) (len : Half) :
    (handOff s i d m len).ctxStack = s.ctxStack := rfl
@[simp] theorem handOff_pc (s : State) (i : Nat) (d : Desc) (m : List Host.Cell) (len : Half) :
    (handOff s i d m len).pc = s.pc := rfl
@[simp] theorem handOff_ipc (s : State) (i : Nat) (d : Desc) (m : List Host.Cell) (len : Half) :
    (handOff s i d m len).ipc = s.ipc := rfl
@[simp] theorem handOff_drain (s : State) (i : Nat) (d : Desc) (m : List Host.Cell) (len : Half) :
    (handOff s i d m len).drain = s.drain := rfl
@[simp] theorem handOff_phyLink (s : State) (i : Nat) (d : Desc) (m : List Host.Cell) (len : Half) :
    (handOff s i d m len).phyLink = s.phyLink := rfl
@[simp] theorem handOff_wireOut (s : State) (i : Nat) (d : Desc) (m : List Host.Cell) (len : Half) :
    (handOff s i d m len).wireOut = s.wireOut := rfl
@[simp] theorem handOff_delivered (s : State) (i : Nat) (d : Desc) (m : List Host.Cell) (len : Half) :
    (handOff s i d m len).delivered = s.delivered := rfl
@[simp] theorem handOff_results (s : State) (i : Nat) (d : Desc) (m : List Host.Cell) (len : Half) :
    (handOff s i d m len).results = s.results := rfl
@[simp] theorem handOff_prog (s : State) (i : Nat) (d : Desc) (m : List Host.Cell) (len : Half) :
    (handOff s i d m len).prog = s.prog := rfl
@[simp] theorem handOff_sched (s : State) (i : Nat) (d : Desc) (m : List Host.Cell) (len : Half) :
    (handOff s i d m len).sched = s.sched := rfl
@[simp] theorem handOff_allocDraws (s : State) (i : Nat) (d : Desc) (m : List Host.Cell) (len : Half) :
    (handOff s i d m len).allocDraws = s.allocDraws := rfl
@[simp] theorem handOff_deliverDraws (s : State) (i : Nat) (d : Desc) (m : List Host.Cell) (len : Half) :
    (handOff s i d m len).deliverDraws = s.deliverDraws := rfl
@[simp] theorem handOff_freeCount (s : State) (i : Nat) (d : Desc) (m : List Host.Cell) (len : Half) :
    (handOff s i d m len).freeCount = s.freeCount := rfl

/-! `txGiveBack` -/

@[simp] theorem txGiveBack_cfg (s : State) (i : Nat) (d : Desc) : (txGiveBack s i d).cfg = s.cfg := rfl
@[simp] theorem txGiveBack_phase (s : State) (i : Nat) (d : Desc) : (txGiveBack s i d).phase = s.phase := rfl
@[simp] theorem txGiveBack_descs (s : State) (i : Nat) (d : Desc) :
    (txGiveBack s i d).descs = (writeDesc s .tx i { d with st := Status.txDone, own := .hostOwned }).descs := rfl
@[simp] theorem txGiveBack_mem (s : State) (i : Nat) (d : Desc) : (txGiveBack s i d).mem = s.mem := rfl
@[simp] theorem txGiveBack_cur (s : State) (i : Nat) (d : Desc) : (txGiveBack s i d).cur = s.cur := rfl
@[simp] theorem txGiveBack_ccur (s : State) (i : Nat) (d : Desc) :
    (txGiveBack s i d).ccur = s.ccur.set .tx (advance s.cfg .tx i) := rfl
@[simp] theorem txGiveBack_txEn (s : State) (i : Nat) (d : Desc) : (txGiveBack s i d).txEn = s.txEn := rfl
@[simp] theorem txGiveBack_rxEn (s : State) (i : Nat) (d : Desc) : (txGiveBack s i d).rxEn = s.rxEn := rfl
@[simp] theorem txGiveBack_kick (s : State) (i : Nat) (d : Desc) : (txGiveBack s i d).kick = s.kick := rfl
@[simp] theorem txGiveBack_pend (s : State) (i : Nat) (d : Desc) : (txGiveBack s i d).pend = s.pend := rfl
@[simp] theorem txGiveBack_ie (s : State) (i : Nat) (d : Desc) : (txGiveBack s i d).ie = s.ie := rfl
@[simp] theorem txGiveBack_act (s : State) (i : Nat) (d : Desc) : (txGiveBack s i d).act = s.act := rfl
@[simp] theorem txGiveBack_hwaddr (s : State) (i : Nat) (d : Desc) : (txGiveBack s i d).hwaddr = s.hwaddr := rfl
@[simp] theorem txGiveBack_mtu (s : State) (i : Nat) (d : Desc) : (txGiveBack s i d).mtu = s.mtu := rfl
@[simp] theorem txGiveBack_fBcast (s : State) (i : Nat) (d : Desc) : (txGiveBack s i d).fBcast = s.fBcast := rfl
@[simp] theorem txGiveBack_fEtharp (s : State) (i : Nat) (d : Desc) : (txGiveBack s i d).fEtharp = s.fEtharp := rfl
@[simp] theorem txGiveBack_fEther (s : State) (i : Nat) (d : Desc) : (txGiveBack s i d).fEther = s.fEther := rfl
@[simp] theorem txGiveBack_linkUp (s : State) (i : Nat) (d : Desc) : (txGiveBack s i d).linkUp = s.linkUp := rfl
@[simp] theorem txGiveBack_ifcfg (s : State) (i : Nat) (d : Desc) : (txGiveBack s i d).ifcfg = s.ifcfg := rfl
@[simp] theorem txGiveBack_cntErr (s : State) (i : Nat) (d : Desc) : (txGiveBack s i d).cntErr = s.cntErr := rfl
@[simp] theorem txGiveBack_cntNobuf (s : State) (i : Nat) (d : Desc) : (txGiveBack s i d).cntNobuf = s.cntNobuf := rfl
@[simp] theorem txGiveBack_cntMiss (s : State) (i : Nat) (d : Desc) : (txGiveBack s i d).cntMiss = s.cntMiss := rfl
@[simp] theorem txGiveBack_cntDlverr (s : State) (i : Nat) (d : Desc) :
    (txGiveBack s i d).cntDlverr = s.cntDlverr := rfl
@[simp] theorem txGiveBack_ctxStack (s : State) (i : Nat) (d : Desc) : (txGiveBack s i d).ctxStack = s.ctxStack := rfl
@[simp] theorem txGiveBack_pc (s : State) (i : Nat) (d : Desc) : (txGiveBack s i d).pc = s.pc := rfl
@[simp] theorem txGiveBack_ipc (s : State) (i : Nat) (d : Desc) : (txGiveBack s i d).ipc = s.ipc := rfl
@[simp] theorem txGiveBack_drain (s : State) (i : Nat) (d : Desc) : (txGiveBack s i d).drain = s.drain := rfl
@[simp] theorem txGiveBack_phyLink (s : State) (i : Nat) (d : Desc) : (txGiveBack s i d).phyLink = s.phyLink := rfl
@[simp] theorem txGiveBack_wireOut (s : State) (i : Nat) (d : Desc) : (txGiveBack s i d).wireOut = s.wireOut := rfl
@[simp] theorem txGiveBack_delivered (s : State) (i : Nat) (d : Desc) :
    (txGiveBack s i d).delivered = s.delivered := rfl
@[simp] theorem txGiveBack_results (s : State) (i : Nat) (d : Desc) : (txGiveBack s i d).results = s.results := rfl
@[simp] theorem txGiveBack_prog (s : State) (i : Nat) (d : Desc) : (txGiveBack s i d).prog = s.prog := rfl
@[simp] theorem txGiveBack_sched (s : State) (i : Nat) (d : Desc) : (txGiveBack s i d).sched = s.sched := rfl
@[simp] theorem txGiveBack_allocDraws (s : State) (i : Nat) (d : Desc) :
    (txGiveBack s i d).allocDraws = s.allocDraws := rfl
@[simp] theorem txGiveBack_deliverDraws (s : State) (i : Nat) (d : Desc) :
    (txGiveBack s i d).deliverDraws = s.deliverDraws := rfl
@[simp] theorem txGiveBack_freeCount (s : State) (i : Nat) (d : Desc) :
    (txGiveBack s i d).freeCount = s.freeCount := rfl

/-! `setDrain` -/

@[simp] theorem setDrain_cfg (s : State) (d : DrainState) : (setDrain s d).cfg = s.cfg := rfl
@[simp] theorem setDrain_phase (s : State) (d : DrainState) : (setDrain s d).phase = s.phase := rfl
@[simp] theorem setDrain_descs (s : State) (d : DrainState) : (setDrain s d).descs = s.descs := rfl
@[simp] theorem setDrain_mem (s : State) (d : DrainState) : (setDrain s d).mem = s.mem := rfl
@[simp] theorem setDrain_cur (s : State) (d : DrainState) : (setDrain s d).cur = s.cur := rfl
@[simp] theorem setDrain_ccur (s : State) (d : DrainState) : (setDrain s d).ccur = s.ccur := rfl
@[simp] theorem setDrain_txEn (s : State) (d : DrainState) : (setDrain s d).txEn = s.txEn := rfl
@[simp] theorem setDrain_rxEn (s : State) (d : DrainState) : (setDrain s d).rxEn = s.rxEn := rfl
@[simp] theorem setDrain_kick (s : State) (d : DrainState) : (setDrain s d).kick = s.kick := rfl
@[simp] theorem setDrain_pend (s : State) (d : DrainState) : (setDrain s d).pend = s.pend := rfl
@[simp] theorem setDrain_ie (s : State) (d : DrainState) : (setDrain s d).ie = s.ie := rfl
@[simp] theorem setDrain_act (s : State) (d : DrainState) : (setDrain s d).act = s.act := rfl
@[simp] theorem setDrain_hwaddr (s : State) (d : DrainState) : (setDrain s d).hwaddr = s.hwaddr := rfl
@[simp] theorem setDrain_mtu (s : State) (d : DrainState) : (setDrain s d).mtu = s.mtu := rfl
@[simp] theorem setDrain_fBcast (s : State) (d : DrainState) : (setDrain s d).fBcast = s.fBcast := rfl
@[simp] theorem setDrain_fEtharp (s : State) (d : DrainState) : (setDrain s d).fEtharp = s.fEtharp := rfl
@[simp] theorem setDrain_fEther (s : State) (d : DrainState) : (setDrain s d).fEther = s.fEther := rfl
@[simp] theorem setDrain_linkUp (s : State) (d : DrainState) : (setDrain s d).linkUp = s.linkUp := rfl
@[simp] theorem setDrain_ifcfg (s : State) (d : DrainState) : (setDrain s d).ifcfg = s.ifcfg := rfl
@[simp] theorem setDrain_cntErr (s : State) (d : DrainState) : (setDrain s d).cntErr = s.cntErr := rfl
@[simp] theorem setDrain_cntNobuf (s : State) (d : DrainState) : (setDrain s d).cntNobuf = s.cntNobuf := rfl
@[simp] theorem setDrain_cntMiss (s : State) (d : DrainState) : (setDrain s d).cntMiss = s.cntMiss := rfl
@[simp] theorem setDrain_cntDlverr (s : State) (d : DrainState) : (setDrain s d).cntDlverr = s.cntDlverr := rfl
@[simp] theorem setDrain_ctxStack (s : State) (d : DrainState) : (setDrain s d).ctxStack = s.ctxStack := rfl
@[simp] theorem setDrain_pc (s : State) (d : DrainState) : (setDrain s d).pc = s.pc := rfl
@[simp] theorem setDrain_ipc (s : State) (d : DrainState) : (setDrain s d).ipc = s.ipc := rfl
@[simp] theorem setDrain_drain (s : State) (d : DrainState) : (setDrain s d).drain = s.drain.set (running s) d := rfl
@[simp] theorem setDrain_phyLink (s : State) (d : DrainState) : (setDrain s d).phyLink = s.phyLink := rfl
@[simp] theorem setDrain_wireOut (s : State) (d : DrainState) : (setDrain s d).wireOut = s.wireOut := rfl
@[simp] theorem setDrain_delivered (s : State) (d : DrainState) : (setDrain s d).delivered = s.delivered := rfl
@[simp] theorem setDrain_results (s : State) (d : DrainState) : (setDrain s d).results = s.results := rfl
@[simp] theorem setDrain_prog (s : State) (d : DrainState) : (setDrain s d).prog = s.prog := rfl
@[simp] theorem setDrain_sched (s : State) (d : DrainState) : (setDrain s d).sched = s.sched := rfl
@[simp] theorem setDrain_allocDraws (s : State) (d : DrainState) : (setDrain s d).allocDraws = s.allocDraws := rfl
@[simp] theorem setDrain_deliverDraws (s : State) (d : DrainState) :
    (setDrain s d).deliverDraws = s.deliverDraws := rfl
@[simp] theorem setDrain_freeCount (s : State) (d : DrainState) : (setDrain s d).freeCount = s.freeCount := rfl

/-! `enterIsr` -/

@[simp] theorem enterIsr_cfg (s : State) (src : Source) : (enterIsr s src).cfg = s.cfg := rfl
@[simp] theorem enterIsr_phase (s : State) (src : Source) : (enterIsr s src).phase = s.phase := rfl
@[simp] theorem enterIsr_descs (s : State) (src : Source) : (enterIsr s src).descs = s.descs := rfl
@[simp] theorem enterIsr_mem (s : State) (src : Source) : (enterIsr s src).mem = s.mem := rfl
@[simp] theorem enterIsr_cur (s : State) (src : Source) : (enterIsr s src).cur = s.cur := rfl
@[simp] theorem enterIsr_ccur (s : State) (src : Source) : (enterIsr s src).ccur = s.ccur := rfl
@[simp] theorem enterIsr_txEn (s : State) (src : Source) : (enterIsr s src).txEn = s.txEn := rfl
@[simp] theorem enterIsr_rxEn (s : State) (src : Source) : (enterIsr s src).rxEn = s.rxEn := rfl
@[simp] theorem enterIsr_kick (s : State) (src : Source) : (enterIsr s src).kick = s.kick := rfl
@[simp] theorem enterIsr_pend (s : State) (src : Source) : (enterIsr s src).pend = s.pend := rfl
@[simp] theorem enterIsr_ie (s : State) (src : Source) : (enterIsr s src).ie = s.ie := rfl
@[simp] theorem enterIsr_act (s : State) (src : Source) : (enterIsr s src).act = s.act.set src true := rfl
@[simp] theorem enterIsr_hwaddr (s : State) (src : Source) : (enterIsr s src).hwaddr = s.hwaddr := rfl
@[simp] theorem enterIsr_mtu (s : State) (src : Source) : (enterIsr s src).mtu = s.mtu := rfl
@[simp] theorem enterIsr_fBcast (s : State) (src : Source) : (enterIsr s src).fBcast = s.fBcast := rfl
@[simp] theorem enterIsr_fEtharp (s : State) (src : Source) : (enterIsr s src).fEtharp = s.fEtharp := rfl
@[simp] theorem enterIsr_fEther (s : State) (src : Source) : (enterIsr s src).fEther = s.fEther := rfl
@[simp] theorem enterIsr_linkUp (s : State) (src : Source) : (enterIsr s src).linkUp = s.linkUp := rfl
@[simp] theorem enterIsr_ifcfg (s : State) (src : Source) : (enterIsr s src).ifcfg = s.ifcfg := rfl
@[simp] theorem enterIsr_cntErr (s : State) (src : Source) : (enterIsr s src).cntErr = s.cntErr := rfl
@[simp] theorem enterIsr_cntNobuf (s : State) (src : Source) : (enterIsr s src).cntNobuf = s.cntNobuf := rfl
@[simp] theorem enterIsr_cntMiss (s : State) (src : Source) : (enterIsr s src).cntMiss = s.cntMiss := rfl
@[simp] theorem enterIsr_cntDlverr (s : State) (src : Source) : (enterIsr s src).cntDlverr = s.cntDlverr := rfl
@[simp] theorem enterIsr_ctxStack (s : State) (src : Source) :
    (enterIsr s src).ctxStack = handlerOf src :: s.ctxStack := rfl
@[simp] theorem enterIsr_pc (s : State) (src : Source) : (enterIsr s src).pc = s.pc := rfl
@[simp] theorem enterIsr_ipc (s : State) (src : Source) : (enterIsr s src).ipc = s.ipc.set src 0 := rfl
@[simp] theorem enterIsr_drain (s : State) (src : Source) :
    (enterIsr s src).drain = s.drain.set (handlerOf src) .idle := rfl
@[simp] theorem enterIsr_phyLink (s : State) (src : Source) : (enterIsr s src).phyLink = s.phyLink := rfl
@[simp] theorem enterIsr_wireOut (s : State) (src : Source) : (enterIsr s src).wireOut = s.wireOut := rfl
@[simp] theorem enterIsr_delivered (s : State) (src : Source) : (enterIsr s src).delivered = s.delivered := rfl
@[simp] theorem enterIsr_results (s : State) (src : Source) : (enterIsr s src).results = s.results := rfl
@[simp] theorem enterIsr_prog (s : State) (src : Source) : (enterIsr s src).prog = s.prog := rfl
@[simp] theorem enterIsr_sched (s : State) (src : Source) : (enterIsr s src).sched = s.sched := rfl
@[simp] theorem enterIsr_allocDraws (s : State) (src : Source) : (enterIsr s src).allocDraws = s.allocDraws := rfl
@[simp] theorem enterIsr_deliverDraws (s : State) (src : Source) :
    (enterIsr s src).deliverDraws = s.deliverDraws := rfl
@[simp] theorem enterIsr_freeCount (s : State) (src : Source) : (enterIsr s src).freeCount = s.freeCount := rfl

/-! `returnIsr` -/

@[simp] theorem returnIsr_cfg (s : State) (src : Source) : (returnIsr s src).cfg = s.cfg := rfl
@[simp] theorem returnIsr_phase (s : State) (src : Source) : (returnIsr s src).phase = s.phase := rfl
@[simp] theorem returnIsr_descs (s : State) (src : Source) : (returnIsr s src).descs = s.descs := rfl
@[simp] theorem returnIsr_mem (s : State) (src : Source) : (returnIsr s src).mem = s.mem := rfl
@[simp] theorem returnIsr_cur (s : State) (src : Source) : (returnIsr s src).cur = s.cur := rfl
@[simp] theorem returnIsr_ccur (s : State) (src : Source) : (returnIsr s src).ccur = s.ccur := rfl
@[simp] theorem returnIsr_txEn (s : State) (src : Source) : (returnIsr s src).txEn = s.txEn := rfl
@[simp] theorem returnIsr_rxEn (s : State) (src : Source) : (returnIsr s src).rxEn = s.rxEn := rfl
@[simp] theorem returnIsr_kick (s : State) (src : Source) : (returnIsr s src).kick = s.kick := rfl
@[simp] theorem returnIsr_pend (s : State) (src : Source) : (returnIsr s src).pend = s.pend := rfl
@[simp] theorem returnIsr_ie (s : State) (src : Source) : (returnIsr s src).ie = s.ie := rfl
@[simp] theorem returnIsr_act (s : State) (src : Source) : (returnIsr s src).act = s.act.set src false := rfl
@[simp] theorem returnIsr_hwaddr (s : State) (src : Source) : (returnIsr s src).hwaddr = s.hwaddr := rfl
@[simp] theorem returnIsr_mtu (s : State) (src : Source) : (returnIsr s src).mtu = s.mtu := rfl
@[simp] theorem returnIsr_fBcast (s : State) (src : Source) : (returnIsr s src).fBcast = s.fBcast := rfl
@[simp] theorem returnIsr_fEtharp (s : State) (src : Source) : (returnIsr s src).fEtharp = s.fEtharp := rfl
@[simp] theorem returnIsr_fEther (s : State) (src : Source) : (returnIsr s src).fEther = s.fEther := rfl
@[simp] theorem returnIsr_linkUp (s : State) (src : Source) : (returnIsr s src).linkUp = s.linkUp := rfl
@[simp] theorem returnIsr_ifcfg (s : State) (src : Source) : (returnIsr s src).ifcfg = s.ifcfg := rfl
@[simp] theorem returnIsr_cntErr (s : State) (src : Source) : (returnIsr s src).cntErr = s.cntErr := rfl
@[simp] theorem returnIsr_cntNobuf (s : State) (src : Source) : (returnIsr s src).cntNobuf = s.cntNobuf := rfl
@[simp] theorem returnIsr_cntMiss (s : State) (src : Source) : (returnIsr s src).cntMiss = s.cntMiss := rfl
@[simp] theorem returnIsr_cntDlverr (s : State) (src : Source) : (returnIsr s src).cntDlverr = s.cntDlverr := rfl
@[simp] theorem returnIsr_ctxStack (s : State) (src : Source) : (returnIsr s src).ctxStack = s.ctxStack.tail := rfl
@[simp] theorem returnIsr_pc (s : State) (src : Source) : (returnIsr s src).pc = s.pc := rfl
@[simp] theorem returnIsr_ipc (s : State) (src : Source) : (returnIsr s src).ipc = s.ipc := rfl
@[simp] theorem returnIsr_drain (s : State) (src : Source) : (returnIsr s src).drain = s.drain := rfl
@[simp] theorem returnIsr_phyLink (s : State) (src : Source) : (returnIsr s src).phyLink = s.phyLink := rfl
@[simp] theorem returnIsr_wireOut (s : State) (src : Source) : (returnIsr s src).wireOut = s.wireOut := rfl
@[simp] theorem returnIsr_delivered (s : State) (src : Source) : (returnIsr s src).delivered = s.delivered := rfl
@[simp] theorem returnIsr_results (s : State) (src : Source) : (returnIsr s src).results = s.results := rfl
@[simp] theorem returnIsr_prog (s : State) (src : Source) : (returnIsr s src).prog = s.prog := rfl
@[simp] theorem returnIsr_sched (s : State) (src : Source) : (returnIsr s src).sched = s.sched := rfl
@[simp] theorem returnIsr_allocDraws (s : State) (src : Source) : (returnIsr s src).allocDraws = s.allocDraws := rfl
@[simp] theorem returnIsr_deliverDraws (s : State) (src : Source) :
    (returnIsr s src).deliverDraws = s.deliverDraws := rfl
@[simp] theorem returnIsr_freeCount (s : State) (src : Source) : (returnIsr s src).freeCount = s.freeCount := rfl

/-! `initState` -/

@[simp] theorem initState_cfg (s : State) : (initState s).cfg = s.cfg := rfl
@[simp] theorem initState_phase (s : State) : (initState s).phase = .ready := rfl
@[simp] theorem initState_descs (s : State) : (initState s).descs = ⟨initRing s.cfg .tx, initRing s.cfg .rx⟩ := rfl
@[simp] theorem initState_mem (s : State) : (initState s).mem = s.mem := rfl
@[simp] theorem initState_cur (s : State) : (initState s).cur = ⟨0, 0⟩ := rfl
@[simp] theorem initState_ccur (s : State) : (initState s).ccur = ⟨0, 0⟩ := rfl
@[simp] theorem initState_txEn (s : State) : (initState s).txEn = false := rfl
@[simp] theorem initState_rxEn (s : State) : (initState s).rxEn = false := rfl
@[simp] theorem initState_kick (s : State) : (initState s).kick = false := rfl
@[simp] theorem initState_pend (s : State) : (initState s).pend = ⟨false, false⟩ := rfl
@[simp] theorem initState_ie (s : State) : (initState s).ie = ⟨false, false⟩ := rfl
@[simp] theorem initState_act (s : State) : (initState s).act = s.act := rfl
@[simp] theorem initState_hwaddr (s : State) : (initState s).hwaddr = s.hwaddr := rfl
@[simp] theorem initState_mtu (s : State) : (initState s).mtu = s.mtu := rfl
@[simp] theorem initState_fBcast (s : State) : (initState s).fBcast = s.fBcast := rfl
@[simp] theorem initState_fEtharp (s : State) : (initState s).fEtharp = s.fEtharp := rfl
@[simp] theorem initState_fEther (s : State) : (initState s).fEther = s.fEther := rfl
@[simp] theorem initState_linkUp (s : State) : (initState s).linkUp = s.linkUp := rfl
@[simp] theorem initState_ifcfg (s : State) : (initState s).ifcfg = false := rfl
@[simp] theorem initState_cntErr (s : State) : (initState s).cntErr = 0#32 := rfl
@[simp] theorem initState_cntNobuf (s : State) : (initState s).cntNobuf = 0#32 := rfl
@[simp] theorem initState_cntMiss (s : State) : (initState s).cntMiss = 0#32 := rfl
@[simp] theorem initState_cntDlverr (s : State) : (initState s).cntDlverr = 0#32 := rfl
@[simp] theorem initState_ctxStack (s : State) : (initState s).ctxStack = s.ctxStack := rfl
@[simp] theorem initState_pc (s : State) : (initState s).pc = s.pc := rfl
@[simp] theorem initState_ipc (s : State) : (initState s).ipc = s.ipc := rfl
@[simp] theorem initState_drain (s : State) : (initState s).drain = s.drain := rfl
@[simp] theorem initState_phyLink (s : State) : (initState s).phyLink = s.phyLink := rfl
@[simp] theorem initState_wireOut (s : State) : (initState s).wireOut = s.wireOut := rfl
@[simp] theorem initState_delivered (s : State) : (initState s).delivered = s.delivered := rfl
@[simp] theorem initState_results (s : State) : (initState s).results = s.results := rfl
@[simp] theorem initState_prog (s : State) : (initState s).prog = s.prog := rfl
@[simp] theorem initState_sched (s : State) : (initState s).sched = s.sched := rfl
@[simp] theorem initState_allocDraws (s : State) : (initState s).allocDraws = s.allocDraws := rfl
@[simp] theorem initState_deliverDraws (s : State) : (initState s).deliverDraws = s.deliverDraws := rfl
@[simp] theorem initState_freeCount (s : State) : (initState s).freeCount = s.freeCount := rfl

/-! `ifUpState` -/

@[simp] theorem ifUpState_cfg (s : State) (h : HwAddr) (m : Half) : (ifUpState s h m).cfg = s.cfg := rfl
@[simp] theorem ifUpState_phase (s : State) (h : HwAddr) (m : Half) : (ifUpState s h m).phase = s.phase := rfl
@[simp] theorem ifUpState_descs (s : State) (h : HwAddr) (m : Half) : (ifUpState s h m).descs = s.descs := rfl
@[simp] theorem ifUpState_mem (s : State) (h : HwAddr) (m : Half) : (ifUpState s h m).mem = s.mem := rfl
@[simp] theorem ifUpState_cur (s : State) (h : HwAddr) (m : Half) : (ifUpState s h m).cur = s.cur := rfl
@[simp] theorem ifUpState_ccur (s : State) (h : HwAddr) (m : Half) : (ifUpState s h m).ccur = s.ccur := rfl
@[simp] theorem ifUpState_txEn (s : State) (h : HwAddr) (m : Half) : (ifUpState s h m).txEn = true := rfl
@[simp] theorem ifUpState_rxEn (s : State) (h : HwAddr) (m : Half) : (ifUpState s h m).rxEn = true := rfl
@[simp] theorem ifUpState_kick (s : State) (h : HwAddr) (m : Half) : (ifUpState s h m).kick = s.kick := rfl
@[simp] theorem ifUpState_pend (s : State) (h : HwAddr) (m : Half) : (ifUpState s h m).pend = s.pend := rfl
@[simp] theorem ifUpState_ie (s : State) (h : HwAddr) (m : Half) : (ifUpState s h m).ie = ⟨true, true⟩ := rfl
@[simp] theorem ifUpState_act (s : State) (h : HwAddr) (m : Half) : (ifUpState s h m).act = s.act := rfl
@[simp] theorem ifUpState_hwaddr (s : State) (h : HwAddr) (m : Half) : (ifUpState s h m).hwaddr = h := rfl
@[simp] theorem ifUpState_mtu (s : State) (h : HwAddr) (m : Half) : (ifUpState s h m).mtu = m := rfl
@[simp] theorem ifUpState_fBcast (s : State) (h : HwAddr) (m : Half) : (ifUpState s h m).fBcast = true := rfl
@[simp] theorem ifUpState_fEtharp (s : State) (h : HwAddr) (m : Half) : (ifUpState s h m).fEtharp = true := rfl
@[simp] theorem ifUpState_fEther (s : State) (h : HwAddr) (m : Half) : (ifUpState s h m).fEther = true := rfl
@[simp] theorem ifUpState_linkUp (s : State) (h : HwAddr) (m : Half) : (ifUpState s h m).linkUp = s.linkUp := rfl
@[simp] theorem ifUpState_ifcfg (s : State) (h : HwAddr) (m : Half) : (ifUpState s h m).ifcfg = true := rfl
@[simp] theorem ifUpState_cntErr (s : State) (h : HwAddr) (m : Half) : (ifUpState s h m).cntErr = s.cntErr := rfl
@[simp] theorem ifUpState_cntNobuf (s : State) (h : HwAddr) (m : Half) :
    (ifUpState s h m).cntNobuf = s.cntNobuf := rfl
@[simp] theorem ifUpState_cntMiss (s : State) (h : HwAddr) (m : Half) : (ifUpState s h m).cntMiss = s.cntMiss := rfl
@[simp] theorem ifUpState_cntDlverr (s : State) (h : HwAddr) (m : Half) :
    (ifUpState s h m).cntDlverr = s.cntDlverr := rfl
@[simp] theorem ifUpState_ctxStack (s : State) (h : HwAddr) (m : Half) :
    (ifUpState s h m).ctxStack = s.ctxStack := rfl
@[simp] theorem ifUpState_pc (s : State) (h : HwAddr) (m : Half) : (ifUpState s h m).pc = s.pc := rfl
@[simp] theorem ifUpState_ipc (s : State) (h : HwAddr) (m : Half) : (ifUpState s h m).ipc = s.ipc := rfl
@[simp] theorem ifUpState_drain (s : State) (h : HwAddr) (m : Half) : (ifUpState s h m).drain = s.drain := rfl
@[simp] theorem ifUpState_phyLink (s : State) (h : HwAddr) (m : Half) : (ifUpState s h m).phyLink = s.phyLink := rfl
@[simp] theorem ifUpState_wireOut (s : State) (h : HwAddr) (m : Half) : (ifUpState s h m).wireOut = s.wireOut := rfl
@[simp] theorem ifUpState_delivered (s : State) (h : HwAddr) (m : Half) :
    (ifUpState s h m).delivered = s.delivered := rfl
@[simp] theorem ifUpState_results (s : State) (h : HwAddr) (m : Half) : (ifUpState s h m).results = s.results := rfl
@[simp] theorem ifUpState_prog (s : State) (h : HwAddr) (m : Half) : (ifUpState s h m).prog = s.prog := rfl
@[simp] theorem ifUpState_sched (s : State) (h : HwAddr) (m : Half) : (ifUpState s h m).sched = s.sched := rfl
@[simp] theorem ifUpState_allocDraws (s : State) (h : HwAddr) (m : Half) :
    (ifUpState s h m).allocDraws = s.allocDraws := rfl
@[simp] theorem ifUpState_deliverDraws (s : State) (h : HwAddr) (m : Half) :
    (ifUpState s h m).deliverDraws = s.deliverDraws := rfl
@[simp] theorem ifUpState_freeCount (s : State) (h : HwAddr) (m : Half) :
    (ifUpState s h m).freeCount = s.freeCount := rfl

/-! `drawAlloc` -/

@[simp] theorem drawAlloc_cfg (s : State) : ((drawAlloc s).2).cfg = s.cfg := by
  unfold drawAlloc; split <;> rfl
@[simp] theorem drawAlloc_phase (s : State) : ((drawAlloc s).2).phase = s.phase := by
  unfold drawAlloc; split <;> rfl
@[simp] theorem drawAlloc_descs (s : State) : ((drawAlloc s).2).descs = s.descs := by
  unfold drawAlloc; split <;> rfl
@[simp] theorem drawAlloc_mem (s : State) : ((drawAlloc s).2).mem = s.mem := by
  unfold drawAlloc; split <;> rfl
@[simp] theorem drawAlloc_cur (s : State) : ((drawAlloc s).2).cur = s.cur := by
  unfold drawAlloc; split <;> rfl
@[simp] theorem drawAlloc_ccur (s : State) : ((drawAlloc s).2).ccur = s.ccur := by
  unfold drawAlloc; split <;> rfl
@[simp] theorem drawAlloc_txEn (s : State) : ((drawAlloc s).2).txEn = s.txEn := by
  unfold drawAlloc; split <;> rfl
@[simp] theorem drawAlloc_rxEn (s : State) : ((drawAlloc s).2).rxEn = s.rxEn := by
  unfold drawAlloc; split <;> rfl
@[simp] theorem drawAlloc_kick (s : State) : ((drawAlloc s).2).kick = s.kick := by
  unfold drawAlloc; split <;> rfl
@[simp] theorem drawAlloc_pend (s : State) : ((drawAlloc s).2).pend = s.pend := by
  unfold drawAlloc; split <;> rfl
@[simp] theorem drawAlloc_ie (s : State) : ((drawAlloc s).2).ie = s.ie := by
  unfold drawAlloc; split <;> rfl
@[simp] theorem drawAlloc_act (s : State) : ((drawAlloc s).2).act = s.act := by
  unfold drawAlloc; split <;> rfl
@[simp] theorem drawAlloc_hwaddr (s : State) : ((drawAlloc s).2).hwaddr = s.hwaddr := by
  unfold drawAlloc; split <;> rfl
@[simp] theorem drawAlloc_mtu (s : State) : ((drawAlloc s).2).mtu = s.mtu := by
  unfold drawAlloc; split <;> rfl
@[simp] theorem drawAlloc_fBcast (s : State) : ((drawAlloc s).2).fBcast = s.fBcast := by
  unfold drawAlloc; split <;> rfl
@[simp] theorem drawAlloc_fEtharp (s : State) : ((drawAlloc s).2).fEtharp = s.fEtharp := by
  unfold drawAlloc; split <;> rfl
@[simp] theorem drawAlloc_fEther (s : State) : ((drawAlloc s).2).fEther = s.fEther := by
  unfold drawAlloc; split <;> rfl
@[simp] theorem drawAlloc_linkUp (s : State) : ((drawAlloc s).2).linkUp = s.linkUp := by
  unfold drawAlloc; split <;> rfl
@[simp] theorem drawAlloc_ifcfg (s : State) : ((drawAlloc s).2).ifcfg = s.ifcfg := by
  unfold drawAlloc; split <;> rfl
@[simp] theorem drawAlloc_cntErr (s : State) : ((drawAlloc s).2).cntErr = s.cntErr := by
  unfold drawAlloc; split <;> rfl
@[simp] theorem drawAlloc_cntNobuf (s : State) : ((drawAlloc s).2).cntNobuf = s.cntNobuf := by
  unfold drawAlloc; split <;> rfl
@[simp] theorem drawAlloc_cntMiss (s : State) : ((drawAlloc s).2).cntMiss = s.cntMiss := by
  unfold drawAlloc; split <;> rfl
@[simp] theorem drawAlloc_cntDlverr (s : State) : ((drawAlloc s).2).cntDlverr = s.cntDlverr := by
  unfold drawAlloc; split <;> rfl
@[simp] theorem drawAlloc_ctxStack (s : State) : ((drawAlloc s).2).ctxStack = s.ctxStack := by
  unfold drawAlloc; split <;> rfl
@[simp] theorem drawAlloc_pc (s : State) : ((drawAlloc s).2).pc = s.pc := by
  unfold drawAlloc; split <;> rfl
@[simp] theorem drawAlloc_ipc (s : State) : ((drawAlloc s).2).ipc = s.ipc := by
  unfold drawAlloc; split <;> rfl
@[simp] theorem drawAlloc_drain (s : State) : ((drawAlloc s).2).drain = s.drain := by
  unfold drawAlloc; split <;> rfl
@[simp] theorem drawAlloc_phyLink (s : State) : ((drawAlloc s).2).phyLink = s.phyLink := by
  unfold drawAlloc; split <;> rfl
@[simp] theorem drawAlloc_wireOut (s : State) : ((drawAlloc s).2).wireOut = s.wireOut := by
  unfold drawAlloc; split <;> rfl
@[simp] theorem drawAlloc_delivered (s : State) : ((drawAlloc s).2).delivered = s.delivered := by
  unfold drawAlloc; split <;> rfl
@[simp] theorem drawAlloc_results (s : State) : ((drawAlloc s).2).results = s.results := by
  unfold drawAlloc; split <;> rfl
@[simp] theorem drawAlloc_prog (s : State) : ((drawAlloc s).2).prog = s.prog := by
  unfold drawAlloc; split <;> rfl
@[simp] theorem drawAlloc_sched (s : State) : ((drawAlloc s).2).sched = s.sched := by
  unfold drawAlloc; split <;> rfl
@[simp] theorem drawAlloc_deliverDraws (s : State) : ((drawAlloc s).2).deliverDraws = s.deliverDraws := by
  unfold drawAlloc; split <;> rfl

/-! `drawDeliver` -/

@[simp] theorem drawDeliver_cfg (s : State) : ((drawDeliver s).2).cfg = s.cfg := by
  unfold drawDeliver; split <;> rfl
@[simp] theorem drawDeliver_phase (s : State) : ((drawDeliver s).2).phase = s.phase := by
  unfold drawDeliver; split <;> rfl
@[simp] theorem drawDeliver_descs (s : State) : ((drawDeliver s).2).descs = s.descs := by
  unfold drawDeliver; split <;> rfl
@[simp] theorem drawDeliver_mem (s : State) : ((drawDeliver s).2).mem = s.mem := by
  unfold drawDeliver; split <;> rfl
@[simp] theorem drawDeliver_cur (s : State) : ((drawDeliver s).2).cur = s.cur := by
  unfold drawDeliver; split <;> rfl
@[simp] theorem drawDeliver_ccur (s : State) : ((drawDeliver s).2).ccur = s.ccur := by
  unfold drawDeliver; split <;> rfl
@[simp] theorem drawDeliver_txEn (s : State) : ((drawDeliver s).2).txEn = s.txEn := by
  unfold drawDeliver; split <;> rfl
@[simp] theorem drawDeliver_rxEn (s : State) : ((drawDeliver s).2).rxEn = s.rxEn := by
  unfold drawDeliver; split <;> rfl
@[simp] theorem drawDeliver_kick (s : State) : ((drawDeliver s).2).kick = s.kick := by
  unfold drawDeliver; split <;> rfl
@[simp] theorem drawDeliver_pend (s : State) : ((drawDeliver s).2).pend = s.pend := by
  unfold drawDeliver; split <;> rfl
@[simp] theorem drawDeliver_ie (s : State) : ((drawDeliver s).2).ie = s.ie := by
  unfold drawDeliver; split <;> rfl
@[simp] theorem drawDeliver_act (s : State) : ((drawDeliver s).2).act = s.act := by
  unfold drawDeliver; split <;> rfl
@[simp] theorem drawDeliver_hwaddr (s : State) : ((drawDeliver s).2).hwaddr = s.hwaddr := by
  unfold drawDeliver; split <;> rfl
@[simp] theorem drawDeliver_mtu (s : State) : ((drawDeliver s).2).mtu = s.mtu := by
  unfold drawDeliver; split <;> rfl
@[simp] theorem drawDeliver_fBcast (s : State) : ((drawDeliver s).2).fBcast = s.fBcast := by
  unfold drawDeliver; split <;> rfl
@[simp] theorem drawDeliver_fEtharp (s : State) : ((drawDeliver s).2).fEtharp = s.fEtharp := by
  unfold drawDeliver; split <;> rfl
@[simp] theorem drawDeliver_fEther (s : State) : ((drawDeliver s).2).fEther = s.fEther := by
  unfold drawDeliver; split <;> rfl
@[simp] theorem drawDeliver_linkUp (s : State) : ((drawDeliver s).2).linkUp = s.linkUp := by
  unfold drawDeliver; split <;> rfl
@[simp] theorem drawDeliver_ifcfg (s : State) : ((drawDeliver s).2).ifcfg = s.ifcfg := by
  unfold drawDeliver; split <;> rfl
@[simp] theorem drawDeliver_cntErr (s : State) : ((drawDeliver s).2).cntErr = s.cntErr := by
  unfold drawDeliver; split <;> rfl
@[simp] theorem drawDeliver_cntNobuf (s : State) : ((drawDeliver s).2).cntNobuf = s.cntNobuf := by
  unfold drawDeliver; split <;> rfl
@[simp] theorem drawDeliver_cntMiss (s : State) : ((drawDeliver s).2).cntMiss = s.cntMiss := by
  unfold drawDeliver; split <;> rfl
@[simp] theorem drawDeliver_cntDlverr (s : State) : ((drawDeliver s).2).cntDlverr = s.cntDlverr := by
  unfold drawDeliver; split <;> rfl
@[simp] theorem drawDeliver_ctxStack (s : State) : ((drawDeliver s).2).ctxStack = s.ctxStack := by
  unfold drawDeliver; split <;> rfl
@[simp] theorem drawDeliver_pc (s : State) : ((drawDeliver s).2).pc = s.pc := by
  unfold drawDeliver; split <;> rfl
@[simp] theorem drawDeliver_ipc (s : State) : ((drawDeliver s).2).ipc = s.ipc := by
  unfold drawDeliver; split <;> rfl
@[simp] theorem drawDeliver_drain (s : State) : ((drawDeliver s).2).drain = s.drain := by
  unfold drawDeliver; split <;> rfl
@[simp] theorem drawDeliver_phyLink (s : State) : ((drawDeliver s).2).phyLink = s.phyLink := by
  unfold drawDeliver; split <;> rfl
@[simp] theorem drawDeliver_wireOut (s : State) : ((drawDeliver s).2).wireOut = s.wireOut := by
  unfold drawDeliver; split <;> rfl
@[simp] theorem drawDeliver_delivered (s : State) : ((drawDeliver s).2).delivered = s.delivered := by
  unfold drawDeliver; split <;> rfl
@[simp] theorem drawDeliver_results (s : State) : ((drawDeliver s).2).results = s.results := by
  unfold drawDeliver; split <;> rfl
@[simp] theorem drawDeliver_prog (s : State) : ((drawDeliver s).2).prog = s.prog := by
  unfold drawDeliver; split <;> rfl
@[simp] theorem drawDeliver_sched (s : State) : ((drawDeliver s).2).sched = s.sched := by
  unfold drawDeliver; split <;> rfl
@[simp] theorem drawDeliver_allocDraws (s : State) : ((drawDeliver s).2).allocDraws = s.allocDraws := by
  unfold drawDeliver; split <;> rfl

/-! `pickAgent` -/

@[simp] theorem pickAgent_cfg (s : State) : ((pickAgent s).2).cfg = s.cfg := by
  unfold pickAgent; split <;> rfl
@[simp] theorem pickAgent_phase (s : State) : ((pickAgent s).2).phase = s.phase := by
  unfold pickAgent; split <;> rfl
@[simp] theorem pickAgent_descs (s : State) : ((pickAgent s).2).descs = s.descs := by
  unfold pickAgent; split <;> rfl
@[simp] theorem pickAgent_mem (s : State) : ((pickAgent s).2).mem = s.mem := by
  unfold pickAgent; split <;> rfl
@[simp] theorem pickAgent_cur (s : State) : ((pickAgent s).2).cur = s.cur := by
  unfold pickAgent; split <;> rfl
@[simp] theorem pickAgent_ccur (s : State) : ((pickAgent s).2).ccur = s.ccur := by
  unfold pickAgent; split <;> rfl
@[simp] theorem pickAgent_txEn (s : State) : ((pickAgent s).2).txEn = s.txEn := by
  unfold pickAgent; split <;> rfl
@[simp] theorem pickAgent_rxEn (s : State) : ((pickAgent s).2).rxEn = s.rxEn := by
  unfold pickAgent; split <;> rfl
@[simp] theorem pickAgent_kick (s : State) : ((pickAgent s).2).kick = s.kick := by
  unfold pickAgent; split <;> rfl
@[simp] theorem pickAgent_pend (s : State) : ((pickAgent s).2).pend = s.pend := by
  unfold pickAgent; split <;> rfl
@[simp] theorem pickAgent_ie (s : State) : ((pickAgent s).2).ie = s.ie := by
  unfold pickAgent; split <;> rfl
@[simp] theorem pickAgent_act (s : State) : ((pickAgent s).2).act = s.act := by
  unfold pickAgent; split <;> rfl
@[simp] theorem pickAgent_hwaddr (s : State) : ((pickAgent s).2).hwaddr = s.hwaddr := by
  unfold pickAgent; split <;> rfl
@[simp] theorem pickAgent_mtu (s : State) : ((pickAgent s).2).mtu = s.mtu := by
  unfold pickAgent; split <;> rfl
@[simp] theorem pickAgent_fBcast (s : State) : ((pickAgent s).2).fBcast = s.fBcast := by
  unfold pickAgent; split <;> rfl
@[simp] theorem pickAgent_fEtharp (s : State) : ((pickAgent s).2).fEtharp = s.fEtharp := by
  unfold pickAgent; split <;> rfl
@[simp] theorem pickAgent_fEther (s : State) : ((pickAgent s).2).fEther = s.fEther := by
  unfold pickAgent; split <;> rfl
@[simp] theorem pickAgent_linkUp (s : State) : ((pickAgent s).2).linkUp = s.linkUp := by
  unfold pickAgent; split <;> rfl
@[simp] theorem pickAgent_ifcfg (s : State) : ((pickAgent s).2).ifcfg = s.ifcfg := by
  unfold pickAgent; split <;> rfl
@[simp] theorem pickAgent_cntErr (s : State) : ((pickAgent s).2).cntErr = s.cntErr := by
  unfold pickAgent; split <;> rfl
@[simp] theorem pickAgent_cntNobuf (s : State) : ((pickAgent s).2).cntNobuf = s.cntNobuf := by
  unfold pickAgent; split <;> rfl
@[simp] theorem pickAgent_cntMiss (s : State) : ((pickAgent s).2).cntMiss = s.cntMiss := by
  unfold pickAgent; split <;> rfl
@[simp] theorem pickAgent_cntDlverr (s : State) : ((pickAgent s).2).cntDlverr = s.cntDlverr := by
  unfold pickAgent; split <;> rfl
@[simp] theorem pickAgent_ctxStack (s : State) : ((pickAgent s).2).ctxStack = s.ctxStack := by
  unfold pickAgent; split <;> rfl
@[simp] theorem pickAgent_pc (s : State) : ((pickAgent s).2).pc = s.pc := by
  unfold pickAgent; split <;> rfl
@[simp] theorem pickAgent_ipc (s : State) : ((pickAgent s).2).ipc = s.ipc := by
  unfold pickAgent; split <;> rfl
@[simp] theorem pickAgent_drain (s : State) : ((pickAgent s).2).drain = s.drain := by
  unfold pickAgent; split <;> rfl
@[simp] theorem pickAgent_phyLink (s : State) : ((pickAgent s).2).phyLink = s.phyLink := by
  unfold pickAgent; split <;> rfl
@[simp] theorem pickAgent_wireOut (s : State) : ((pickAgent s).2).wireOut = s.wireOut := by
  unfold pickAgent; split <;> rfl
@[simp] theorem pickAgent_delivered (s : State) : ((pickAgent s).2).delivered = s.delivered := by
  unfold pickAgent; split <;> rfl
@[simp] theorem pickAgent_results (s : State) : ((pickAgent s).2).results = s.results := by
  unfold pickAgent; split <;> rfl
@[simp] theorem pickAgent_prog (s : State) : ((pickAgent s).2).prog = s.prog := by
  unfold pickAgent; split <;> rfl
@[simp] theorem pickAgent_allocDraws (s : State) : ((pickAgent s).2).allocDraws = s.allocDraws := by
  unfold pickAgent; split <;> rfl
@[simp] theorem pickAgent_deliverDraws (s : State) : ((pickAgent s).2).deliverDraws = s.deliverDraws := by
  unfold pickAgent; split <;> rfl

/-! The program index of a completed command -/

theorem advancePc_pc (s : State) (c : Ctx) : (advancePc s c).pc = if c = .mainline then s.pc + 1 else s.pc := by
  cases c <;> rfl
theorem advancePc_ipc_txc (s : State) (c : Ctx) :
    (advancePc s c).ipc.txc = if c = .isrTx then s.ipc.txc + 1 else s.ipc.txc := by
  cases c <;> rfl
theorem advancePc_ipc_rxr (s : State) (c : Ctx) :
    (advancePc s c).ipc.rxr = if c = .isrRx then s.ipc.rxr + 1 else s.ipc.rxr := by
  cases c <;> rfl
theorem finish_pc (s : State) (w : Word) (code : ResultCode) (v : Word) (p : List Byte) :
    (finish s w code v p).pc = if running s = .mainline then s.pc + 1 else s.pc := advancePc_pc _ _
theorem finish_ipc_txc (s : State) (w : Word) (code : ResultCode) (v : Word) (p : List Byte) :
    (finish s w code v p).ipc.txc = if running s = .isrTx then s.ipc.txc + 1 else s.ipc.txc := advancePc_ipc_txc _ _
theorem finish_ipc_rxr (s : State) (w : Word) (code : ResultCode) (v : Word) (p : List Byte) :
    (finish s w code v p).ipc.rxr = if running s = .isrRx then s.ipc.rxr + 1 else s.ipc.rxr := advancePc_ipc_rxr _ _

/-- The running context depends on the context stack alone. -/
theorem running_congr {s t : State} (h : t.ctxStack = s.ctxStack) : running t = running s := by
  simp only [running, h]

@[simp] theorem running_finish (s : State) (w : Word) (code : ResultCode) (v : Word) (p : List Byte) :
    running (finish s w code v p) = running s := running_congr (finish_ctxStack _ _ _ _ _)
@[simp] theorem running_raise (s : State) (w : Word) (code : ResultCode) : running (raise s w code) = running s :=
  running_congr (raise_ctxStack _ _ _)
@[simp] theorem running_recycle (s : State) (i : Nat) (d : Desc) : running (recycle s i d) = running s := rfl
@[simp] theorem running_setDrain (s : State) (d : DrainState) : running (setDrain s d) = running s := rfl
@[simp] theorem running_enterIsr (s : State) (src : Source) : running (enterIsr s src) = handlerOf src := rfl

end Machine

end Sys2Proof
end

