-- ==== Sys2Proof/Laws/Ring.lean ====
section
/-!
SUPPORT. The laws of the rings: reading and writing descriptors, the cursor step, and the number of slots an owner has.
-/

namespace Sys2Proof.Machine

/-- Everything `readDesc` answers (R41). -/
theorem readDesc_eq_ok {s : State} {r : Ring} {i : Nat} {d : Desc} :
    readDesc s r i = .ok d ↔ (s.descs.get r)[i]? = some d := by
  unfold readDesc
  cases (s.descs.get r)[i]? <;> simp

/-- Reading a descriptor that nothing has written faults (R41). -/
theorem readDesc_eq_error {s : State} {r : Ring} {i : Nat} {f : Fault} :
    readDesc s r i = .error f ↔ f = .unwrittenRead ∧ (s.descs.get r).length ≤ i := by
  unfold readDesc
  cases h : (s.descs.get r)[i]? with
  | none =>
    have := List.getElem?_eq_none_iff.1 h
    simp [this, eq_comm]
  | some d =>
    have := (List.getElem?_eq_some_iff.1 h).1
    simp; omega

/-- A read descriptor lies in the list. -/
theorem readDesc_lt {s : State} {r : Ring} {i : Nat} {d : Desc} (h : readDesc s r i = .ok d) :
    i < (s.descs.get r).length :=
  (List.getElem?_eq_some_iff.1 (readDesc_eq_ok.1 h)).1

/-- The number of descriptors does not change. -/
@[simp] theorem writeDesc_length (s : State) (r q : Ring) (i : Nat) (d : Desc) :
    ((writeDesc s r i d).descs.get q).length = (s.descs.get q).length := by
  by_cases h : q = r
  · subst h; simp
  · simp [PerRing.get_set_ne _ _ h]

/-- Every slot after one descriptor is written. -/
theorem writeDesc_getElem? (s : State) (r : Ring) (i : Nat) (d : Desc) (j : Nat) :
    ((writeDesc s r i d).descs.get r)[j]? =
      if i = j ∧ i < (s.descs.get r).length then some d else (s.descs.get r)[j]? := by
  simp only [writeDesc_descs, PerRing.get_set_same, List.getElem?_set]
  by_cases h : i = j
  · subst h
    by_cases h2 : i < (s.descs.get r).length <;> simp [h2]
  · simp [h]

/-- The other ring's descriptors do not change. -/
theorem writeDesc_get_ne (s : State) {r q : Ring} (i : Nat) (d : Desc) (h : q ≠ r) :
    (writeDesc s r i d).descs.get q = s.descs.get q := by
  simp [PerRing.get_set_ne _ _ h]

/-- The cursor step stays in the ring (R101). -/
theorem advance_lt {p : Params} {r : Ring} (c : Nat) (h : 0 < p.card r) : advance p r c < p.card r :=
  Nat.mod_lt _ h

/-- The number of slots of an owner after one slot is replaced. -/
theorem countOwn_set {l : List Desc} {i : Nat} {d : Desc} (e : Desc) (o : Own) (h : l[i]? = some d) :
    countOwn (l.set i e) o + (if d.own = o then 1 else 0) = countOwn l o + (if e.own = o then 1 else 0) := by
  induction l generalizing i with
  | nil => simp at h
  | cons x l ih =>
    cases i with
    | zero =>
      simp only [List.getElem?_cons_zero, Option.some.injEq] at h
      subst h
      simp only [countOwn, List.set_cons_zero, List.countP_cons, decide_eq_true_eq]
      omega
    | succ i =>
      simp only [List.getElem?_cons_succ] at h
      have := ih h
      simp only [countOwn, List.set_cons_succ, List.countP_cons, decide_eq_true_eq] at this ⊢
      omega

/-- A slot that is given away is one slot fewer of its owner's. -/
theorem countOwn_set_away {l : List Desc} {i : Nat} {d : Desc} {e : Desc} {o : Own} (h : l[i]? = some d)
    (hd : d.own = o) (he : e.own ≠ o) : countOwn (l.set i e) o + 1 = countOwn l o := by
  simpa [hd, he] using countOwn_set e o h

/-- A slot that is taken is one slot more. -/
theorem countOwn_set_taken {l : List Desc} {i : Nat} {d : Desc} {e : Desc} {o : Own} (h : l[i]? = some d)
    (hd : d.own ≠ o) (he : e.own = o) : countOwn (l.set i e) o = countOwn l o + 1 := by
  simpa [hd, he] using countOwn_set e o h

/-- An owner has at most all slots. -/
theorem countOwn_le (l : List Desc) (o : Own) : countOwn l o ≤ l.length := List.countP_le_length

end Sys2Proof.Machine
end

