-- ==== Sys2Proof/Laws/Receive.lean ====
section
/-!
SUPPORT. The receive loop (R130, R131): one lemma for each way a pass can go, everything the loop leaves unchanged, and
that its bound of passes is never what ends it.
-/

namespace Sys2Proof.Machine

/-- A pass at a ControllerOwned slot ends the loop with nothing available and changes nothing. -/
theorem receiveLoop_empty {n : Nat} {s : State} {d : Desc} (hd : readDesc s .rx s.cur.rx = .ok d)
    (ho : d.own = .controllerOwned) : receiveLoop (n + 1) s = .ok (none, s) := by
  simp [receiveLoop, hd, ho]

/-- A pass at a slot with an error status discards it and goes on. -/
theorem receiveLoop_err {n : Nat} {s : State} {d : Desc} (hd : readDesc s .rx s.cur.rx = .ok d)
    (ho : d.own = .hostOwned) (hg : d.st.good = false) :
    receiveLoop (n + 1) s = receiveLoop n (discardErr s s.cur.rx d) := by
  simp [receiveLoop, hd, ho, hg]

/-- A pass at a good slot without a buffer for it discards it and goes on. -/
theorem receiveLoop_nobuf {n : Nat} {s : State} {d : Desc} (hd : readDesc s .rx s.cur.rx = .ok d)
    (ho : d.own = .hostOwned) (hg : d.st.good = true) (ha : (drawAlloc s).1 = false) :
    receiveLoop (n + 1) s = receiveLoop n (discardNobuf (drawAlloc s).2 s.cur.rx d) := by
  have hp : drawAlloc s = (false, (drawAlloc s).2) := Prod.ext ha rfl
  rw [receiveLoop]
  simp only [hd, ho, hg, if_true]
  rw [hp]
  simp

/-- A pass at a good slot with a buffer for it answers the slot's frame. -/
theorem receiveLoop_frame {n : Nat} {s : State} {d : Desc} {frame : List Byte}
    (hd : readDesc s .rx s.cur.rx = .ok d) (ho : d.own = .hostOwned) (hg : d.st.good = true)
    (ha : (drawAlloc s).1 = true)
    (hm : memRead s.cfg .rx s.cur.rx s.mem d.addr.toNat d.len.toNat = .ok frame) :
    receiveLoop (n + 1) s =
      .ok (some (frameValue d.len s.cur.rx, frame), recycle (drawAlloc s).2 s.cur.rx d) := by
  have hp : drawAlloc s = (true, (drawAlloc s).2) := Prod.ext ha rfl
  rw [receiveLoop]
  simp only [hd, ho, hg, if_true]
  rw [hp]
  simp [hm]

/-- What the receive loop leaves unchanged: everything but the Rx descriptors, the Rx host cursor, two counters and the
draws (R130). -/
structure ReceiveFrame (s t : State) : Prop where
  eq : t = { s with
    descs := t.descs
    cur := t.cur
    cntErr := t.cntErr
    cntNobuf := t.cntNobuf
    allocDraws := t.allocDraws
    freeCount := t.freeCount }
  txDescs : t.descs.tx = s.descs.tx
  txCur : t.cur.tx = s.cur.tx
  length : t.descs.rx.length = s.descs.rx.length

theorem ReceiveFrame.refl (s : State) : ReceiveFrame s s := ⟨rfl, rfl, rfl, rfl⟩

theorem ReceiveFrame.trans {s t u : State} (h1 : ReceiveFrame s t) (h2 : ReceiveFrame t u) : ReceiveFrame s u := by
  refine ⟨?_, h2.txDescs.trans h1.txDescs, h2.txCur.trans h1.txCur, h2.length.trans h1.length⟩
  have e2 := h2.eq
  rw [h1.eq] at e2
  exact e2

theorem recycle_receiveFrame (s : State) (i : Nat) (d : Desc) : ReceiveFrame s (recycle s i d) :=
  ⟨rfl, rfl, rfl, by simp⟩

theorem drawAlloc_receiveFrame (s : State) : ReceiveFrame s (drawAlloc s).2 := by
  unfold drawAlloc
  split <;> exact ⟨rfl, rfl, rfl, rfl⟩

theorem discardErr_receiveFrame (s : State) (i : Nat) (d : Desc) : ReceiveFrame s (discardErr s i d) :=
  ⟨rfl, rfl, rfl, by simp⟩

theorem discardNobuf_receiveFrame (s : State) (i : Nat) (d : Desc) : ReceiveFrame s (discardNobuf s i d) :=
  ⟨rfl, rfl, rfl, by simp⟩

/-- Everything one pass can do. -/
theorem receiveLoop_succ_cases {n : Nat} {s t : State} {o : Option (Word × List Byte)}
    (h : receiveLoop (n + 1) s = .ok (o, t)) :
    ∃ d, readDesc s .rx s.cur.rx = .ok d ∧
      ((d.own = .controllerOwned ∧ o = none ∧ t = s) ∨
       (d.own = .hostOwned ∧ d.st.good = false ∧ receiveLoop n (discardErr s s.cur.rx d) = .ok (o, t)) ∨
       (d.own = .hostOwned ∧ d.st.good = true ∧ (drawAlloc s).1 = false ∧
          receiveLoop n (discardNobuf (drawAlloc s).2 s.cur.rx d) = .ok (o, t)) ∨
       (d.own = .hostOwned ∧ d.st.good = true ∧ (drawAlloc s).1 = true ∧
          ∃ frame, memRead s.cfg .rx s.cur.rx s.mem d.addr.toNat d.len.toNat = .ok frame ∧
            o = some (frameValue d.len s.cur.rx, frame) ∧ t = recycle (drawAlloc s).2 s.cur.rx d)) := by
  cases hd : readDesc s .rx s.cur.rx with
  | error f => simp [receiveLoop, hd] at h
  | ok d =>
    refine ⟨d, rfl, ?_⟩
    cases ho : d.own with
    | controllerOwned =>
      rw [receiveLoop_empty hd ho] at h
      cases h
      exact .inl ⟨rfl, rfl, rfl⟩
    | hostOwned =>
      cases hg : d.st.good with
      | false =>
        rw [receiveLoop_err hd ho hg] at h
        exact .inr (.inl ⟨rfl, rfl, h⟩)
      | true =>
        cases ha : (drawAlloc s).1 with
        | false =>
          rw [receiveLoop_nobuf hd ho hg ha] at h
          exact .inr (.inr (.inl ⟨rfl, rfl, rfl, h⟩))
        | true =>
          cases hm : memRead s.cfg .rx s.cur.rx s.mem d.addr.toNat d.len.toNat with
          | error f =>
            have hp : drawAlloc s = (true, (drawAlloc s).2) := Prod.ext ha rfl
            rw [receiveLoop] at h
            simp only [hd, ho, hg, if_true] at h
            rw [hp] at h
            simp [hm] at h
          | ok frame =>
            rw [receiveLoop_frame hd ho hg ha hm] at h
            cases h
            exact .inr (.inr (.inr ⟨rfl, rfl, rfl, frame, rfl, rfl, rfl⟩))

/-- What the loop leaves unchanged. -/
theorem receiveLoop_frameLaw {n : Nat} {s t : State} {o : Option (Word × List Byte)}
    (h : receiveLoop n s = .ok (o, t)) : ReceiveFrame s t := by
  induction n generalizing s with
  | zero => simp [receiveLoop] at h
  | succ n ih =>
    obtain ⟨d, _, ⟨_, _, rfl⟩ | ⟨_, _, h⟩ | ⟨_, _, _, h⟩ | ⟨_, _, _, _, _, _, rfl⟩⟩ := receiveLoop_succ_cases h
    · exact ReceiveFrame.refl t
    · exact (discardErr_receiveFrame s _ d).trans (ih h)
    · exact ((drawAlloc_receiveFrame s).trans (discardNobuf_receiveFrame _ _ d)).trans (ih h)
    · exact (drawAlloc_receiveFrame s).trans (recycle_receiveFrame _ _ d)

/-- What RECEIVE's loop leaves unchanged. -/
theorem receiveFrom_frameLaw {s t : State} {o : Option (Word × List Byte)} (h : receiveFrom s = .ok (o, t)) :
    ReceiveFrame s t := receiveLoop_frameLaw h

/-- The loop ends with nothing available only at a ControllerOwned slot (R130). -/
theorem receiveLoop_none {n : Nat} {s t : State} (h : receiveLoop n s = .ok (none, t)) :
    ∃ d, readDesc t .rx t.cur.rx = .ok d ∧ d.own = .controllerOwned := by
  induction n generalizing s with
  | zero => simp [receiveLoop] at h
  | succ n ih =>
    obtain ⟨d, hd, ⟨ho, _, rfl⟩ | ⟨_, _, h⟩ | ⟨_, _, _, h⟩ | ⟨_, _, _, _, _, hn, _⟩⟩ := receiveLoop_succ_cases h
    · exact ⟨d, hd, ho⟩
    · exact ih h
    · exact ih h
    · cases hn

/-- A recycled HostOwned slot is one HostOwned slot fewer (R131). -/
theorem countOwn_recycle {s : State} {d : Desc} (hd : readDesc s .rx s.cur.rx = .ok d) (ho : d.own = .hostOwned) :
    countOwn (recycle s s.cur.rx d).descs.rx .hostOwned + 1 = countOwn s.descs.rx .hostOwned := by
  simpa using countOwn_set_away (e := { d with own := .controllerOwned }) (readDesc_eq_ok.1 hd) ho (by simp)

/-- Once the bound exceeds the number of HostOwned slots, a larger bound changes nothing: the bound never ends the loop
(R131). -/
theorem receiveLoop_bound {n m : Nat} {s : State} (hn : countOwn s.descs.rx .hostOwned < n)
    (hm : countOwn s.descs.rx .hostOwned < m) : receiveLoop n s = receiveLoop m s := by
  induction n generalizing m s with
  | zero => omega
  | succ n ih =>
    cases m with
    | zero => omega
    | succ m =>
      cases hd : readDesc s .rx s.cur.rx with
      | error f => simp [receiveLoop, hd]
      | ok d =>
        cases ho : d.own with
        | controllerOwned => rw [receiveLoop_empty hd ho, receiveLoop_empty hd ho]
        | hostOwned =>
          have hc := countOwn_recycle hd ho
          cases hg : d.st.good with
          | false =>
            rw [receiveLoop_err hd ho hg, receiveLoop_err hd ho hg]
            apply ih <;> simp only [discardErr_descs] at hc ⊢ <;> omega
          | true =>
            cases ha : (drawAlloc s).1 with
            | false =>
              rw [receiveLoop_nobuf hd ho hg ha, receiveLoop_nobuf hd ho hg ha]
              apply ih <;>
                simp only [discardNobuf_descs, recycle_descs, writeDesc_descs, drawAlloc_descs]
                  at hc ⊢ <;> omega
            | true =>
              have hp : drawAlloc s = (true, (drawAlloc s).2) := Prod.ext ha rfl
              rw [receiveLoop, receiveLoop]
              simp only [hd, ho, hg, if_true]
              rw [hp]

/-- RECEIVE's loop with any bound above the number of HostOwned slots (R131). -/
theorem receiveFrom_eq_loop {n : Nat} {s : State} (hn : countOwn s.descs.rx .hostOwned < n) :
    receiveFrom s = receiveLoop n s :=
  receiveLoop_bound (Nat.lt_succ_of_le (countOwn_le _ _)) hn

end Sys2Proof.Machine
end

