-- ==== Sys2Proof/Laws/Exec.lean ====
section
/-!
SUPPORT. One inversion lemma for each meaning that has more than one outcome: if it answers a next state, then one of
these cases holds. And one for the step.
-/

namespace Sys2Proof.Machine

/-- Everything INIT can do (R100). -/
theorem execInit_cases {s t : State} (h : execInit s = .next t) :
    ((s.cfg.nTx + s.cfg.nRx) * s.cfg.bufCap > s.cfg.poolBytes ∧ t = raise s (encodeWord .init) .errInitFail) ∨
      ((s.cfg.nTx + s.cfg.nRx) * s.cfg.bufCap ≤ s.cfg.poolBytes ∧
        t = finish (initState s) (encodeWord .init) .ok 0#32 []) := by
  unfold execInit at h
  split at h
  · rename_i hp; cases h; exact .inl ⟨hp, rfl⟩
  · rename_i hp; cases h; exact .inr ⟨Nat.le_of_not_lt hp, rfl⟩

/-- Everything TRANSMIT can do (R120). -/
theorem execTransmit_cases {len : Half} {frame : List Byte} {s t : State}
    (h : execTransmit len frame s = .next t) :
    (∃ code, t = raise s (encodeWord (.transmit len frame)) code) ∨
      ∃ d m, s.phase = .ready ∧ frame.length = len.toNat ∧ txLenOk s.cfg s.mtu len = true ∧
        readDesc s .tx s.cur.tx = .ok d ∧ d.own = .hostOwned ∧
        memWrite s.cfg .tx s.cur.tx s.mem d.addr.toNat frame = .ok m ∧
        t = finish (handOff s s.cur.tx d m len) (encodeWord (.transmit len frame)) .ok
          (BitVec.ofNat 32 s.cur.tx) [] := by
  unfold execTransmit at h
  split at h
  · cases h; exact .inl ⟨_, rfl⟩
  · cases h; exact .inl ⟨_, rfl⟩
  · rename_i hph
    split at h
    · rename_i hl
      unfold transmitSlot at h
      split at h
      · cases h
      · rename_i d hd
        split at h
        · cases h; exact .inl ⟨_, rfl⟩
        · rename_i ho
          split at h
          · cases h
          · rename_i m hm
            cases h
            exact .inr ⟨d, m, hph, hl.1, hl.2, hd, ho, hm, rfl⟩
    · cases h; exact .inl ⟨_, rfl⟩

/-- Everything RECEIVE can do (R130). -/
theorem execReceive_cases {s t : State} (h : execReceive s = .next t) :
    (∃ code, s.phase ≠ .ready ∧ t = raise s (encodeWord .receive) code) ∨
      (∃ u, s.phase = .ready ∧ receiveFrom s = .ok (none, u) ∧ t = finish u (encodeWord .receive) .empty 0#32 []) ∨
      ∃ v frame u, s.phase = .ready ∧ receiveFrom s = .ok (some (v, frame), u) ∧
        t = finish u (encodeWord .receive) .frame v frame := by
  unfold execReceive at h
  split at h
  · rename_i hp; cases h; exact .inl ⟨_, by simp [hp], rfl⟩
  · rename_i hp; cases h; exact .inl ⟨_, by simp [hp], rfl⟩
  · rename_i hp
    unfold receiveResult at h
    split at h
    · cases h
    · rename_i u hu; cases h; exact .inr (.inl ⟨u, hp, hu, rfl⟩)
    · rename_i v frame u hu; cases h; exact .inr (.inr ⟨v, frame, u, hp, hu, rfl⟩)

/-- Everything the start of DRAIN can do (R132). -/
theorem execDrain_cases {s t : State} (h : execDrain s = .next t) :
    (s.phase = .uninit ∧ t = raise s (encodeWord .drain) .errNotInit) ∨
      (s.phase ≠ .uninit ∧ t = setDrain s (.draining 0)) := by
  unfold execDrain at h
  split at h <;> (rename_i hp; cases h; simp [hp])

/-- Everything a DRAIN_STEP can do (R132). -/
theorem drainStep_cases {k : Nat} {s t : State} (h : drainStep k s = .next t) :
    (s.phase = .fatal ∧ t = endDrain s .errFatal k) ∨
      (∃ u, s.phase ≠ .fatal ∧ receiveFrom s = .ok (none, u) ∧ t = setDrain u (.acking k)) ∨
      ∃ v frame u, s.phase ≠ .fatal ∧ receiveFrom s = .ok (some (v, frame), u) ∧ t = deliver u k frame := by
  have aux (hp : s.phase ≠ .fatal) (h : drainReceive k s = .next t) :
      (∃ u, s.phase ≠ .fatal ∧ receiveFrom s = .ok (none, u) ∧ t = setDrain u (.acking k)) ∨
        ∃ v frame u, s.phase ≠ .fatal ∧ receiveFrom s = .ok (some (v, frame), u) ∧ t = deliver u k frame := by
    unfold drainReceive at h
    split at h
    · cases h
    · rename_i u hu; cases h; exact .inl ⟨u, hp, hu, rfl⟩
    · rename_i v frame u hu; cases h; exact .inr ⟨v, frame, u, hp, hu, rfl⟩
  unfold drainStep at h
  split at h
  · rename_i hp; cases h; exact .inl ⟨hp, rfl⟩
  · rename_i hp; exact .inr (aux (by simp [hp]) h)
  · rename_i hp; exact .inr (aux (by simp [hp]) h)

/-- Everything the delivery of a frame can do (R132). -/
theorem deliver_cases (s : State) (k : Nat) (frame : List Byte) :
    ((drawDeliver s).1 = true ∧
        deliver s k frame = setDrain { (drawDeliver s).2 with delivered := s.delivered ++ [frame] } (.draining (k + 1))) ∨
      ((drawDeliver s).1 = false ∧ deliver s k frame = { (drawDeliver s).2 with cntDlverr := inc32 s.cntDlverr }) := by
  unfold deliver
  split
  · rename_i u hu; left; rw [hu]; exact ⟨rfl, by rw [← drawDeliver_delivered s, hu]⟩
  · rename_i u hu; right; rw [hu]; exact ⟨rfl, by rw [← drawDeliver_cntDlverr s, hu]⟩

/-- Everything IF_UP can do (R150). -/
theorem execIfUp_cases {mtu : Half} {payload : List Byte} {s t : State} (h : execIfUp mtu payload s = .next t) :
    (∃ code, t = raise s (encodeWord (.ifUp mtu payload)) code) ∨
      ∃ a, s.phase = .ready ∧ hwAddrOf payload = some a ∧ mtuOk s.cfg (requestedMtu mtu) = true ∧ s.ifcfg = false ∧
        t = finish (ifUpState s a (requestedMtu mtu)) (encodeWord (.ifUp mtu payload)) .ok
          ((requestedMtu mtu).setWidth 32) [] := by
  unfold execIfUp at h
  split at h
  · cases h; exact .inl ⟨_, rfl⟩
  · cases h; exact .inl ⟨_, rfl⟩
  · rename_i hp
    unfold ifUpReady at h
    split at h
    · cases h; exact .inl ⟨_, rfl⟩
    · rename_i a ha
      split at h
      · cases h; exact .inl ⟨_, rfl⟩
      · rename_i hm
        split at h
        · cases h; exact .inl ⟨_, rfl⟩
        · rename_i hi
          cases h
          exact .inr ⟨a, hp, ha, by simpa using hm, by simpa using hi, rfl⟩

/-- Everything GET_DESC can do (R155). -/
theorem execGetDesc_cases {ring : Ring} {idx : Byte} {s t : State} (h : execGetDesc ring idx s = .next t) :
    (∃ code, t = raise s (encodeWord (.getDesc ring idx)) code) ∨
      ∃ d, s.phase ≠ .uninit ∧ idx.toNat < s.cfg.card ring ∧ readDesc s ring idx.toNat = .ok d ∧
        t = finish s (encodeWord (.getDesc ring idx)) .ok (descWord d) [] := by
  have aux (hp : s.phase ≠ .uninit) (h : getDescAt ring idx s = .next t) :
      (∃ code, t = raise s (encodeWord (.getDesc ring idx)) code) ∨
        ∃ d, s.phase ≠ .uninit ∧ idx.toNat < s.cfg.card ring ∧ readDesc s ring idx.toNat = .ok d ∧
          t = finish s (encodeWord (.getDesc ring idx)) .ok (descWord d) [] := by
    unfold getDescAt at h
    split at h
    · cases h; exact .inl ⟨_, rfl⟩
    · rename_i hc
      split at h
      · cases h
      · rename_i d hd; cases h; exact .inr ⟨d, hp, Nat.lt_of_not_le hc, hd, rfl⟩
  unfold execGetDesc at h
  split at h
  · cases h; exact .inl ⟨_, rfl⟩
  · rename_i hp; exact aux (by simp [hp]) h
  · rename_i hp; exact aux (by simp [hp]) h

/-- Everything EOI can do (R192). -/
theorem execEoi_cases {src : Source} {s t : State} (h : execEoi src s = .next t) :
    (s.act.get src = true ∧ running s = handlerOf src ∧
        t = returnIsr (finish s (encodeWord (.eoi src)) .ok 0#32 []) src) ∨
      (¬(s.act.get src = true ∧ running s = handlerOf src) ∧ t = raise s (encodeWord (.eoi src)) .errState) := by
  unfold execEoi at h
  split at h
  · rename_i hc; cases h; exact .inl ⟨hc.1, hc.2, rfl⟩
  · rename_i hc; cases h; exact .inr ⟨hc, rfl⟩

/-- Everything TX_DONE can do (R170). -/
theorem execTxDone_cases {s t : State} (h : execTxDone s = .next t) :
    t = s ∨
      ∃ d frame e, s.phase = .ready ∧ s.txEn = true ∧ s.kick = true ∧ readDesc s .tx s.ccur.tx = .ok d ∧
        d.own = .controllerOwned ∧ memRead s.cfg .tx s.ccur.tx s.mem d.addr.toNat d.len.toNat = .ok frame ∧
        readDesc (txGiveBack s s.ccur.tx d) .tx (advance s.cfg .tx s.ccur.tx) = .ok e ∧
        t = { txGiveBack s s.ccur.tx d with
          wireOut := s.wireOut ++ [frame]
          kick := e.own != .hostOwned
          pend := s.pend.set .txc true } := by
  unfold execTxDone at h
  split at h
  · rename_i hc
    split at h
    · cases h
    · rename_i d hd
      split at h
      · cases h; exact .inl rfl
      · rename_i ho
        unfold txComplete at h
        split at h
        · cases h
        · rename_i frame hf
          split at h
          · cases h
          · rename_i k hk
            unfold idleDoorbell at hk
            split at hk
            · cases hk
            · rename_i e he
              cases hk
              cases h
              refine .inr ⟨d, frame, e, hc.1, hc.2.1, hc.2.2, hd, ho, hf, by simpa using he, ?_⟩
              simp [hc.2.2]
  · cases h; exact .inl rfl

/-- Everything RX_FRAME can do (R171). -/
theorem execRxFrame_cases {len : Half} {crcErr otherErr : Bool} {bytes : List Byte} {s t : State}
    (h : execRxFrame len crcErr otherErr bytes s = .next t) :
    t = s ∨
      (∃ d, s.phase = .ready ∧ s.rxEn = true ∧ readDesc s .rx s.ccur.rx = .ok d ∧ d.own = .hostOwned ∧
        t = { s with cntMiss := inc32 s.cntMiss }) ∨
      ∃ d m, s.phase = .ready ∧ s.rxEn = true ∧ readDesc s .rx s.ccur.rx = .ok d ∧ d.own = .controllerOwned ∧
        memWrite s.cfg .rx s.ccur.rx s.mem d.addr.toNat (storedBytes s.cfg len bytes) = .ok m ∧
        t = { writeDesc s .rx s.ccur.rx
            { d with
              len := BitVec.ofNat 16 (min len.toNat s.cfg.bufCap)
              st := classify s.cfg len crcErr otherErr s.mtu
              own := .hostOwned } with
          mem := m
          ccur := s.ccur.set .rx (advance s.cfg .rx s.ccur.rx)
          pend := s.pend.set .rxr true } := by
  unfold execRxFrame at h
  split at h
  · rename_i hc
    split at h
    · cases h
    · rename_i d hd
      split at h
      · rename_i ho
        cases h
        exact .inr (.inl ⟨d, hc.1, hc.2, hd, ho, rfl⟩)
      · rename_i ho
        unfold rxStore at h
        split at h
        · cases h
        · rename_i m hm
          cases h
          exact .inr (.inr ⟨d, m, hc.1, hc.2, hd, ho, hm, rfl⟩)
  · cases h; exact .inl rfl

/-- Everything RX_BERR can do (R172). -/
theorem execRxBerr_cases {s t : State} (h : execRxBerr s = .next t) :
    (s.phase ≠ .ready ∧ t = s) ∨
      (s.phase = .ready ∧ t = { s with phase := .fatal, pend := s.pend.set .rxr true }) := by
  unfold execRxBerr at h
  split at h
  · rename_i hp; cases h; exact .inr ⟨hp, rfl⟩
  · rename_i hp; cases h; exact .inl ⟨hp, rfl⟩

/-- An entry is carried out only where it is enabled (R206). -/
theorem agentAction_enter {a : Agent} {s : State} {src : Source} (h : agentAction a s = .enter src) :
    canEnter s src = true := by
  cases a with
  | host =>
    simp only [agentAction, hostAction] at h
    split at h
    · cases h
    · cases h
    · split at h
      · unfold commandAction at h; split at h <;> cases h
      · cases h
  | enter q =>
    simp only [agentAction] at h
    split at h
    · rename_i hc; cases h; exact hc
    · cases h
  | controller w p => simp only [agentAction, controllerAction] at h; split at h <;> cases h

/-- A DRAIN_STEP or DRAIN_ACK is carried out only where the running context's DRAIN is there (R210). -/
theorem agentAction_drain {a : Agent} {s : State} {k : Nat} :
    (agentAction a s = .drainStep k → s.drain.get (running s) = .draining k) ∧
      (agentAction a s = .drainAck k → s.drain.get (running s) = .acking k) := by
  cases a with
  | host =>
    simp only [agentAction, hostAction]
    cases hd : s.drain.get (running s) with
    | draining k' => simp
    | acking k' => simp
    | idle =>
      simp only [reduceCtorEq, imp_false]
      cases fetch s with
      | none => simp
      | some c => simp only [commandAction]; split <;> simp
  | enter q => simp only [agentAction]; split <;> simp
  | controller w p => simp only [agentAction, controllerAction]; split <;> simp

/-- An instruction is carried out only as its port's decoder reads it: from the running context's command, or from a
word on the controller port (R70, R210). -/
theorem agentAction_run {a : Agent} {s : State} {i : Instr} (h : agentAction a s = .run i) :
    (∃ c, s.drain.get (running s) = .idle ∧ fetch s = some c ∧ decode .host c.word c.payload = .ok i) ∨
      ∃ w p, a = .controller w p ∧ decode .controller w p = .ok i := by
  cases a with
  | host =>
    simp only [agentAction, hostAction] at h
    split at h
    · cases h
    · cases h
    · rename_i hd
      split at h
      · rename_i c hc
        unfold commandAction at h
        split at h
        · rename_i j hj; cases h; exact .inl ⟨c, hd, hc, hj⟩
        · cases h
      · cases h
  | enter q => simp only [agentAction] at h; split at h <;> cases h
  | controller w p =>
    simp only [agentAction, controllerAction] at h
    split at h
    · rename_i j hj; cases h; exact .inr ⟨w, p, rfl, hj⟩
    · cases h

/-- Everything a step can do: it is refused for its parameters, or it carries out the chosen agent's action on the state
with the choice taken (R6, R202). -/
theorem step_cases {s t : State} (h : step s = .next t) :
    s.cfg.Ok ∧ perform (agentAction (pickAgent s).1 (pickAgent s).2) (pickAgent s).2 = .next t := by
  unfold step at h
  split at h
  · rename_i hc; exact ⟨hc, h⟩
  · cases h

end Sys2Proof.Machine
end

