-- ==== Sys2Proof/Laws/Observation.lean ====
section
/-!
SUPPORT. The observation of a run is the traces at its first ended state, whatever the block does after it (R10).
-/

namespace Sys2Proof.Machine

/-- A run ends at one step only. -/
theorem EndsAt.unique {run : Nat → State} {n m : Nat} (hn : EndsAt run n) (hm : EndsAt run m) : n = m := by
  rcases Nat.lt_trichotomy n m with h | h | h
  · exact absurd hn.1 (hm.2 n h)
  · exact h
  · exact absurd hm.1 (hn.2 m h)

/-- A run that ends has one observation. -/
theorem Observes.unique {run : Nat → State} {o p : Observation} (ho : Observes run o) (hp : Observes run p) : o = p := by
  obtain ⟨n, hn, rfl⟩ := ho
  obtain ⟨m, hm, rfl⟩ := hp
  rw [hn.unique hm]

/-- Up to its end a run is observed where it stands. -/
theorem observeSteps_of_not_ended {run : Nat → State} {n : Nat} (hr : IsRun run) (h : ∀ m < n, ¬(run m).Ended) :
    observeSteps n (run 0) = .next (observe (run n)) := by
  induction n generalizing run with
  | zero => rfl
  | succ n ih =>
    simp only [observeSteps, if_neg (h 0 n.succ_pos), hr 0]
    exact ih (run := fun k => run (k + 1)) (fun k => hr (k + 1)) fun m hm => h (m + 1) (Nat.succ_lt_succ hm)

/-- No step after the end is observed. -/
theorem observeSteps_of_endsAt {run : Nat → State} {n m : Nat} (hr : IsRun run) (he : EndsAt run n) (h : n ≤ m) :
    observeSteps m (run 0) = .next (observe (run n)) := by
  induction n generalizing run m with
  | zero => cases m with
    | zero => rfl
    | succ m => simp only [observeSteps, if_pos he.1]
  | succ n ih =>
    obtain ⟨m, rfl⟩ := Nat.exists_eq_add_of_le' (Nat.le_trans n.succ_pos h)
    simp only [observeSteps, if_neg (he.2 0 n.succ_pos), hr 0]
    exact ih (run := fun k => run (k + 1)) (fun k => hr (k + 1))
      ⟨he.1, fun k hk => he.2 (k + 1) (Nat.succ_lt_succ hk)⟩ (Nat.le_of_succ_le_succ h)

end Sys2Proof.Machine
end

