-- ==== Sys2Proof/Laws/PerInstr.lean ====
section
/-!
SUPPORT. Statements about every instruction as syntax, one lemma per constructor: its word matches its row of
spec/opcode_table.json (R84).
-/

namespace Sys2Proof.Laws.TableMatch

/-- The word of an instruction matches its row of the opcode table under the row's mask, and the encoder's operation
code is the row's (R72, R75, R84). -/
def Statement (i : Instr) : Prop :=
  encodeWord i &&& (tableRow i).2 = (tableRow i).1 ∧ wordCode (encodeWord i) = wordCode (tableRow i).1

/-- A mask with zeros under an operand at the low end keeps the prefix alone. -/
theorem and_low_zeros {m n : Nat} (p q : BitVec m) (x : BitVec n) : (p ++ x) &&& (q ++ 0#n) = (p &&& q) ++ 0#n := by
  rw [BitVec.and_append, BitVec.and_zero]

/-- Bits that lie above the low operand are bits of the prefix. -/
theorem extract_above {m n : Nat} (p : BitVec m) (x : BitVec n) (k w : Nat) :
    (p ++ x).extractLsb' (n + k) w = p.extractLsb' k w := by
  ext i hi
  rw [BitVec.getElem_extractLsb', BitVec.getElem_extractLsb', BitVec.getLsbD_append]
  simp [show ¬ n + k + i < n by omega, show n + k + i - n = k + i by omega]

theorem init : Statement .init := by unfold Statement; decide

theorem ifUp (mtu : Half) (payload : List Byte) : Statement (.ifUp mtu payload) :=
  ⟨and_low_zeros 0x2000#16 0xFFFF#16 mtu,
      (extract_above 0x2000#16 mtu 12 4).trans (show _ = wordCode 0x20000000#32 by decide)⟩

theorem transmit (len : Half) (frame : List Byte) : Statement (.transmit len frame) :=
  ⟨and_low_zeros 0x3000#16 0xFFFF#16 len,
      (extract_above 0x3000#16 len 12 4).trans (show _ = wordCode 0x30000000#32 by decide)⟩

theorem receive : Statement .receive := by unfold Statement; decide

theorem drain : Statement .drain := by unfold Statement; decide

theorem ackRx : Statement .ackRx := by unfold Statement; decide

theorem ackTx : Statement .ackTx := by unfold Statement; decide

theorem linkPoll : Statement .linkPoll := by unfold Statement; decide

theorem getStatus : Statement .getStatus := by unfold Statement; decide

theorem getIfinfo : Statement .getIfinfo := by unfold Statement; decide

theorem irqMask (tx rx : Bool) : Statement (.irqMask tx rx) := by
  unfold Statement; cases tx <;> cases rx <;> decide

theorem eoi (src : Source) : Statement (.eoi src) := by
  unfold Statement; cases src <;> decide

theorem getCounters (sel : Counter) : Statement (.getCounters sel) := by
  unfold Statement; cases sel <;> decide

theorem getDesc (ring : Ring) (idx : Byte) : Statement (.getDesc ring idx) := by
  cases ring
  · exact ⟨and_low_zeros 0xE00000#24 0xFFFF7F#24 idx,
      (extract_above 0xE00000#24 idx 20 4).trans (show _ = wordCode 0xE0000000#32 by decide)⟩
  · exact ⟨and_low_zeros 0xE00080#24 0xFFFF7F#24 idx,
      (extract_above 0xE00080#24 idx 20 4).trans (show _ = wordCode 0xE0000000#32 by decide)⟩

theorem txDone : Statement .txDone := by unfold Statement; decide

theorem rxFrame (len : Half) (crcErr otherErr : Bool) (bytes : List Byte) :
    Statement (.rxFrame len crcErr otherErr bytes) := by
  cases otherErr <;> cases crcErr
  · exact ⟨and_low_zeros 0x2000#16 0xFFFC#16 len,
      (extract_above 0x2000#16 len 12 4).trans (show _ = wordCode 0x20000000#32 by decide)⟩
  · exact ⟨and_low_zeros 0x2001#16 0xFFFC#16 len,
      (extract_above 0x2001#16 len 12 4).trans (show _ = wordCode 0x20000000#32 by decide)⟩
  · exact ⟨and_low_zeros 0x2002#16 0xFFFC#16 len,
      (extract_above 0x2002#16 len 12 4).trans (show _ = wordCode 0x20000000#32 by decide)⟩
  · exact ⟨and_low_zeros 0x2003#16 0xFFFC#16 len,
      (extract_above 0x2003#16 len 12 4).trans (show _ = wordCode 0x20000000#32 by decide)⟩

theorem rxBerr : Statement .rxBerr := by unfold Statement; decide

theorem phyLink (v : Bool) : Statement (.phyLink v) := by
  unfold Statement; cases v <;> decide

end Sys2Proof.Laws.TableMatch
end

