-- ==== Sys2Proof/Tests/Slice0.lean ====
section
/-!
SUPPORT. Tests. Expected words and results come from 95_test_vectors.md and the tables of the rules named beside them.
Then, for every obligation that has hypotheses, a state and operands that meet them, clause by clause.
-/

namespace Sys2Proof.Tests

open Sys2Proof.Machine

/-! ### WellFormed -/

theorem test_wellFormed_refuses_short_rx_frame : (Instr.rxFrame 2#16 false false [7#8]).wellFormed = false := by decide

theorem test_wellFormed_refuses_long_rx_frame : (Instr.rxFrame 0#16 true true [7#8]).wellFormed = false := by decide

theorem test_wellFormed_accepts_rx_frame : (Instr.rxFrame 1#16 true false [7#8]).wellFormed = true := by decide

/-! ### Decoding, one word for each row from the tables of R72, R73, R75, written bit by bit -/

theorem test_decode_init : decode .host 0b00010000000000000000000000000000#32 [] = .ok .init := by decide

theorem test_decode_if_up : decode .host 0b00100000000000000000010111110010#32 [2#8, 0#8, 0#8, 0#8, 0#8, 1#8] =
    .ok (.ifUp 1522#16 [2#8, 0#8, 0#8, 0#8, 0#8, 1#8]) := by decide

theorem test_decode_transmit : decode .host 0b00110000000000000000000000000010#32 [0x41#8, 0x42#8] =
    .ok (.transmit 2#16 [0x41#8, 0x42#8]) := by decide

theorem test_decode_receive : decode .host 0b01000000000000000000000000000000#32 [] = .ok .receive := by decide

theorem test_decode_drain : decode .host 0b01010000000000000000000000000000#32 [] = .ok .drain := by decide

theorem test_decode_ack_rx : decode .host 0b01100000000000000000000000000000#32 [] = .ok .ackRx := by decide

theorem test_decode_ack_tx : decode .host 0b01110000000000000000000000000000#32 [] = .ok .ackTx := by decide

theorem test_decode_link_poll : decode .host 0b10000000000000000000000000000000#32 [] = .ok .linkPoll := by decide

theorem test_decode_get_status : decode .host 0b10010000000000000000000000000000#32 [] = .ok .getStatus := by decide

theorem test_decode_get_ifinfo : decode .host 0b10100000000000000000000000000000#32 [] = .ok .getIfinfo := by decide

theorem test_decode_irq_mask : decode .host 0b10110000000000000000000000000001#32 [] = .ok (.irqMask true false) := by
  decide

theorem test_decode_eoi : decode .host 0b11000000000000000000000000000000#32 [] = .ok (.eoi .txc) ∧
    decode .host 0b11000000000000000000000000000001#32 [] = .ok (.eoi .rxr) := by decide

theorem test_decode_get_counters : decode .host 0b11010000000000000000000000000001#32 [] = .ok (.getCounters .nobuf) ∧
    decode .host 0b11010000000000000000000000000011#32 [] = .ok (.getCounters .dlverr) := by decide

theorem test_decode_get_desc : decode .host 0b11100000000000001000000000000010#32 [] = .ok (.getDesc .rx 2#8) ∧
    decode .host 0b11100000000000000000000011111111#32 [] = .ok (.getDesc .tx 255#8) := by decide

theorem test_decode_tx_done : decode .controller 0b00010000000000000000000000000000#32 [] = .ok .txDone := by decide

theorem test_decode_rx_frame :
    decode .controller 0b00100000000000010000000000000001#32 [9#8] = .ok (.rxFrame 1#16 true false [9#8]) ∧
    decode .controller 0b00100000000000100000000000000000#32 [] = .ok (.rxFrame 0#16 false true []) := by decide

theorem test_decode_rx_berr : decode .controller 0b00110000000000000000000000000000#32 [] = .ok .rxBerr := by decide

theorem test_decode_phy_link : decode .controller 0b01000000000000000000000000000001#32 [] = .ok (.phyLink true) := by
  decide

/-- The illegal words of V1 on the host port. -/
theorem test_decode_illegal_host :
    decode .host 0x00000000#32 [] = .error .reservedCode ∧ decode .host 0xF0000000#32 [] = .error .reservedCode ∧
    decode .host 0x10010000#32 [] = .error .reservedBit ∧ decode .host 0x40000001#32 [] = .error .reservedBit ∧
    decode .host 0x40000000#32 [1#8] = .error .payloadLength ∧ decode .host 0xB0000004#32 [] = .error .reservedBit ∧
    decode .host 0xC0000002#32 [] = .error .reservedBit ∧ decode .host 0xD0000004#32 [] = .error .reservedBit ∧
    decode .host 0xE0000100#32 [] = .error .reservedBit := by decide

/-- The ignored words of V1 on the controller port. -/
theorem test_decode_ignored_controller :
    decode .controller 0x00000000#32 [] = .error .reservedCode ∧
    decode .controller 0x50000000#32 [] = .error .reservedCode ∧
    decode .controller 0xF0000000#32 [] = .error .reservedCode ∧
    decode .controller 0x10000001#32 [] = .error .reservedBit ∧
    decode .controller 0x20040000#32 [] = .error .reservedBit ∧
    decode .controller 0x20000002#32 [0#8] = .error .payloadLength ∧
    decode .controller 0x40000002#32 [] = .error .reservedBit := by decide

/-- R56: byte 0 holds bits [7:0]. -/
theorem test_little_endian : leBytes 0x200005F2#32 = [0xF2#8, 0x05#8, 0x00#8, 0x20#8] ∧
    decodeBytes .host [0x02#8, 0x80#8, 0x00#8, 0xE0#8] = .ok (.getDesc .rx 2#8) := by decide

/-- R85's text of three commands. -/
theorem test_asm : asmText (.getDesc .rx 2#8) = "GET_DESC RX, 2" ∧ asmText (.irqMask false true) = "IRQ_MASK 0, 1" ∧
    asmText (.ifUp 0#16 [2#8, 0#8, 0#8, 0#8, 0#8, 1#8]) = "IF_UP default, 02:00:00:00:00:01" := by decide

/-! ### Small states -/

/-- The next state, or `s` where there is none. -/
def nextOr (s : State) (o : Host.Outcome State Fault Refusal) : State :=
  match o with
  | .next t => t
  | .fault _ => s
  | .refused _ => s

/-- There is a next state. -/
def isNext (o : Host.Outcome State Fault Refusal) : Bool :=
  match o with
  | .next _ => true
  | .fault _ => false
  | .refused _ => false

theorem eq_nextOr {s : State} {o : Host.Outcome State Fault Refusal} (h : isNext o = true) : o = .next (nextOr s o) := by
  cases o <;> simp_all [isNext, nextOr]

/-- The state after an instruction. -/
def after (s : State) (i : Instr) : State := nextOr s (exec i s)

/-- The state after one step. -/
def stepped (s : State) : State := nextOr s (step s)

/-- The last result recorded, without its payload. -/
def lastResult (s : State) : Option (ResultCode × Word) :=
  s.results.getLast?.map fun e => (e.result.code, e.result.value)

/-- Rings of two slots, frames of 2 bytes and more not runts: a machine that meets R5. -/
def small : Params :=
  { Params.default with nTx := 2, nRx := 2, bufCap := 1516, runtMin := 2, poolBytes := 6064 }

/-- MAC1 of 95_test_vectors.md. -/
def mac1 : List Byte := [2#8, 0#8, 0#8, 0#8, 0#8, 1#8]

/-- A short frame. -/
def hello : List Byte := [0x48#8, 0x45#8, 0x4C#8, 0x4C#8, 0x4F#8]

/-- Power-on. -/
def off : State := State.resetWith small

/-- After INIT. -/
def ready : State := after off .init

/-- After IF_UP. -/
def up : State := after ready (.ifUp 0#16 mac1)

/-- After TRANSMIT "HELLO". -/
def sent : State := after up (.transmit 5#16 hello)

/-- Every Tx slot ControllerOwned. -/
def full : State := after sent (.transmit 1#16 [1#8])

/-- After a TX_DONE with one frame left. -/
def done : State := after full .txDone

/-- A good frame received. -/
def got : State := { after up (.rxFrame 2#16 false false [7#8, 8#8]) with
  allocDraws := [true, true], deliverDraws := [true, true] }

/-- A CRC-error frame received, then a good one: every Rx slot HostOwned. -/
def gotTwo : State := after (after up (.rxFrame 3#16 true false [1#8, 2#8, 3#8])) (.rxFrame 2#16 false false [7#8, 8#8])

/-- After a receive buffer error. -/
def broken : State := after up .rxBerr

/-! ### One step of each instruction -/

/-- P1, R100: every cursor 0, STATUS 0x00000001. -/
theorem test_init : statusWord (after State.reset .init) = 0x00000001#32 ∧
    (after State.reset .init).descs.tx.map descWord = [0#32, 0#32, 0#32, 0#32] ∧
    (after State.reset .init).descs.rx.map descWord = [0x80000000#32, 0x80000000#32, 0x80000000#32, 0x80000000#32] := by
  decide

/-- R100: a pool one byte too small. -/
theorem test_init_fails : lastResult (after (State.resetWith { small with poolBytes := 6063 }) .init) =
    some (.errInitFail, 0#32) ∧ (after (State.resetWith { small with poolBytes := 6063 }) .init).phase = .uninit := by
  decide

/-- IF-2. -/
theorem test_if_up : lastResult up = some (.ok, 0x5DC#32) ∧ statusWord up = 0x00001331#32 ∧
    ifinfoWord up = 0x001705DC#32 := by decide

/-- IF-3, IF-4. -/
theorem test_if_up_errors : lastResult (after up (.ifUp 0#16 mac1)) = some (.errState, 0#32) ∧
    lastResult (after ready (.ifUp 0#16 [1#8, 2#8, 3#8, 4#8, 5#8])) = some (.errLen, 0#32) := by decide

/-- TX-1, P1: the descriptor of "HELLO". -/
theorem test_transmit : lastResult sent = some (.ok, 0#32) ∧ sent.descs.tx.map descWord = [0x80000005#32, 0#32] ∧
    sent.cur = ⟨1, 0⟩ ∧ sent.kick = true ∧ Memory.read sent.mem 0x20010004 = some 0x4F#8 := by decide

/-- TX-5, with two slots: the third TRANSMIT gives BUSY. -/
theorem test_transmit_busy : lastResult (after full (.transmit 1#16 [1#8])) = some (.busy, 0#32) ∧
    (after full (.transmit 1#16 [1#8])).descs = full.descs := by decide

/-- RX-2. -/
theorem test_receive : lastResult (after got .receive) = some (.frame, 2#32) ∧
    (after got .receive).results.getLast?.map (fun e => e.result.payload) = some [7#8, 8#8] ∧
    (after got .receive).descs.rx.map descWord = [0x80110002#32, 0x80000000#32] ∧
    (after got .receive).pend.rxr = true := by decide

/-- RX-3: the slot with a CRC error is discarded in the same command. -/
theorem test_receive_discards : lastResult (after { gotTwo with allocDraws := [true] } .receive) =
    some (.frame, 0x00010002#32) ∧ (after { gotTwo with allocDraws := [true] } .receive).cntErr = 1#32 := by decide

/-- RX-11, and R132's start step. -/
theorem test_drain : lastResult (after off .drain) = some (.errNotInit, 0#32) ∧
    (after got .drain).drain = ⟨.draining 0, .idle, .idle⟩ ∧ (after got .drain).results = got.results := by decide

/-- RX-8: a frame the stack refuses is counted, and the DRAIN goes on. -/
theorem test_drain_step_refused : (nextOr off (drainStep 0 { got with deliverDraws := [false] })).cntDlverr = 1#32 ∧
    (nextOr off (drainStep 0 { got with deliverDraws := [false] })).delivered = [] := by decide

/-- RX-13. -/
theorem test_ack_rx : lastResult (after got .ackRx) = some (.ok, 0#32) ∧ (after got .ackRx).pend.rxr = false ∧
    (after got .ackRx).descs = got.descs := by decide

/-- R190: STATUS bit 2 clear. -/
theorem test_ack_tx : done.pend.txc = true ∧ (statusWord (after done .ackTx)).getLsbD 2 = false := by decide

/-- LP-2, LP-3. -/
theorem test_link_poll : lastResult (after (after off (.phyLink true)) .linkPoll) = some (.ok, 1#32) ∧
    statusWord (after (after (after off (.phyLink true)) .linkPoll) (.phyLink false)) = 0x00000800#32 := by decide

/-- CP-5's STATUS, with both enables set. -/
theorem test_get_status : lastResult (after broken .getStatus) = some (.ok, 0x0000133A#32) := by decide

/-- W10. -/
theorem test_get_ifinfo : lastResult (after State.reset .getIfinfo) = some (.ok, 0x000005DC#32) ∧
    (after State.reset .getIfinfo).results.getLast?.map (fun e => e.result.payload) =
      some [0#8, 0#8, 0#8, 0#8, 0#8, 0#8] := by decide

/-- AR-2. -/
theorem test_irq_mask : statusWord (after up (.irqMask true false)) = 0x00001311#32 := by decide

/-- AR-1, and R192's return. -/
theorem test_eoi : lastResult (after up (.eoi .txc)) = some (.errState, 0#32) ∧
    (after (enterIsr done .txc) (.eoi .txc)).ctxStack = [.mainline] := by decide

/-- RX-6. -/
theorem test_get_counters :
    lastResult (after (after gotTwo (.rxFrame 0#16 false false [])) (.getCounters .miss)) = some (.ok, 1#32) := by decide

/-- R120's example, GD-1. -/
theorem test_get_desc : lastResult (after sent (.getDesc .tx 0#8)) = some (.ok, 0x80000005#32) ∧
    lastResult (after up (.getDesc .rx 2#8)) = some (.errRange, 0#32) := by decide

/-- CP-2. -/
theorem test_tx_done : done.wireOut = [hello] ∧ done.kick = true ∧
    done.descs.tx.map descWord = [0x00010005#32, 0x80000001#32] := by decide

/-- CP-1. -/
theorem test_tx_done_ignored : after up .txDone = up := by decide

/-- R171: the DESC words of a good frame and of a runt with a CRC error. -/
theorem test_rx_frame : (after up (.rxFrame 2#16 false false [7#8, 8#8])).descs.rx.map descWord =
    [0x00110002#32, 0x80000000#32] ∧
    (after up (.rxFrame 1#16 true false [7#8])).descs.rx.map descWord = [0x00430001#32, 0x80000000#32] := by decide

/-- R171: a full ring counts the frame in `cnt_miss`. -/
theorem test_rx_frame_miss : after gotTwo (.rxFrame 1#16 false false [7#8]) = { gotTwo with cntMiss := 1#32 } := by
  decide

/-- CP-5, CP-6. -/
theorem test_rx_berr : broken.phase = .fatal ∧ broken.pend.rxr = true ∧ after broken .rxBerr = broken := by decide

/-- CP-7. -/
theorem test_phy_link : (after off (.phyLink true)).phyLink = true ∧ statusWord (after off (.phyLink true)) = 0#32 := by
  decide

/-! ### Operations and the step -/

/-- A later write to the same byte replaces it, and the cells stay in rising order. -/
theorem test_memory : Memory.write (Memory.write (Memory.write [] 9 1#8) 4 2#8) 9 3#8 = [(4, 2#8), (9, 3#8)] := by decide

/-- R52 at the ends of the arenas. -/
theorem test_decode_addr : decodeAddr Params.default 0x20010000 = .buf .tx 0 0 ∧
    decodeAddr Params.default 0x200117FF = .buf .tx 3 1535 ∧ decodeAddr Params.default 0x20011800 = .unmapped ∧
    decodeAddr Params.default 0x20012600 = .buf .rx 1 0 ∧ decodeAddr Params.default 0x2000FFFF = .unmapped := by decide

/-- R103's examples. -/
theorem test_classify : classify Params.default 60#16 false false 1500#16 = ⟨true, false, false, false, true⟩ ∧
    classify Params.default 59#16 false false 1500#16 = ⟨false, false, true, false, true⟩ ∧
    classify Params.default 1515#16 false false 1500#16 = ⟨false, false, false, true, true⟩ ∧
    classify Params.default 20#16 true false 1500#16 = ⟨false, true, true, false, true⟩ ∧
    classify Params.default 100#16 false true 1500#16 = ⟨false, false, false, false, true⟩ := by decide

/-- R79: at power-on the STATUS word is 0. -/
theorem test_power_on_status : statusWord State.reset = 0#32 ∧ ifinfoWord State.reset = 0x000005DC#32 := by decide

/-- The first step after reset runs the placed command and the placed event. -/
theorem test_first_step : (stepped (State.reset.withFetchWord 32 0x10000000)).phase = .ready ∧
    (stepped (State.reset.withFetchWord 32 0x40000001)).phyLink = true := by decide

/-- R205: `TX_FIRST` keeps RXR waiting while TXC requests, and `RX_FIRST` the other way round. -/
theorem test_arbitration :
    canEnter { up with pend := ⟨true, true⟩, cfg := { small with arbPriority := .txFirst } } .rxr = false ∧
    canEnter { up with pend := ⟨true, true⟩, cfg := { small with arbPriority := .txFirst } } .txc = true ∧
    canEnter { up with pend := ⟨true, true⟩, cfg := { small with arbPriority := .rxFirst } } .txc = false ∧
    canEnter { up with pend := ⟨true, true⟩ } .rxr = true := by decide

/-- The observation, where the steps give one. -/
def observed (n : Nat) (s : State) : Option Observation :=
  match observeSteps n s with
  | .next o => some o
  | .fault _ => none
  | .refused _ => none

/-- R10: a TX_DONE after the end of the run puts the frame on the wire, and the observation does not show it. -/
theorem test_observation_stops_at_the_end :
    { sent with sched := [.controller 0x10000000#32 []] }.Ended ∧
    (stepped { sent with sched := [.controller 0x10000000#32 []] }).wireOut = [hello] ∧
    (observed 1 { sent with sched := [.controller 0x10000000#32 []] }).map (fun o => o.wireOut) = some [] := by decide

/-- R10: before the end the steps are observed. -/
theorem test_observation_before_the_end :
    (observed 2 { off with prog := [⟨0x10000000#32, []⟩], sched := [.host, .host] }).map
      (fun o => o.results.map (fun e => (e.ctx, e.word, e.result.code))) =
      some [(Ctx.mainline, 0x10000000#32, ResultCode.ok)] := by decide

/-! ### Witnesses: the hypotheses of the obligations can be met -/

/-- Checks the invariant part by part. -/
theorem invariant_of {s : State} (hc : s.cfg.Ok) (hm : Memory.wf s.mem) (hu : mtuOk s.cfg s.mtu = true) (hx : CtxLaw s)
    (he : EnableLaw s) (hp : s.phase ≠ .uninit) (ht : RingLaw s .tx) (hr : RingLaw s .rx) (h1 : TxRun s) (h2 : RxRun s)
    (hk : KickLaw s) : s.Invariant :=
  ⟨hc, hm, hu, hx, he, fun h => absurd h hp, fun _ => ⟨ht, hr, h1, h2, hk⟩⟩

theorem off_invariant : off.Invariant :=
  ⟨by decide, by decide, by decide, by decide, by decide, fun _ => by decide, fun h => absurd rfl h⟩

theorem up_invariant : up.Invariant :=
  invariant_of (by decide) (by decide) (by decide) (by decide) (by decide) (by decide) (by decide) (by decide)
    (by decide) (by decide) (by decide)

theorem sent_invariant : sent.Invariant :=
  invariant_of (by decide) (by decide) (by decide) (by decide) (by decide) (by decide) (by decide) (by decide)
    (by decide) (by decide) (by decide)

theorem full_invariant : full.Invariant :=
  invariant_of (by decide) (by decide) (by decide) (by decide) (by decide) (by decide) (by decide) (by decide)
    (by decide) (by decide) (by decide)

theorem got_invariant : got.Invariant :=
  invariant_of (by decide) (by decide) (by decide) (by decide) (by decide) (by decide) (by decide) (by decide)
    (by decide) (by decide) (by decide)

theorem broken_invariant : broken.Invariant :=
  invariant_of (by decide) (by decide) (by decide) (by decide) (by decide) (by decide) (by decide) (by decide)
    (by decide) (by decide) (by decide)

/-- The receive handler entered with a frame waiting, its DRAIN started. -/
def draining : State := after (enterIsr got .rxr) .drain

/-- The same with the receive ring drained. -/
def acking : State := nextOr got (drainStep 1 (nextOr got (drainStep 0 draining)))

theorem draining_invariant : draining.Invariant :=
  invariant_of (by decide) (by decide) (by decide) (by decide) (by decide) (by decide) (by decide) (by decide)
    (by decide) (by decide) (by decide)

theorem acking_invariant : acking.Invariant :=
  invariant_of (by decide) (by decide) (by decide) (by decide) (by decide) (by decide) (by decide) (by decide)
    (by decide) (by decide) (by decide)

theorem witness_DecodeOfEncode : ∀ i ∈ [Instr.init, .ifUp 65535#16 [], .transmit 0#16 hello, .irqMask true true,
    .eoi .rxr, .getCounters .dlverr, .getDesc .rx 255#8, .txDone, .rxFrame 5#16 true true hello, .rxBerr,
    .phyLink false], i.wellFormed = true := by decide

theorem witness_EncodeOfDecode : decode .host 0xE0008002#32 [] = .ok (.getDesc .rx 2#8) ∧
    decode .controller 0x20030000#32 [] = .ok (.rxFrame 0#16 true true []) := by decide

theorem witness_WordsDecodeToTheRowTheyMatch :
    (decode .host 0xC0000001#32 [] = .ok (.eoi .rxr) ∧ (Instr.eoi .txc).port = .host ∧
      0xC0000001#32 &&& (tableRow (.eoi .txc)).2 = (tableRow (.eoi .txc)).1) ∧
    (0x20000002#32 &&& (tableRow (.rxFrame 0#16 false false [])).2 = (tableRow (.rxFrame 0#16 false false [])).1 ∧
      payloadAllowed (.rxFrame 0#16 false false []) 0x20000002#32 [7#8, 8#8]) ∧
    payloadAllowed (.ifUp 0#16 []) 0x20000000#32 hello ∧ payloadAllowed (.transmit 0#16 []) 0x30000000#32 hello ∧
    payloadAllowed .init 0x10000000#32 [] :=
  ⟨by decide, ⟨by decide, rfl⟩, trivial, trivial, rfl⟩

/-- Power-on with one command in the program and the host to step. -/
def command (w : Word) (payload : List Byte) : State := { off with prog := [⟨w, payload⟩], sched := [.host] }

/-- The mainline is to run the command, legal or illegal: the other hypotheses of IllegalHostWordGivesErrIllegal. -/
theorem witness_command (w : Word) (payload : List Byte) : (command w payload).cfg.Ok ∧
    (command w payload).sched = .host :: [] ∧ running (command w payload) = .mainline ∧
    (command w payload).drain.mainline = .idle ∧ (command w payload).prog[(command w payload).pc]? = some ⟨w, payload⟩ :=
  ⟨off_invariant.1, rfl, rfl, rfl, rfl⟩

theorem witness_IllegalHostWordGivesErrIllegal :
    illegalHost 0x00000000#32 [] ∧ illegalHost 0xF0000000#32 [] ∧ illegalHost 0x10010000#32 [] ∧
    illegalHost 0x40000000#32 [1#8] ∧ illegalHost 0x40000001#32 [] ∧ illegalHost 0xB0000004#32 [] ∧
    illegalHost 0xC0000002#32 [] ∧ illegalHost 0xD0000004#32 [] ∧ illegalHost 0xE0000100#32 [] ∧
    ¬ illegalHost 0x30000006#32 hello := by
  and_intros <;> (unfold illegalHost; decide)

theorem witness_IllegalControllerWordIsIgnored :
    illegalController 0x00000000#32 [] ∧ illegalController 0x50000000#32 [] ∧ illegalController 0x10000001#32 [] ∧
    illegalController 0x30000000#32 [1#8] ∧ illegalController 0x20040000#32 [] ∧ illegalController 0x20000002#32 [1#8] ∧
    illegalController 0x40000002#32 [] ∧ illegalController 0x40000000#32 [1#8] := by
  and_intros <;> (unfold illegalController; decide)

theorem witness_StepRunsTheMainlineCommand : (command 0x10000000#32 []).cfg.Ok ∧
    (command 0x10000000#32 []).sched = .host :: [] ∧ running (command 0x10000000#32 []) = .mainline ∧
    (command 0x10000000#32 []).drain.mainline = .idle ∧
    (command 0x10000000#32 []).prog[(command 0x10000000#32 []).pc]? = some ⟨0x10000000#32, []⟩ ∧
    decode .host 0x10000000#32 [] = .ok .init := by decide

/-- Power-on with one controller word to come: the hypotheses of IllegalControllerWordIsIgnored and
StepRunsTheControllerEvent about the state. -/
theorem witness_event (w : Word) (payload : List Byte) : { off with sched := [.controller w payload] }.cfg.Ok ∧
    { off with sched := [.controller w payload] }.sched = .controller w payload :: [] := ⟨off_invariant.1, rfl⟩

theorem witness_StepRunsTheControllerEvent : { off with sched := [.controller 0x40000001#32 []] }.cfg.Ok ∧
    decode .controller 0x40000001#32 [] = .ok (.phyLink true) := by decide

/-- A handler entered, the host to step. -/
def inHandler (src : Source) (n : Nat) : State :=
  { enterIsr up src with sched := [.host], ipc := (enterIsr up src).ipc.set src n }

theorem witness_HandlersRunTheirFixedBodies :
    (∀ n ∈ [0, 1, 2], (inHandler .txc n).cfg.Ok ∧ (inHandler .txc n).sched = [.host] ∧ running (inHandler .txc n) = .isrTx ∧
      (inHandler .txc n).drain.isrTx = .idle ∧ (inHandler .txc n).ipc.txc = n) ∧
    (∀ n ∈ [0, 1, 2], (inHandler .rxr n).cfg.Ok ∧ (inHandler .rxr n).sched = [.host] ∧ running (inHandler .rxr n) = .isrRx ∧
      (inHandler .rxr n).drain.isrRx = .idle ∧ (inHandler .rxr n).ipc.rxr = n) := by decide

theorem witness_HostStepContinuesTheDrainFirst :
    (∀ s ∈ [draining, acking, off], s.cfg.Ok ∧ { s with sched := [.host] }.sched = .host :: []) ∧
    draining.drain.get (running draining) = .draining 0 ∧ acking.drain.get (running acking) = .acking 1 ∧
    running off = .mainline ∧ off.drain.mainline = .idle ∧ off.prog.length ≤ off.pc := by decide

theorem witness_InterruptEntry : { got with sched := [.enter .rxr] }.cfg.Ok ∧
    canEnter { got with sched := [.enter .rxr] } .rxr = true ∧
    canEnter { got with sched := [.enter .txc] } .txc = false ∧ canEnter done .txc = true := by decide

theorem witness_ReturnRestoresThePreemptedContext :
    exec (.eoi .txc) (enterIsr draining .txc) = .next (after (enterIsr draining .txc) (.eoi .txc)) ∧
    exec (.eoi .rxr) (enterIsr got .rxr) = .next (after (enterIsr got .rxr) (.eoi .rxr)) :=
  ⟨eq_nextOr (by decide), eq_nextOr (by decide)⟩

theorem witness_BadParametersAreRefused : off.cfg.Ok ∧ ¬{ small with bufCap := 1512 }.Ok ∧ ¬{ small with nTx := 257 }.Ok ∧
    ¬{ small with rxBufBase := 0x20010004 }.Ok := by decide

theorem witness_InitInitialisesTheRings : (off.cfg.nTx + off.cfg.nRx) * off.cfg.bufCap ≤ off.cfg.poolBytes ∧
    6063 < ({ small with poolBytes := 6063 }.nTx + { small with poolBytes := 6063 }.nRx) * 1516 := by decide

theorem witness_RingLawsAfterInit : off.cfg.Ok ∧
    (off.cfg.nTx + off.cfg.nRx) * off.cfg.bufCap ≤ off.cfg.poolBytes ∧ exec .init off = .next ready ∧
    hello.length = (5#16).toNat ∧ txLenOk ready.cfg ready.mtu 5#16 = true :=
  ⟨by decide, by decide, eq_nextOr (s := off) (by decide), by decide, by decide⟩

theorem witness_AdvanceGoesRoundTheRing : 0 < { small with nTx := 1 }.card .tx ∧ 255 < { small with nRx := 256 }.card .rx := by
  decide

theorem witness_ValidatorsOfLengthAndMtu : mtuOk small 1#16 = true ∧ mtuOk small 1502#16 = true ∧
    mtuOk small 1503#16 = false ∧ mtuOk small 0#16 = false ∧ txLenOk small 1500#16 1514#16 = true ∧
    txLenOk small 1500#16 1515#16 = false ∧ txLenOk small 1500#16 0#16 = false := by decide

theorem witness_AddressDecoderInvertsTheBufferMap : small.Ok ∧ (1 < small.card .rx ∧ 1515 < small.bufCap) ∧
    decodeAddr small 0x20012BD7 = .buf .rx 1 1515 ∧ decodeAddr small 0x20012BD8 = .unmapped := by decide

theorem witness_TransmitHandsOffOneFrame :
    off.phase = .uninit ∧ broken.phase = .fatal ∧
    (up.phase = .ready ∧ ¬(hello.length = (6#16).toNat ∧ 1 ≤ (6#16).toNat ∧ (6#16).toNat ≤ 1514)) ∧
    (full.phase = .ready ∧ hello.length = (5#16).toNat ∧ (5#16).toNat ≤ min full.cfg.bufCap (14 + full.mtu.toNat) ∧
      full.descs.tx[full.cur.tx]?.map (fun d => d.own) = some .controllerOwned) ∧
    (up.phase = .ready ∧ (5#16).toNat ≤ min up.cfg.bufCap (14 + up.mtu.toNat) ∧
      up.descs.tx[up.cur.tx]?.map (fun d => d.own) = some .hostOwned) := by decide

theorem witness_TransmitHandsOffOneFrame_bounds :
    (List.replicate 1514 0#8).length = (1514#16).toNat ∧ (1514#16).toNat ≤ min up.cfg.bufCap (14 + up.mtu.toNat) ∧
    ¬(1515#16).toNat ≤ min up.cfg.bufCap (14 + up.mtu.toNat) ∧ up.Invariant :=
  ⟨List.length_replicate, by decide, by decide, up_invariant⟩

theorem witness_TransmitWritesOnlyAHostOwnedSlot :
    exec (.transmit 1#16 [1#8]) sent = .next full ∧ full.results.getLast?.map (fun e => e.result.code) = some .ok ∧
    sent.descs.tx[0]?.map (fun d => d.own) = some .controllerOwned ∧
    exec (.transmit 1#16 [1#8]) full = .next (after full (.transmit 1#16 [1#8])) ∧
    (after full (.transmit 1#16 [1#8])).results.getLast?.map (fun e => e.result.code) ≠ some .ok :=
  ⟨eq_nextOr (s := sent) (by decide), by decide, by decide, eq_nextOr (by decide), by decide⟩

/-- A frame queued and a frame received, a DRAIN of the mainline under way. -/
def sentDraining : State := after (after sent (.rxFrame 2#16 false false [7#8, 8#8])) .drain

theorem sentDraining_invariant : sentDraining.Invariant :=
  invariant_of (by decide) (by decide) (by decide) (by decide) (by decide) (by decide) (by decide) (by decide)
    (by decide) (by decide) (by decide)

/-- The same with the draws given. -/
def sentDrawn : State := { sentDraining with allocDraws := [true], deliverDraws := [true] }

theorem witness_HandOffIsIrreversible : sentDraining.Invariant ∧ sentDrawn.Invariant ∧
    sentDraining.descs.tx[0]?.map (fun d => d.own) = some .controllerOwned ∧
    exec .getStatus sentDraining = .next (after sentDraining .getStatus) ∧
    drainStep 0 sentDrawn = .next (nextOr sentDrawn (drainStep 0 sentDrawn)) ∧
    drainAck 0 sentDraining = .next (nextOr sentDraining (drainAck 0 sentDraining)) :=
  ⟨sentDraining_invariant, sentDraining_invariant, by decide, eq_nextOr (by decide), eq_nextOr (by decide),
    eq_nextOr (by decide)⟩

theorem witness_ReceiveTakesTheNextGoodFrame :
    off.phase = .uninit ∧ broken.phase = .fatal ∧
    (up.phase = .ready ∧ up.descs.rx[up.cur.rx]?.map (fun d => d.own) = some .controllerOwned) ∧
    (gotTwo.phase = .ready ∧
      gotTwo.descs.rx[gotTwo.cur.rx]?.map (fun d => (d.own, d.st.good)) = some (.hostOwned, false)) ∧
    (got.phase = .ready ∧ got.descs.rx[got.cur.rx]?.map (fun d => (d.own, d.st.good)) = some (.hostOwned, true) ∧
      (drawAlloc got).1 = true ∧ (drawAlloc { got with allocDraws := [false] }).1 = false) := by decide

theorem witness_ReceiveEndsWithinTheRing : got.Invariant ∧ got.phase = .ready := ⟨got_invariant, by decide⟩

theorem witness_EmptyReceiveIsIdempotent : up.phase = .ready ∧ exec .receive up = .next (after up .receive) ∧
    (after up .receive).results.getLast?.map (fun e => e.result.code) = some .empty :=
  ⟨by decide, eq_nextOr (by decide), by decide⟩

theorem witness_PerFrameErrorsStayInsideThePath : got.phase = .ready ∧ exec .receive got = .next (after got .receive) ∧
    drainStep 0 draining = .next (nextOr draining (drainStep 0 draining)) ∧ draining.phase = .ready :=
  ⟨by decide, eq_nextOr (by decide), eq_nextOr (by decide), by decide⟩

/-- The receive outcome of a state that meets it, and the state it leaves. -/
def received (s : State) : Option (Word × List Byte) × State :=
  match receiveFrom s with
  | .ok r => r
  | .error _ => (none, off)

theorem witness_DrainStartsStepsAndAcknowledges :
    4294967295 < 2 ^ 32 ∧ off.phase = .uninit ∧ got.phase ≠ .uninit ∧ broken.phase = .fatal ∧
    (up.phase = .ready ∧ (receiveFrom up).toOption = some (none, up)) ∧
    (got.phase = .ready ∧ (receiveFrom got).toOption = some (some (2#32, [7#8, 8#8]), (received got).2) ∧
      (drawDeliver (received got).2).1 = true) ∧
    (drawDeliver (received { got with deliverDraws := [false] }).2).1 = false := by decide

theorem witness_DrainDeliversInRingOrder : draining.Invariant ∧ draining.phase = .ready ∧
    draining.drain.get (running draining) = .draining 0 ∧ 1 ≤ countOwn draining.descs.rx .hostOwned ∧
    (∀ j < 1, ∀ d ∈ draining.descs.rx[(draining.cur.rx + j) % draining.cfg.nRx]?, d.st.good = true) ∧
    draining.allocDraws = List.replicate 1 true ++ [true] ∧ draining.deliverDraws = List.replicate 1 true ++ [true] :=
  ⟨draining_invariant, by decide, by decide, by decide, by decide, by decide, by decide⟩

theorem witness_LostNotificationRace : acking.phase = .ready ∧ acking.rxEn = true ∧
    acking.descs.rx[acking.ccur.rx]?.map (fun d => d.own) = some .controllerOwned ∧
    acking.drain.get (running acking) = .acking 1 ∧
    exec (.rxFrame 1#16 true false [7#8]) acking = .next (after acking (.rxFrame 1#16 true false [7#8])) ∧
    drainAck 1 (after acking (.rxFrame 1#16 true false [7#8])) =
      .next (nextOr acking (drainAck 1 (after acking (.rxFrame 1#16 true false [7#8])))) :=
  ⟨by decide, by decide, by decide, by decide, eq_nextOr (by decide), eq_nextOr (by decide)⟩

theorem witness_IfUpBringsTheInterfaceUp :
    1500#16 = (if 0#16 = 0#16 then 1500#16 else 0#16) ∧ off.phase = .uninit ∧ broken.phase = .fatal ∧
    (ready.phase = .ready ∧ hello.length ≠ 6) ∧
    (mac1.length = 6 ∧ ¬(1 ≤ (1503#16).toNat ∧ (1503#16).toNat ≤ ready.cfg.bufCap - 14)) ∧
    ((1502#16).toNat ≤ up.cfg.bufCap - 14 ∧ up.ifcfg = true) ∧
    ((1502#16).toNat ≤ ready.cfg.bufCap - 14 ∧ ready.ifcfg = false) := by decide

theorem witness_GetDescReadsOneDescriptor : off.phase = .uninit ∧ sent.phase ≠ .uninit ∧
    sent.cfg.card .rx ≤ (2#8).toNat ∧ (1#8).toNat < sent.cfg.card .rx ∧
    sent.descs.tx[(1#8).toNat]?.map (fun d => d.own) = some .hostOwned ∧
    sent.descs.tx[(0#8).toNat]?.map (fun d => d.own) = some .controllerOwned := by decide

theorem witness_TxDoneGivesTheSlotBack :
    ¬(up.phase = .ready ∧ up.txEn = true ∧ up.kick = true) ∧
    (sent.phase = .ready ∧ sent.txEn = true ∧ sent.kick = true ∧
      sent.descs.tx[sent.ccur.tx]?.map (fun d => d.own) = some .controllerOwned) ∧
    ({ up with kick := true }.txEn = true ∧ up.descs.tx[up.ccur.tx]?.map (fun d => d.own) = some .hostOwned) := by decide

theorem witness_RxFrameStoresOrDropsTheFrame :
    hello.length = (5#16).toNat ∧ ([] : List Byte).length = (0#16).toNat ∧
    ¬(ready.phase = .ready ∧ ready.rxEn = true) ∧
    (up.phase = .ready ∧ up.rxEn = true ∧ up.descs.rx[up.ccur.rx]?.map (fun d => d.own) = some .controllerOwned) ∧
    (gotTwo.rxEn = true ∧ gotTwo.descs.rx[gotTwo.ccur.rx]?.map (fun d => d.own) = some .hostOwned) := by decide

theorem witness_RxBerrEntersFatal : up.phase = .ready ∧ broken.phase ≠ .ready ∧ off.phase ≠ .ready := by decide

theorem witness_ControllerNeverWritesAHostOwnedSlot : got.Invariant ∧
    (Instr.rxFrame 1#16 false false [7#8]).wellFormed = true ∧ (Instr.rxFrame 1#16 false false [7#8]).port = .controller ∧
    exec (.rxFrame 1#16 false false [7#8]) got = .next (after got (.rxFrame 1#16 false false [7#8])) ∧
    got.descs.rx[0]?.map (fun d => d.own) = some .hostOwned :=
  ⟨got_invariant, by decide, by decide, eq_nextOr (by decide), by decide⟩

theorem witness_EoiEndsTheRunningHandler :
    (draining.act.get .rxr = true ∧ draining.ctxStack.head? = some .isrRx) ∧
    ((inHandler .txc 1).act.get .txc = true ∧ (inHandler .txc 1).ctxStack.head? = some .isrTx) ∧
    ¬(draining.act.get .txc = true ∧ draining.ctxStack.head? = some .isrTx) := by decide

theorem witness_OnlyTheNamedInstructionsWriteEachField : exec .txDone full = .next done :=
  eq_nextOr (s := full) (by decide)

theorem witness_OnlyInitLeavesFatal : broken.phase = .fatal ∧
    drainStep 0 broken = .next (nextOr broken (drainStep 0 broken)) ∧
    exec .ackRx broken = .next (after broken .ackRx) ∧
    (broken.cfg.nTx + broken.cfg.nRx) * broken.cfg.bufCap ≤ broken.cfg.poolBytes :=
  ⟨by decide, eq_nextOr (by decide), eq_nextOr (by decide), by decide⟩

theorem witness_TxRingIsOneRun : sent.Invariant ∧ sent.phase ≠ .uninit ∧ full.Invariant ∧ full.phase ≠ .uninit ∧
    broken.Invariant ∧ broken.phase ≠ .uninit :=
  ⟨sent_invariant, by decide, full_invariant, by decide, broken_invariant, by decide⟩

theorem witness_RxRingIsOneRun : got.Invariant ∧ got.phase ≠ .uninit := ⟨got_invariant, by decide⟩

theorem witness_TxRingIsAFifoQueue : sent.Invariant ∧ sent.phase ≠ .uninit ∧
    exec (.transmit 1#16 [1#8]) sent = .next full ∧ full.results.getLast?.map (fun e => e.result.code) = some .ok ∧
    exec .txDone full = .next done ∧ done ≠ full ∧ exec .receive up = .next (after up .receive) ∧
    drainStep 0 sentDrawn = .next (nextOr sentDrawn (drainStep 0 sentDrawn)) :=
  ⟨sent_invariant, by decide, eq_nextOr (s := sent) (by decide), by decide, eq_nextOr (s := full) (by decide), by decide,
    eq_nextOr (by decide), eq_nextOr (by decide)⟩

theorem witness_RxRingIsAFifoQueue : got.Invariant ∧ got.phase = .ready ∧ hello.length = (5#16).toNat ∧
    exec (.rxFrame 5#16 true false hello) got = .next (after got (.rxFrame 5#16 true false hello)) ∧
    rxQueue (after got (.rxFrame 5#16 true false hello)) = [some [7#8, 8#8], some hello] ∧
    exec .receive got = .next (after got .receive) ∧ exec .drain got = .next (after got .drain) :=
  ⟨got_invariant, by decide, by decide, eq_nextOr (by decide), by decide, eq_nextOr (by decide), eq_nextOr (by decide)⟩

theorem witness_InvariantHoldsAtReset : small.Ok ∧ Params.default.Ok := by decide

/-- States whose next steps are an entry, a DRAIN_STEP, a DRAIN_ACK, a host command and an event. -/
theorem witness_steps : ∀ s ∈ [{ got with sched := [.enter .rxr] }, { draining with sched := [.host] },
    { acking with sched := [.host] }, command 0x10000000#32 [], { up with sched := [.controller 0x10000000#32 []] }],
    isNext (step s) = true := by decide

/-- The hypotheses of the obligations about a step: EveryStepKeepsTheInvariant, EveryStepAnswersANextState,
HandlersStayInTheirBodies, NestingIsAtMostThreeDeep, TracesOnlyGrow. -/
theorem witness_EveryStep : { draining with sched := [.host] }.Invariant ∧ HandlerLaw { draining with sched := [.host] } ∧
    step { draining with sched := [.host] } = .next (stepped { draining with sched := [.host] }) ∧
    off.Invariant ∧ acking.Invariant :=
  ⟨draining_invariant, by decide, eq_nextOr (by decide), off_invariant, acking_invariant⟩

end Sys2Proof.Tests
end

section
/-!
SUPPORT. The step by the schedule's head and by the parameters: what an agent's turn carries out, that no action is
refused, and the two obligations of 00_scope.md that follow.
-/

namespace Sys2Proof.Machine

/-! ### The step with a schedule -/

theorem pickAgent_of_sched {s : State} {a : Agent} {rest : List Agent} (h : s.sched = a :: rest) :
    pickAgent s = (a, { s with sched := rest }) := by
  simp [pickAgent, h]

/-- With legal parameters the head of the schedule takes the step (R5, R6, entry 1). -/
theorem step_of_sched {s : State} {a : Agent} {rest : List Agent} (hc : s.cfg.Ok) (h : s.sched = a :: rest) :
    step s = perform (agentAction a { s with sched := rest }) { s with sched := rest } := by
  rw [step, if_pos hc, pickAgent_of_sched h]

theorem controllerAction_of_decode {w : Word} {payload : List Byte} {i : Instr}
    (h : decode .controller w payload = .ok i) : controllerAction w payload = .run i := by
  simp [controllerAction, h]

/-- Settles O9: the schedule's head is the controller word, and its action is the event it decodes to. -/
theorem stepRunsTheControllerEvent : Obligations.StepRunsTheControllerEvent := by
  intro s rest w payload i hc hs hd
  calc step s = perform (controllerAction w payload) { s with sched := rest } := step_of_sched hc hs
    _ = exec i { s with sched := rest } := by rw [controllerAction_of_decode hd, perform]

/-! ### Nothing but the parameters is refused

One lemma for each operation that has branches; the others answer `.next` by definition. -/

theorem execIfUp_ne_refused (mtu : Half) (payload : List Byte) (s : State) (r : Refusal) :
    execIfUp mtu payload s ≠ .refused r := by
  cases hp : s.phase with
  | uninit => simp [execIfUp, hp]
  | fatal => simp [execIfUp, hp]
  | ready =>
    simp only [execIfUp, hp, ifUpReady]
    split
    · simp
    · split_ifs <;> simp

theorem execTransmit_ne_refused (len : Half) (frame : List Byte) (s : State) (r : Refusal) :
    execTransmit len frame s ≠ .refused r := by
  have slot : transmitSlot len frame s ≠ .refused r := by
    unfold transmitSlot
    split
    · simp
    · split
      · simp
      · split <;> simp
  unfold execTransmit
  split
  · simp
  · simp
  · split_ifs
    · exact slot
    · simp

theorem execReceive_ne_refused (s : State) (r : Refusal) : execReceive s ≠ .refused r := by
  cases hp : s.phase with
  | uninit => simp [execReceive, hp]
  | fatal => simp [execReceive, hp]
  | ready =>
    simp only [execReceive, hp, receiveResult]
    split <;> simp

theorem execDrain_ne_refused (s : State) (r : Refusal) : execDrain s ≠ .refused r := by
  unfold execDrain
  split <;> simp

theorem execEoi_ne_refused (src : Source) (s : State) (r : Refusal) : execEoi src s ≠ .refused r := by
  unfold execEoi
  split_ifs <;> simp

theorem execInit_ne_refused (s : State) (r : Refusal) : execInit s ≠ .refused r := by
  unfold execInit
  split_ifs <;> simp

theorem execGetDesc_ne_refused (ring : Ring) (idx : Byte) (s : State) (r : Refusal) :
    execGetDesc ring idx s ≠ .refused r := by
  have read : getDescAt ring idx s ≠ .refused r := by
    unfold getDescAt
    split_ifs
    · simp
    · split <;> simp
  cases hp : s.phase with
  | uninit => simp [execGetDesc, hp]
  | ready => simpa only [execGetDesc, hp] using read
  | fatal => simpa only [execGetDesc, hp] using read

theorem execTxDone_ne_refused (s : State) (r : Refusal) : execTxDone s ≠ .refused r := by
  have complete (d : Desc) : txComplete d s ≠ .refused r := by
    unfold txComplete
    split
    · simp
    · split <;> simp
  unfold execTxDone
  split_ifs
  · split
    · simp
    · split
      · simp
      · exact complete _
  · simp

theorem execRxFrame_ne_refused (len : Half) (crcErr otherErr : Bool) (bytes : List Byte) (s : State) (r : Refusal) :
    execRxFrame len crcErr otherErr bytes s ≠ .refused r := by
  have store (d : Desc) : rxStore len crcErr otherErr bytes d s ≠ .refused r := by
    unfold rxStore
    split <;> simp
  unfold execRxFrame
  split_ifs
  · split
    · simp
    · split
      · simp
      · exact store _
  · simp

theorem execRxBerr_ne_refused (s : State) (r : Refusal) : execRxBerr s ≠ .refused r := by
  unfold execRxBerr
  split_ifs <;> simp

/-- Every instruction has a meaning: none is refused (R202). -/
theorem exec_ne_refused (i : Instr) (s : State) (r : Refusal) : exec i s ≠ .refused r := by
  cases i with
  | init => exact execInit_ne_refused s r
  | ifUp mtu payload => exact execIfUp_ne_refused mtu payload s r
  | transmit len frame => exact execTransmit_ne_refused len frame s r
  | receive => exact execReceive_ne_refused s r
  | drain => exact execDrain_ne_refused s r
  | eoi src => exact execEoi_ne_refused src s r
  | getDesc ring idx => exact execGetDesc_ne_refused ring idx s r
  | txDone => exact execTxDone_ne_refused s r
  | rxFrame len crcErr otherErr bytes => exact execRxFrame_ne_refused len crcErr otherErr bytes s r
  | rxBerr => exact execRxBerr_ne_refused s r
  | ackRx => nofun
  | ackTx => nofun
  | linkPoll => nofun
  | getStatus => nofun
  | getIfinfo => nofun
  | irqMask tx rx => nofun
  | getCounters sel => nofun
  | phyLink v => nofun

theorem drainStep_ne_refused (k : Nat) (s : State) (r : Refusal) : drainStep k s ≠ .refused r := by
  have receive : drainReceive k s ≠ .refused r := by
    unfold drainReceive
    split <;> simp
  cases hp : s.phase with
  | fatal => simp [drainStep, hp]
  | ready => simpa only [drainStep, hp] using receive
  | uninit => simpa only [drainStep, hp] using receive

theorem perform_ne_refused (a : Action) (s : State) (r : Refusal) : perform a s ≠ .refused r := by
  cases a with
  | run i => exact exec_ne_refused i s r
  | drainStep k => exact drainStep_ne_refused k s r
  | drainAck k => simp [perform, drainAck]
  | illegal w => simp [perform]
  | enter src => simp [perform]
  | idle => simp [perform]

theorem step_eq_badConfig_iff (s : State) : step s = .refused .badConfig ↔ ¬s.cfg.Ok := by
  unfold step
  split_ifs with hc
  · exact iff_of_false (perform_ne_refused _ _ _) (not_not_intro hc)
  · exact iff_of_true rfl hc

/-! ### The constraints of R5 -/

/-- Two runs of addresses that are not empty share none exactly when one ends before the other begins. -/
theorem no_common_address_iff {b e b' e' : Nat} (h : b < e) (h' : b' < e') :
    (∀ a, ¬((b ≤ a ∧ a < e) ∧ (b' ≤ a ∧ a < e'))) ↔ e ≤ b' ∨ e' ≤ b := by
  constructor
  · intro noCommon
    have := noCommon (max b b')
    omega
  · intro apart a
    omega

/-- Where a ring has slots and the slots have room, its arena is not empty. -/
theorem Params.base_lt_arenaEnd {p : Params} {r : Ring} (hn : 1 ≤ p.card r) (hb : 1 ≤ p.bufCap) :
    p.base r < p.arenaEnd r :=
  Nat.lt_add_of_pos_right (Nat.mul_pos hn hb)

/-- The arenas of two rings with slots in them share no address exactly when one ends before the other begins. -/
theorem Params.arenas_disjoint_iff {p : Params} (ht : 1 ≤ p.nTx) (hr : 1 ≤ p.nRx) (hb : 1 ≤ p.bufCap) :
    (∀ a, ¬((p.txBufBase ≤ a ∧ a < p.arenaEnd .tx) ∧ (p.rxBufBase ≤ a ∧ a < p.arenaEnd .rx))) ↔
      p.arenaEnd .tx ≤ p.rxBufBase ∨ p.arenaEnd .rx ≤ p.txBufBase :=
  no_common_address_iff (base_lt_arenaEnd (r := .tx) ht hb) (base_lt_arenaEnd (r := .rx) hr hb)

/-- Settles O15: `step` is refused exactly where `Params.Ok` fails, and `Params.Ok` is the constraints of R5, with the
disjointness of the arenas read at their ends. -/
theorem badParametersAreRefused : Obligations.BadParametersAreRefused := by
  intro s
  rw [step_eq_badConfig_iff, not_iff_not]
  constructor
  · rintro ⟨ht, hr, h4, hlo, hhi, hbt, hbr, het, her, apart⟩
    have hb : 1 ≤ s.cfg.bufCap := le_trans (by decide) hlo
    exact ⟨ht, hr, h4, ⟨hlo, hhi⟩, hbt, hbr, het, her, (Params.arenas_disjoint_iff ht.1 hr.1 hb).mpr apart⟩
  · rintro ⟨ht, hr, h4, ⟨hlo, hhi⟩, hbt, hbr, het, her, disjoint⟩
    have hb : 1 ≤ s.cfg.bufCap := le_trans (by decide) hlo
    exact ⟨ht, hr, h4, hlo, hhi, hbt, hbr, het, her, (Params.arenas_disjoint_iff ht.1 hr.1 hb).mp disjoint⟩

end Sys2Proof.Machine
end

section
/-!
SUPPORT. The runs of slots an owner has in a ring (R35, R36): which slots they are, and what they become where a slot is
taken at the end or given away at the front; and the two obligations of 10_state.md that say so.
-/

namespace Sys2Proof.Machine

/-! ### Slots counted round a ring -/

/-- Different offsets below the number of slots are different slots. -/
theorem slot_offset_inj {n first j k : Nat} (hj : j < n) (hk : k < n) (h : (first + j) % n = (first + k) % n) :
    j = k :=
  Nat.ModEq.eq_of_lt_of_lt (Nat.ModEq.add_left_cancel' first h) hj hk

/-- Every slot lies at some offset from any other. -/
theorem exists_slot_offset {n first i : Nat} (hf : first < n) (hi : i < n) : ∃ j < n, (first + j) % n = i := by
  refine ⟨(i + (n - first)) % n, Nat.mod_lt _ (by omega), ?_⟩
  rw [Nat.add_mod_mod, show first + (i + (n - first)) = i + n by omega, Nat.add_mod_right, Nat.mod_eq_of_lt hi]

/-- One step on from the first slot, then `j` more. -/
theorem slot_succ_offset (n first j : Nat) : ((first + 1) % n + j) % n = (first + (j + 1)) % n := by
  rw [Nat.mod_add_mod, Nat.add_assoc, Nat.add_comm 1 j]

/-! ### The run of an owner's slots -/

section Run

variable {l : List Desc} {o : Own} {n first last i : Nat} {d e : Desc}

/-- The owner's slots are the ones the run lists (R35, R36). -/
theorem OwnedRun.owned_iff (h : OwnedRun l o n first last) (hl : l.length = n) (hf : first < n) (hi : i < n) :
    l[i]?.map (fun d => d.own) = some o ↔ ∃ j < countOwn l o, i = (first + j) % n := by
  obtain ⟨hrun, -⟩ := h
  constructor
  · intro ho
    obtain ⟨j, hj, rfl⟩ := exists_slot_offset hf hi
    exact ⟨j, (hrun j hj).1 ho, rfl⟩
  · rintro ⟨j, hj, rfl⟩
    exact (hrun j (hj.trans_le (hl ▸ countOwn_le l o))).2 hj

/-- The first slot of the run is the owner's exactly where the owner has one at all. -/
theorem OwnedRun.first_owned_iff (h : OwnedRun l o n first last) (hf : first < n) :
    l[first]?.map (fun d => d.own) = some o ↔ 0 < countOwn l o := by
  simpa [Nat.mod_eq_of_lt hf] using h.1 0 (by omega)

/-- The slot after the run is the owner's exactly where the owner has all slots. -/
theorem OwnedRun.last_owned_iff (h : OwnedRun l o n first last) (hl : l.length = n) (hf : first < n) :
    l[last]?.map (fun d => d.own) = some o ↔ countOwn l o = n := by
  obtain ⟨hrun, rfl⟩ := h
  have hle : countOwn l o ≤ n := hl ▸ countOwn_le l o
  rcases hle.eq_or_lt with hfull | hlt
  · have := hrun 0 (by omega)
    simp only [hfull, Nat.add_mod_right, Nat.add_zero] at this ⊢
    simp only [this, iff_true]
    omega
  · simp only [hrun _ hlt, lt_irrefl, false_iff]
    exact hlt.ne

/-- A slot taken at the end of the run makes it one slot longer. -/
theorem OwnedRun.take_last (h : OwnedRun l o n first last) (hl : l.length = n) (hd : l[last]? = some d)
    (hdo : d.own ≠ o) (heo : e.own = o) : OwnedRun (l.set last e) o n first ((last + 1) % n) := by
  have hcount : countOwn (l.set last e) o = countOwn l o + 1 := countOwn_set_taken hd hdo heo
  have hlt : countOwn l o < n := by
    have := countOwn_le (l.set last e) o
    rw [List.length_set] at this
    omega
  have hlast : last < l.length := (List.getElem?_eq_some_iff.1 hd).1
  obtain ⟨hrun, hend⟩ := h
  refine ⟨fun j hj => ?_, by rw [hcount, hend, Nat.mod_add_mod, Nat.add_assoc]⟩
  by_cases hjk : j = countOwn l o
  · rw [hjk, ← hend, List.getElem?_set_self hlast, hcount]
    simp [heo]
  · have hne : last ≠ (first + j) % n := fun heq => hjk (slot_offset_inj hj hlt (heq.symm.trans hend))
    rw [List.getElem?_set_ne hne, hrun j hj, hcount]
    omega

/-- The first slot given away makes the run one slot shorter. -/
theorem OwnedRun.give_first (h : OwnedRun l o n first last) (hl : l.length = n) (hd : l[first]? = some d)
    (hdo : d.own = o) (heo : e.own ≠ o) : OwnedRun (l.set first e) o n ((first + 1) % n) last := by
  have hcount : countOwn (l.set first e) o + 1 = countOwn l o := countOwn_set_away hd hdo heo
  have hle : countOwn l o ≤ n := hl ▸ countOwn_le l o
  have hfirst : first < l.length := (List.getElem?_eq_some_iff.1 hd).1
  obtain ⟨hrun, hend⟩ := h
  refine ⟨fun j hj => ?_, by rw [hend, slot_succ_offset, hcount]⟩
  rw [slot_succ_offset]
  rcases (show j + 1 ≤ n from hj).eq_or_lt with hjn | hjn
  · rw [hjn, Nat.add_mod_right, Nat.mod_eq_of_lt (hl ▸ hfirst), List.getElem?_set_self hfirst]
    simp only [Option.map_some, Option.some.injEq, heo, false_iff]
    omega
  · have hne : first ≠ (first + (j + 1)) % n := fun heq => by
      have : 0 = j + 1 := slot_offset_inj (first := first) (by omega) hjn
        (by rw [Nat.add_zero, Nat.mod_eq_of_lt (hl ▸ hfirst)]; exact heq)
      omega
    rw [List.getElem?_set_ne hne, hrun (j + 1) hjn]
    omega

end Run

/-- An owner has all slots exactly where every slot is its own. -/
theorem countOwn_eq_length_iff (l : List Desc) (o : Own) : countOwn l o = l.length ↔ ∀ d ∈ l, d.own = o := by
  simp [countOwn, List.countP_eq_length]

/-- A slot is the host's exactly where it is not the controller's. -/
theorem slot_hostOwned_iff {l : List Desc} {i : Nat} (hi : i < l.length) :
    l[i]?.map (fun d => d.own) = some .hostOwned ↔ ¬l[i]?.map (fun d => d.own) = some .controllerOwned := by
  rw [List.getElem?_eq_getElem hi]
  cases h : l[i].own <;> simp [h]

/-- Settles O52: the run of the invariant, read slot by slot, and at the slot after it. -/
theorem txRingIsOneRun : Obligations.TxRingIsOneRun := by
  rintro s ⟨-, -, -, -, -, -, rings⟩ hp
  obtain ⟨⟨hlen, hcur, hccur, -⟩, -, hrun, -, -⟩ := rings hp
  have hend : s.cur.tx = (s.ccur.tx + countOwn s.descs.tx .controllerOwned) % s.cfg.nTx := hrun.2
  refine ⟨fun i hi => hrun.owned_iff hlen hccur hi, hend, ?_, ?_⟩
  · rw [slot_hostOwned_iff (hlen ▸ hcur), hrun.last_owned_iff hlen hccur]
    have := countOwn_le s.descs.tx .controllerOwned
    simp only [PerRing.get_tx, Params.card] at hlen
    omega
  · rw [hrun.last_owned_iff hlen hccur, ← countOwn_eq_length_iff]
    exact hlen ▸ Iff.rfl

/-- Settles O53: the run of the invariant, read slot by slot. -/
theorem rxRingIsOneRun : Obligations.RxRingIsOneRun := by
  rintro s ⟨-, -, -, -, -, -, rings⟩ hp
  obtain ⟨-, ⟨hlen, hcur, -, -⟩, -, hrun, -⟩ := rings hp
  have hend : s.ccur.rx = (s.cur.rx + countOwn s.descs.rx .hostOwned) % s.cfg.nRx := hrun.2
  exact ⟨fun i hi => hrun.owned_iff hlen hcur hi, hend⟩

end Sys2Proof.Machine
end

section
/-!
SUPPORT. The laws of the rings under each operation on them: what a slot of a ring is, that its buffer can be read and
written, and that each of TRANSMIT, TX_DONE, RX_FRAME and RECEIVE keeps the laws of both rings.
-/

namespace Sys2Proof

/-! ### The parameters and the frame buffers -/

theorem Params.Ok.bufCap_pos {p : Params} (hp : p.Ok) : 0 < p.bufCap := by
  obtain ⟨-, -, -, hlo, -⟩ := hp
  exact lt_of_lt_of_le (by decide) hlo

theorem Params.Ok.card_pos {p : Params} (hp : p.Ok) (r : Ring) : 0 < p.card r := by
  obtain ⟨⟨htx, -⟩, ⟨hrx, -⟩, -⟩ := hp
  cases r with
  | tx => exact htx
  | rx => exact hrx

theorem Params.Ok.arenaEnd_le {p : Params} (hp : p.Ok) (r : Ring) : p.arenaEnd r ≤ 2 ^ 32 := by
  obtain ⟨-, -, -, -, -, -, -, htx, hrx, -⟩ := hp
  cases r with
  | tx => exact htx
  | rx => exact hrx

namespace Machine

/-- A slot's buffer lies in the arena of its ring (R51). -/
theorem bufAddr_add_bufCap_le {p : Params} {r : Ring} {i : Nat} (hi : i < p.card r) :
    bufAddr p r i + p.bufCap ≤ p.arenaEnd r := by
  have : (i + 1) * p.bufCap ≤ p.card r * p.bufCap := Nat.mul_le_mul_right _ hi
  rw [Nat.succ_mul] at this
  simp only [bufAddr, Params.arenaEnd]
  omega

/-- A descriptor's address holds the slot's whole address (R51, R5). -/
theorem toNat_bufAddr {p : Params} (hp : p.Ok) {r : Ring} {i : Nat} (hi : i < p.card r) :
    (BitVec.ofNat 32 (bufAddr p r i)).toNat = bufAddr p r i := by
  have := hp.arenaEnd_le r
  have := hp.bufCap_pos
  have := bufAddr_add_bufCap_le hi
  rw [BitVec.toNat_ofNat, Nat.mod_eq_of_lt (by omega)]

/-- An address of a ring's arena decodes in that ring: the arenas share none (R52, R5). -/
theorem decodeAddr_of_arena {p : Params} (hp : p.Ok) {r : Ring} {a : Nat} (hlo : p.base r ≤ a)
    (hhi : a < p.arenaEnd r) : decodeAddr p a = arenaTarget p r a := by
  obtain ⟨-, -, -, -, -, -, -, -, -, apart⟩ := hp
  cases r with
  | tx => rw [decodeAddr, if_pos ⟨hlo, hhi⟩]
  | rx =>
    have hne : ¬(p.base .tx ≤ a ∧ a < p.arenaEnd .tx) := by
      simp only [Params.base] at hlo ⊢
      omega
    rw [decodeAddr, if_neg hne, if_pos ⟨hlo, hhi⟩]

/-- Every byte of a slot's buffer decodes to that slot (R52, R53). -/
theorem inSlot_bufAddr {p : Params} (hp : p.Ok) {r : Ring} {i k : Nat} (hi : i < p.card r) (hk : k < p.bufCap) :
    inSlot p r i (bufAddr p r i + k) = true := by
  have hend := bufAddr_add_bufCap_le hi
  have hbase : bufAddr p r i + k - p.base r = k + p.bufCap * i := by
    rw [bufAddr, Nat.mul_comm]
    omega
  have hlo : p.base r ≤ bufAddr p r i + k := Nat.le_add_right_of_le (Nat.le_add_right _ _)
  rw [inSlot, decodeAddr_of_arena hp hlo (by omega), arenaTarget, hbase, Nat.add_mul_div_left _ _ hp.bufCap_pos,
    Nat.div_eq_of_lt hk]
  simp

/-! ### A slot of a ring -/

theorem RingLaw.length_eq {s : State} {r : Ring} (h : RingLaw s r) : (s.descs.get r).length = s.cfg.card r := by
  obtain ⟨hlen, -⟩ := h
  exact hlen

/-- A slot below the ring's size has been written (R41). -/
theorem RingLaw.readDesc_ok {s : State} {r : Ring} {i : Nat} (h : RingLaw s r) (hi : i < s.cfg.card r) :
    ∃ d, readDesc s r i = .ok d :=
  ⟨_, readDesc_eq_ok.2 (List.getElem?_eq_getElem (h.length_eq ▸ hi))⟩

theorem RingLaw.readDesc_cur {s : State} {r : Ring} (h : RingLaw s r) : ∃ d, readDesc s r (s.cur.get r) = .ok d := by
  have ⟨_, hcur, _⟩ := h
  exact h.readDesc_ok hcur

theorem RingLaw.readDesc_ccur {s : State} {r : Ring} (h : RingLaw s r) :
    ∃ d, readDesc s r (s.ccur.get r) = .ok d := by
  have ⟨_, _, hccur, _⟩ := h
  exact h.readDesc_ok hccur

theorem RingLaw.lt_card {s : State} {r : Ring} {i : Nat} {d : Desc} (h : RingLaw s r)
    (hd : readDesc s r i = .ok d) : i < s.cfg.card r :=
  h.length_eq ▸ readDesc_lt hd

theorem RingLaw.card_pos {s : State} {r : Ring} (h : RingLaw s r) : 0 < s.cfg.card r := by
  obtain ⟨-, hcur, -⟩ := h
  exact Nat.zero_lt_of_lt hcur

/-- A descriptor of the ring is lawful, and the frame it holds is written. -/
theorem RingLaw.of_readDesc {s : State} {r : Ring} {i : Nat} {d : Desc} (h : RingLaw s r)
    (hd : readDesc s r i = .ok d) : DescLaw s.cfg r i d ∧ (d.own = holder r → FrameWritten s d) := by
  have hi := h.lt_card hd
  obtain ⟨-, -, -, hslots⟩ := h
  exact hslots i hi d (readDesc_eq_ok.1 hd)

/-- The frame a slot holds can be read (R26, R53). -/
theorem RingLaw.memRead_ok {s : State} {r : Ring} {i : Nat} {d : Desc} (hp : s.cfg.Ok) (h : RingLaw s r)
    (hd : readDesc s r i = .ok d) (ho : d.own = holder r) :
    ∃ frame, memRead s.cfg r i s.mem d.addr.toNat d.len.toNat = .ok frame := by
  obtain ⟨⟨haddr, -, hlen, -⟩, hframe⟩ := h.of_readDesc hd
  have slot : ∀ j < d.len.toNat, inSlot s.cfg r i (d.addr.toNat + j) = true := fun j hj =>
    haddr ▸ inSlot_bufAddr hp (h.lt_card hd) (by omega)
  exact Machine.memRead_ok slot (hframe ho)

/-- Bytes that fit a slot's buffer can be written to it (R53). -/
theorem RingLaw.memWrite_ok {s : State} {r : Ring} {i : Nat} {d : Desc} {bytes : List Byte} (hp : s.cfg.Ok)
    (h : RingLaw s r) (hd : readDesc s r i = .ok d) (hb : bytes.length ≤ s.cfg.bufCap) :
    ∃ m, memWrite s.cfg r i s.mem d.addr.toNat bytes = .ok m := by
  obtain ⟨⟨haddr, -⟩, -⟩ := h.of_readDesc hd
  have slot : ∀ j < bytes.length, inSlot s.cfg r i (d.addr.toNat + j) = true := fun j hj =>
    haddr ▸ inSlot_bufAddr hp (h.lt_card hd) (by omega)
  obtain ⟨m, hm, -⟩ := Machine.memWrite_ok (m := s.mem) bytes slot
  exact ⟨m, hm⟩

/-- A slot write leaves written all the bytes of a descriptor at its address with its length (R26). -/
theorem frameWritten_of_memWrite {p : Params} {r : Ring} {i : Nat} {bytes : List Byte} {s : State} {m : List Host.Cell}
    {d : Desc} (hm : memWrite p r i m d.addr.toNat bytes = .ok s.mem) (hlen : d.len.toNat = bytes.length) :
    FrameWritten s d := by
  obtain ⟨hread, -⟩ := memWrite_spec hm
  intro k hk
  rw [hread k (by omega)]
  rfl

/-! ### The law of a ring under one update -/

theorem RingLaw.withCur {s : State} {q : Ring} (h : RingLaw s q) (r : Ring) {c : Nat} (hc : c < s.cfg.card r) :
    RingLaw { s with cur := s.cur.set r c } q := by
  obtain ⟨hlen, hcur, hccur, hslots⟩ := h
  refine ⟨hlen, ?_, hccur, hslots⟩
  by_cases hq : q = r
  · subst hq
    simpa using hc
  · simpa [PerRing.get_set_ne _ _ hq] using hcur

theorem RingLaw.withCcur {s : State} {q : Ring} (h : RingLaw s q) (r : Ring) {c : Nat} (hc : c < s.cfg.card r) :
    RingLaw { s with ccur := s.ccur.set r c } q := by
  obtain ⟨hlen, hcur, hccur, hslots⟩ := h
  refine ⟨hlen, hcur, ?_, hslots⟩
  by_cases hq : q = r
  · subst hq
    simpa using hc
  · simpa [PerRing.get_set_ne _ _ hq] using hccur

/-- A slot write keeps the frames of all slots written: it only adds written bytes. -/
theorem RingLaw.withMem {s : State} {q : Ring} (h : RingLaw s q) {p : Params} {r : Ring} {i a : Nat}
    {bytes : List Byte} {m : List Host.Cell} (hm : memWrite p r i s.mem a bytes = .ok m) :
    RingLaw { s with mem := m } q := by
  obtain ⟨hlen, hcur, hccur, hslots⟩ := h
  refine ⟨hlen, hcur, hccur, fun j hj d hd => ?_⟩
  obtain ⟨hdesc, hframe⟩ := hslots j hj d hd
  exact ⟨hdesc, fun ho k hk => memWrite_isSome hm (hframe ho k hk)⟩

/-- A lawful descriptor may be written where the frame it holds is written. -/
theorem RingLaw.after_writeDesc {s : State} {q : Ring} (h : RingLaw s q) {r : Ring} {i : Nat} {e : Desc}
    (he : DescLaw s.cfg r i e) (hf : e.own = holder r → FrameWritten s e) : RingLaw (writeDesc s r i e) q := by
  obtain ⟨hlen, hcur, hccur, hslots⟩ := h
  refine ⟨(writeDesc_length s r q i e).trans hlen, hcur, hccur, fun j hj d hd => ?_⟩
  by_cases hq : q = r
  · subst hq
    rw [writeDesc_getElem?] at hd
    split at hd
    · rename_i hij
      obtain ⟨rfl, -⟩ := hij
      obtain rfl : e = d := by simpa using hd
      exact ⟨he, hf⟩
    · exact hslots j hj d hd
  · rw [writeDesc_get_ne s i e hq] at hd
    exact hslots j hj d hd

/-- The receive path's recycling keeps the law of each ring: the slot it gives back holds no frame (R130). -/
theorem RingLaw.after_recycle {s : State} {q : Ring} {i : Nat} {d : Desc} (h : RingLaw s q) (hrx : RingLaw s .rx)
    (hd : readDesc s .rx i = .ok d) : RingLaw (recycle s i d) q :=
  (h.after_writeDesc (e := { d with own := .controllerOwned }) (hrx.of_readDesc hd).1 (by simp [holder])).withCur .rx
    (advance_lt i hrx.card_pos)

/-- A draw touches no ring. -/
theorem RingLaw.after_drawAlloc {s : State} {q : Ring} (h : RingLaw s q) : RingLaw (drawAlloc s).2 q := by
  unfold drawAlloc
  split <;> exact h

/-- TX_DONE's give-back keeps the law of each ring: the slot it gives back holds no frame (R170). -/
theorem RingLaw.after_txGiveBack {s : State} {q : Ring} {i : Nat} {d : Desc} (h : RingLaw s q) (htx : RingLaw s .tx)
    (hd : readDesc s .tx i = .ok d) : RingLaw (txGiveBack s i d) q := by
  obtain ⟨⟨haddr, hnext, hlen, -⟩, -⟩ := htx.of_readDesc hd
  have hdesc : DescLaw s.cfg .tx i { d with st := Status.txDone, own := .hostOwned } :=
    ⟨haddr, hnext, hlen, by simp [Status.txDone]⟩
  exact (h.after_writeDesc hdesc (by simp [holder])).withCcur .tx (advance_lt i htx.card_pos)

theorem RingsLaw.ring {s : State} (h : RingsLaw s) (r : Ring) : RingLaw s r := by
  obtain ⟨htx, hrx, -⟩ := h
  cases r with
  | tx => exact htx
  | rx => exact hrx

/-! ### The laws of both rings under each operation of the block -/

/-- The doorbell is true exactly where the slot at the controller cursor is ControllerOwned (R35, R170). -/
theorem kickLaw_iff {s : State} (h : RingLaw s .tx) (hrun : TxRun s) {e : Desc}
    (he : readDesc s .tx s.ccur.tx = .ok e) : KickLaw s ↔ (s.kick = true ↔ e.own = .controllerOwned) := by
  have hown : s.descs.tx[s.ccur.tx]?.map (fun d => d.own) = some e.own := by
    rw [← PerRing.get_tx s.descs, readDesc_eq_ok.1 he]
    rfl
  rw [KickLaw, ← hrun.first_owned_iff (h.lt_card he), hown, Option.some.injEq]

/-- TRANSMIT's hand-off keeps the laws of the rings (R120). -/
theorem ringsLaw_handOff {s : State} {d : Desc} {m : List Host.Cell} {len : Half} {frame : List Byte}
    (h : RingsLaw s) (hd : readDesc s .tx s.cur.tx = .ok d) (ho : d.own = .hostOwned)
    (hm : memWrite s.cfg .tx s.cur.tx s.mem d.addr.toNat frame = .ok m) (hframe : frame.length = len.toNat)
    (hlen : len.toNat ≤ s.cfg.bufCap) : RingsLaw (handOff s s.cur.tx d m len) := by
  obtain ⟨htx, hrx, htxRun, hrxRun, -⟩ := h
  obtain ⟨⟨haddr, hnext, -, hgood⟩, -⟩ := htx.of_readDesc hd
  have ring {q : Ring} (hq : RingLaw s q) : RingLaw (handOff s s.cur.tx d m len) q :=
    ((hq.withMem hm).after_writeDesc (r := .tx) (i := s.cur.tx) (e := { d with len := len, own := .controllerOwned })
      ⟨haddr, hnext, hlen, hgood⟩ (fun _ => frameWritten_of_memWrite hm hframe.symm)).withCur .tx
      (advance_lt _ htx.card_pos)
  have hdo : d.own ≠ .controllerOwned := by simp [ho]
  refine ⟨ring htx, ring hrx, htxRun.take_last htx.length_eq (readDesc_eq_ok.1 hd) hdo rfl, hrxRun, ?_⟩
  have hcount := countOwn_set_taken (e := { d with len := len, own := .controllerOwned }) (readDesc_eq_ok.1 hd) hdo rfl
  simp only [KickLaw, handOff_kick, true_iff, handOff_descs]
  exact hcount ▸ Nat.succ_pos _

/-- TX_DONE's give-back keeps the laws of the rings, its doorbell being that of the next slot (R170). -/
theorem ringsLaw_txGiveBack {s : State} {d e : Desc} (h : RingsLaw s) (hd : readDesc s .tx s.ccur.tx = .ok d)
    (ho : d.own = .controllerOwned)
    (he : readDesc (txGiveBack s s.ccur.tx d) .tx (advance s.cfg .tx s.ccur.tx) = .ok e) :
    RingsLaw { txGiveBack s s.ccur.tx d with kick := e.own != .hostOwned } := by
  obtain ⟨htx, hrx, htxRun, hrxRun, -⟩ := h
  have ring {q : Ring} (hq : RingLaw s q) : RingLaw { txGiveBack s s.ccur.tx d with kick := e.own != .hostOwned } q :=
    hq.after_txGiveBack htx hd
  have run : TxRun { txGiveBack s s.ccur.tx d with kick := e.own != .hostOwned } :=
    htxRun.give_first htx.length_eq (readDesc_eq_ok.1 hd) ho (by simp)
  refine ⟨ring htx, ring hrx, run, hrxRun, (kickLaw_iff (ring htx) run he).2 ?_⟩
  cases e.own <;> simp

/-- RX_FRAME's store keeps the laws of the rings: the slot gets a lawful HostOwned descriptor, at its old address and as
long as the bytes that are stored (R171). -/
theorem ringsLaw_rxStore {s : State} {d e : Desc} {m : List Host.Cell} {bytes : List Byte} (h : RingsLaw s)
    (hd : readDesc s .rx s.ccur.rx = .ok d) (ho : d.own = .controllerOwned)
    (hm : memWrite s.cfg .rx s.ccur.rx s.mem d.addr.toNat bytes = .ok m)
    (haddr : e.addr = d.addr) (he : DescLaw s.cfg .rx s.ccur.rx e) (heo : e.own = .hostOwned)
    (hlen : e.len.toNat = bytes.length) :
    RingsLaw { writeDesc s .rx s.ccur.rx e with
      mem := m
      ccur := s.ccur.set .rx (advance s.cfg .rx s.ccur.rx) } := by
  obtain ⟨htx, hrx, htxRun, hrxRun, hkick⟩ := h
  have ring {q : Ring} (hq : RingLaw s q) : RingLaw { writeDesc s .rx s.ccur.rx e with
      mem := m
      ccur := s.ccur.set .rx (advance s.cfg .rx s.ccur.rx) } q :=
    ((hq.withMem hm).after_writeDesc (r := .rx) (i := s.ccur.rx) he
      (fun _ => frameWritten_of_memWrite (haddr ▸ hm) hlen)).withCcur .rx (advance_lt _ hrx.card_pos)
  exact ⟨ring htx, ring hrx, htxRun, hrxRun.take_last hrx.length_eq (readDesc_eq_ok.1 hd) (by simp [ho]) heo, hkick⟩

/-- RECEIVE's recycling keeps the laws of the rings (R130). -/
theorem ringsLaw_recycle {s : State} {d : Desc} (h : RingsLaw s) (hd : readDesc s .rx s.cur.rx = .ok d)
    (ho : d.own = .hostOwned) : RingsLaw (recycle s s.cur.rx d) := by
  obtain ⟨htx, hrx, htxRun, hrxRun, hkick⟩ := h
  exact ⟨htx.after_recycle hrx hd, hrx.after_recycle hrx hd, htxRun,
    hrxRun.give_first hrx.length_eq (readDesc_eq_ok.1 hd) ho (by simp), hkick⟩

/-! ### INIT -/

theorem length_initRing (p : Params) (r : Ring) : (initRing p r).length = p.card r := by simp [initRing]

theorem initRing_getElem? (p : Params) (r : Ring) (i : Nat) :
    (initRing p r)[i]? = if i < p.card r then some (initDesc p r i) else none := by
  by_cases h : i < p.card r <;> simp [initRing, h]

/-- INIT leaves no frame in a ring (R104). -/
theorem countOwn_initRing (p : Params) (r : Ring) : countOwn (initRing p r) (holder r) = 0 := by
  rw [countOwn, List.countP_eq_zero]
  intro d hd
  obtain ⟨i, -, rfl⟩ := List.mem_map.1 hd
  cases r <;> simp [initDesc, initOwner, holder]

theorem descLaw_initDesc {p : Params} (hp : p.Ok) {r : Ring} {i : Nat} (hi : i < p.card r) :
    DescLaw p r i (initDesc p r i) :=
  ⟨toNat_bufAddr hp hi, rfl, Nat.zero_le _, by simp [initDesc, Status.clear]⟩

/-- INIT establishes the law of each ring (R100). -/
theorem ringLaw_initState {s : State} (hp : s.cfg.Ok) (r : Ring) : RingLaw (initState s) r := by
  have hdescs : (initState s).descs.get r = initRing s.cfg r := by cases r <;> rfl
  have hcur : (initState s).cur.get r = 0 := by cases r <;> rfl
  have hccur : (initState s).ccur.get r = 0 := by cases r <;> rfl
  have hpos : 0 < (initState s).cfg.card r := hp.card_pos r
  refine ⟨hdescs ▸ length_initRing s.cfg r, hcur ▸ hpos, hccur ▸ hpos, fun i hi d hd => ?_⟩
  rw [initState_cfg] at hi
  rw [hdescs, initRing_getElem?, if_pos hi, Option.mem_some_iff] at hd
  subst hd
  exact ⟨descLaw_initDesc hp hi, fun _ k hk => absurd hk (Nat.not_lt_zero k)⟩

/-- After INIT a ring's run is empty, whatever its size (R104). -/
theorem ownedRun_initRing {p : Params} (hp : p.Ok) (r : Ring) : OwnedRun (initRing p r) (holder r) (p.card r) 0 0 := by
  refine ⟨fun j hj => ?_, by rw [countOwn_initRing, Nat.zero_mod]⟩
  rw [countOwn_initRing, initRing_getElem?, if_pos (Nat.mod_lt _ (hp.card_pos r))]
  cases r <;> simp [initDesc, initOwner, holder]

/-- INIT establishes the laws of the rings (R100, R104). -/
theorem ringsLaw_initState {s : State} (hp : s.cfg.Ok) : RingsLaw (initState s) :=
  ⟨ringLaw_initState hp .tx, ringLaw_initState hp .rx, ownedRun_initRing hp .tx, ownedRun_initRing hp .rx, by
    have : countOwn (initRing s.cfg .tx) .controllerOwned = 0 := countOwn_initRing s.cfg .tx
    simp [KickLaw, this]⟩

end Machine

end Sys2Proof
end

section
/-!
SUPPORT. The invariant of the block (10_state.md): power-on reset meets it, every instruction and every step keeps it,
and no step faults where it holds.
-/

namespace Sys2Proof.Machine

/-! ### What the invariant says of a phase -/

theorem State.Invariant.rings {s : State} (h : s.Invariant) (hp : s.phase ≠ .uninit) : RingsLaw s := by
  obtain ⟨-, -, -, -, -, -, rings⟩ := h
  exact rings hp

/-- Outside UNINIT a state meets the invariant where its rings do and the rest of it is lawful. -/
theorem State.Invariant.of_rings {s : State} (hp : s.phase ≠ .uninit) (hok : s.cfg.Ok) (hmem : Memory.wf s.mem)
    (hmtu : mtuOk s.cfg s.mtu = true) (hctx : CtxLaw s) (hen : EnableLaw s) (rings : RingsLaw s) : s.Invariant :=
  ⟨hok, hmem, hmtu, hctx, hen, fun hu => absurd hu hp, fun _ => rings⟩

/-- A source with a request pending is one of a block that INIT has set up (R37). -/
theorem State.Invariant.phase_ne_of_pend {s : State} (h : s.Invariant) {src : Source} (hs : s.pend.get src = true) :
    s.phase ≠ .uninit := by
  obtain ⟨-, -, -, -, -, uninit, -⟩ := h
  intro hu
  obtain ⟨-, -, -, -, -, hpend, -⟩ := uninit hu
  rw [hpend] at hs
  cases src <;> cases hs

/-- A source in service is one of a block that INIT has set up (R37). -/
theorem State.Invariant.phase_ne_of_act {s : State} (h : s.Invariant) {src : Source} (hs : s.act.get src = true) :
    s.phase ≠ .uninit := by
  obtain ⟨-, -, -, -, -, uninit, -⟩ := h
  intro hu
  obtain ⟨-, -, -, -, -, -, hact, -⟩ := uninit hu
  rw [hact] at hs
  cases src <;> cases hs

/-- A context with a DRAIN in progress is one of a block that INIT has set up (R37). -/
theorem State.Invariant.phase_ne_of_drain {s : State} (h : s.Invariant) {c : Ctx} (hd : s.drain.get c ≠ .idle) :
    s.phase ≠ .uninit := by
  obtain ⟨-, -, -, -, -, uninit, -⟩ := h
  intro hu
  obtain ⟨-, -, -, -, -, -, -, hdrain⟩ := uninit hu
  rw [hdrain] at hd
  cases c <;> exact hd rfl

/-! ### The invariant under the operations that write no ring

An update of a field the invariant does not speak of keeps it by definition. -/

section Updates

variable {s : State}

theorem State.Invariant.after_advancePc (h : s.Invariant) (c : Ctx) : (advancePc s c).Invariant := by
  cases c <;> exact h

theorem State.Invariant.after_finish (h : s.Invariant) (w : Word) (code : ResultCode) (v : Word) (p : List Byte) :
    (finish s w code v p).Invariant :=
  State.Invariant.after_advancePc (s := { s with results := s.results ++ [⟨running s, w, ⟨code, v, p⟩⟩] }) h _

theorem State.Invariant.after_raise (h : s.Invariant) (w : Word) (code : ResultCode) : (raise s w code).Invariant :=
  h.after_finish w code 0#32 []

theorem State.Invariant.after_drawAlloc (h : s.Invariant) : (drawAlloc s).2.Invariant := by
  unfold drawAlloc
  split <;> exact h

theorem State.Invariant.after_drawDeliver (h : s.Invariant) : (drawDeliver s).2.Invariant := by
  unfold drawDeliver
  split <;> exact h

theorem State.Invariant.after_pickAgent (h : s.Invariant) : (pickAgent s).2.Invariant := by
  unfold pickAgent
  split <;> exact h

/-- Clearing a pending bit is safe in every phase. -/
theorem State.Invariant.after_clearPend (h : s.Invariant) (src : Source) :
    { s with pend := s.pend.set src false }.Invariant := by
  obtain ⟨hok, hmem, hmtu, hctx, hen, uninit, rings⟩ := h
  refine ⟨hok, hmem, hmtu, hctx, hen, fun hu => ?_, rings⟩
  obtain ⟨hdescs, hcur, hccur, hkick, hifcfg, hpend, hact, hdrain⟩ := uninit hu
  exact ⟨hdescs, hcur, hccur, hkick, hifcfg, by rw [hpend]; cases src <;> rfl, hact, hdrain⟩

/-- Setting the DRAIN progress of the running context is safe outside UNINIT. -/
theorem State.Invariant.after_setDrain (h : s.Invariant) (hp : s.phase ≠ .uninit) (d : DrainState) :
    (setDrain s d).Invariant := by
  obtain ⟨hok, hmem, hmtu, hctx, hen, -, rings⟩ := h
  exact .of_rings hp hok hmem hmtu hctx hen (rings hp)

end Updates

/-! ### The context stack -/

section Contexts

variable {s : State} {src : Source}

/-- An entry that is enabled is for a source that is pending and not in service (R204). -/
theorem pend_and_not_act_of_canEnter (h : canEnter s src = true) : s.pend.get src = true ∧ s.act.get src = false := by
  simp only [canEnter, req, Bool.and_eq_true, Bool.not_eq_true'] at h
  obtain ⟨⟨⟨⟨hpend, -⟩, hact⟩, -⟩, -⟩ := h
  exact ⟨hpend, hact⟩

/-- The handler of a source is on the stack exactly where the source is in service (R32). -/
theorem CtxLaw.handlerOf_mem_iff (h : CtxLaw s) : handlerOf src ∈ s.ctxStack ↔ s.act.get src = true := by
  obtain ⟨-, -, htx, hrx⟩ := h
  cases src with
  | txc => exact htx
  | rxr => exact hrx

/-- Entry for a source that is not in service keeps the law of the contexts (R206, R32). -/
theorem CtxLaw.after_enterIsr (h : CtxLaw s) (hact : s.act.get src = false) : CtxLaw (enterIsr s src) := by
  have hnew : handlerOf src ∉ s.ctxStack := by simp [h.handlerOf_mem_iff, hact]
  obtain ⟨hlast, hnodup, htx, hrx⟩ := h
  refine ⟨by simp [List.getLast?_cons, hlast], List.nodup_cons.2 ⟨hnew, hnodup⟩, ?_, ?_⟩
  · cases src <;> simp [handlerOf, htx]
  · cases src <;> simp [handlerOf, hrx]

/-- The return from the running handler keeps the law of the contexts (R208, R32). -/
theorem CtxLaw.after_returnIsr (h : CtxLaw s) (hrun : running s = handlerOf src) : CtxLaw (returnIsr s src) := by
  obtain ⟨hlast, hnodup, htx, hrx⟩ := h
  cases hstack : s.ctxStack with
  | nil => simp [hstack] at hlast
  | cons c rest =>
    obtain rfl : c = handlerOf src := by simpa [running, hstack] using hrun
    rw [hstack] at hlast hnodup htx hrx
    obtain ⟨hold, hnodup⟩ := List.nodup_cons.1 hnodup
    have hlast' : rest.getLast? = some .mainline := by
      cases rest with
      | nil => cases src <;> simp [handlerOf] at hlast
      | cons c' rest => simpa using hlast
    refine ⟨by simpa [hstack] using hlast', by simpa [hstack] using hnodup, ?_⟩
    cases src with
    | txc => exact ⟨by simpa [hstack, handlerOf] using hold, by simpa [hstack, handlerOf] using hrx⟩
    | rxr => exact ⟨by simpa [hstack, handlerOf] using htx, by simpa [hstack, handlerOf] using hold⟩

theorem State.Invariant.after_enterIsr (h : s.Invariant) (hc : canEnter s src = true) : (enterIsr s src).Invariant := by
  obtain ⟨hpend, hact⟩ := pend_and_not_act_of_canEnter hc
  have hp := h.phase_ne_of_pend hpend
  obtain ⟨hok, hmem, hmtu, hctx, hen, -, rings⟩ := h
  exact .of_rings hp hok hmem hmtu (hctx.after_enterIsr hact) hen (rings hp)

theorem State.Invariant.after_returnIsr (h : s.Invariant) (hact : s.act.get src = true)
    (hrun : running s = handlerOf src) : (returnIsr s src).Invariant := by
  have hp := h.phase_ne_of_act hact
  obtain ⟨hok, hmem, hmtu, hctx, hen, -, rings⟩ := h
  exact .of_rings hp hok hmem hmtu (hctx.after_returnIsr hrun) hen (rings hp)

end Contexts

/-! ### Power-on reset -/

/-- The invariant and the handler law hold after power-on reset with legal parameters (R37, R230). -/
theorem invariant_and_handlerLaw_resetWith {p : Params} (hp : p.Ok) :
    (State.resetWith p).Invariant ∧ HandlerLaw (State.resetWith p) := by
  have hmtu : mtuOk p Config.mtuDefault = true := by
    obtain ⟨-, -, -, hlo, -⟩ := hp
    simp only [mtuOk, decide_eq_true_eq]
    exact ⟨by decide, Nat.le_sub_of_add_le (Nat.add_comm _ _ ▸ hlo)⟩
  have hctx : CtxLaw (State.resetWith p) := by simp [CtxLaw, State.resetWith]
  exact ⟨⟨hp, .nil, hmtu, hctx, ⟨rfl, rfl⟩, fun _ => ⟨rfl, rfl, rfl, rfl, rfl, rfl, rfl, rfl⟩, fun h => absurd rfl h⟩,
    by simp [HandlerLaw, State.resetWith]⟩

/-- Settles O56: the reset state of any legal parameters, the default ones among them. -/
theorem invariantHoldsAtReset : Obligations.InvariantHoldsAtReset :=
  ⟨invariant_and_handlerLaw_resetWith (by decide), fun _ hp => invariant_and_handlerLaw_resetWith hp⟩

/-! ### The instructions that write a ring keep the invariant -/

section Rings

variable {s t : State}

/-- A pass of the receive loop that takes a slot keeps the invariant (R130). -/
theorem State.Invariant.after_recycle (h : s.Invariant) (hp : s.phase ≠ .uninit) {d : Desc}
    (hd : readDesc s .rx s.cur.rx = .ok d) (ho : d.own = .hostOwned) : (recycle s s.cur.rx d).Invariant := by
  obtain ⟨hok, hmem, hmtu, hctx, hen, -, rings⟩ := h
  exact .of_rings hp hok hmem hmtu hctx hen (ringsLaw_recycle (rings hp) hd ho)

theorem State.Invariant.after_discardErr (h : s.Invariant) (hp : s.phase ≠ .uninit) {d : Desc}
    (hd : readDesc s .rx s.cur.rx = .ok d) (ho : d.own = .hostOwned) : (discardErr s s.cur.rx d).Invariant :=
  State.Invariant.after_recycle (s := { s with cntErr := inc32 s.cntErr }) h hp hd ho

theorem State.Invariant.after_discardNobuf (h : s.Invariant) (hp : s.phase ≠ .uninit) {d : Desc}
    (hd : readDesc s .rx s.cur.rx = .ok d) (ho : d.own = .hostOwned) : (discardNobuf s s.cur.rx d).Invariant :=
  State.Invariant.after_recycle (s := { s with cntNobuf := inc32 s.cntNobuf }) h hp hd ho

/-- RECEIVE's loop keeps the invariant (R130). -/
theorem receiveLoop_invariant {n : Nat} {o : Option (Word × List Byte)} (h : s.Invariant) (hp : s.phase ≠ .uninit)
    (hloop : receiveLoop n s = .ok (o, t)) : t.Invariant := by
  induction n generalizing s with
  | zero => simp [receiveLoop] at hloop
  | succ n ih =>
    obtain ⟨d, hd, hcases⟩ := receiveLoop_succ_cases hloop
    have hdrawn : (drawAlloc s).2.phase ≠ .uninit := by simpa using hp
    have hd' : readDesc (drawAlloc s).2 .rx (drawAlloc s).2.cur.rx = .ok d := by simpa [readDesc] using hd
    obtain ⟨-, -, rfl⟩ | ⟨ho, -, hloop⟩ | ⟨ho, -, -, hloop⟩ | ⟨ho, -, -, -, -, -, rfl⟩ := hcases
    · exact h
    · exact ih (h.after_discardErr hp hd ho) hp hloop
    · rw [← drawAlloc_cur s] at hloop
      exact ih (h.after_drawAlloc.after_discardNobuf hdrawn hd' ho) hdrawn hloop
    · rw [← drawAlloc_cur s]
      exact h.after_drawAlloc.after_recycle hdrawn hd' ho

theorem receiveFrom_phase {o : Option (Word × List Byte)} (h : receiveFrom s = .ok (o, t)) : t.phase = s.phase := by
  rw [(receiveFrom_frameLaw h).eq]

theorem execReceive_invariant (h : s.Invariant) (he : execReceive s = .next t) : t.Invariant := by
  obtain ⟨code, -, rfl⟩ | ⟨u, hp, hu, rfl⟩ | ⟨v, frame, u, hp, hu, rfl⟩ := execReceive_cases he
  · exact h.after_raise _ code
  · exact (receiveLoop_invariant h (by simp [hp]) hu).after_finish _ _ _ _
  · exact (receiveLoop_invariant h (by simp [hp]) hu).after_finish _ _ _ _

/-- A length TRANSMIT accepts fits the buffer (R102). -/
theorem txLenOk_le_bufCap {p : Params} {mtu len : Half} (h : txLenOk p mtu len = true) : len.toNat ≤ p.bufCap := by
  obtain ⟨-, hle⟩ : 1 ≤ len.toNat ∧ len.toNat ≤ txMax p mtu := by simpa [txLenOk] using h
  exact hle.trans (min_le_left _ _)

theorem execTransmit_invariant {len : Half} {frame : List Byte} (h : s.Invariant)
    (he : execTransmit len frame s = .next t) : t.Invariant := by
  obtain ⟨code, rfl⟩ | ⟨d, m, hp, hframe, hlen, hd, ho, hm, rfl⟩ := execTransmit_cases he
  · exact h.after_raise _ code
  · have hne : s.phase ≠ .uninit := by simp [hp]
    obtain ⟨hok, hmem, hmtu, hctx, hen, -, rings⟩ := h
    obtain ⟨-, -, hwf⟩ := memWrite_spec hm
    exact (State.Invariant.of_rings (s := handOff s s.cur.tx d m len) hne hok (hwf hmem) hmtu hctx hen
      (ringsLaw_handOff (rings hne) hd ho hm hframe (txLenOk_le_bufCap hlen))).after_finish _ _ _ _

theorem execTxDone_invariant (h : s.Invariant) (he : execTxDone s = .next t) : t.Invariant := by
  obtain rfl | ⟨d, frame, e, hp, -, -, hd, ho, -, hnext, rfl⟩ := execTxDone_cases he
  · exact h
  · have hne : s.phase ≠ .uninit := by simp [hp]
    obtain ⟨hok, hmem, hmtu, hctx, hen, -, rings⟩ := h
    exact .of_rings hne hok hmem hmtu hctx hen (ringsLaw_txGiveBack (rings hne) hd ho hnext)

/-- The bytes RX_FRAME stores are as many as its descriptor says (R171, R76). -/
theorem length_storedBytes {p : Params} {len : Half} {bytes : List Byte} (hb : bytes.length = len.toNat) :
    (storedBytes p len bytes).length = min len.toNat p.bufCap := by
  rw [storedBytes, List.length_take, hb]
  omega

/-- The descriptor RX_FRAME writes is lawful (R171, R103). -/
theorem descLaw_rxStore {p : Params} {i : Nat} {d : Desc} (h : DescLaw p .rx i d) (len : Half) (crcErr otherErr : Bool)
    (mtu : Half) :
    DescLaw p .rx i { d with
      len := BitVec.ofNat 16 (min len.toNat p.bufCap)
      st := classify p len crcErr otherErr mtu
      own := .hostOwned } := by
  obtain ⟨haddr, hnext, -, -⟩ := h
  refine ⟨haddr, hnext, ?_, fun hgood => ?_⟩
  · exact (BitVec.toNat_ofNat _ _ ▸ Nat.mod_le _ _).trans (min_le_right _ _)
  · simp only [classify, Bool.and_eq_true, Bool.not_eq_true', decide_eq_true_eq] at hgood
    obtain ⟨⟨⟨hcrc, -⟩, hrunt⟩, hover⟩ := hgood
    simp only [classify, decide_eq_false_iff_not]
    exact ⟨hcrc, Nat.not_lt_of_le hrunt, Nat.not_lt_of_le hover⟩

theorem execRxFrame_invariant {len : Half} {crcErr otherErr : Bool} {bytes : List Byte} (h : s.Invariant)
    (hb : bytes.length = len.toNat) (he : execRxFrame len crcErr otherErr bytes s = .next t) : t.Invariant := by
  obtain rfl | ⟨-, -, -, -, -, rfl⟩ | ⟨d, m, hp, -, hd, ho, hm, rfl⟩ := execRxFrame_cases he
  · exact h
  · exact h
  · have hne : s.phase ≠ .uninit := by simp [hp]
    obtain ⟨hok, hmem, hmtu, hctx, hen, -, rings⟩ := h
    obtain ⟨-, -, hwf⟩ := memWrite_spec hm
    obtain ⟨-, hrx, -⟩ := rings hne
    obtain ⟨hdesc, -⟩ := hrx.of_readDesc hd
    have hlen : (BitVec.ofNat 16 (min len.toNat s.cfg.bufCap)).toNat = (storedBytes s.cfg len bytes).length := by
      rw [length_storedBytes hb, BitVec.toNat_ofNat, Nat.mod_eq_of_lt (by omega)]
    exact .of_rings hne hok (hwf hmem) hmtu hctx hen
      (ringsLaw_rxStore (rings hne) hd ho hm rfl (descLaw_rxStore hdesc len crcErr otherErr s.mtu) rfl hlen)

/-- INIT keeps the invariant in every phase: it writes both rings whole (R100). -/
theorem execInit_invariant (h : s.Invariant) (he : execInit s = .next t) : t.Invariant := by
  obtain ⟨-, rfl⟩ | ⟨-, rfl⟩ := execInit_cases he
  · exact h.after_raise _ _
  · obtain ⟨hok, hmem, hmtu, hctx, -, -, -⟩ := h
    exact (State.Invariant.of_rings (s := initState s) nofun hok hmem hmtu hctx ⟨rfl, rfl⟩
      (ringsLaw_initState hok)).after_finish _ _ _ _

end Rings

/-! ### The other instructions keep the invariant -/

section Commands

variable {s t : State}

/-- IF_UP sets the three enables together and an MTU that its check accepts (R150). -/
theorem execIfUp_invariant {mtu : Half} {payload : List Byte} (h : s.Invariant)
    (he : execIfUp mtu payload s = .next t) : t.Invariant := by
  obtain ⟨code, rfl⟩ | ⟨a, hp, -, hm, -, rfl⟩ := execIfUp_cases he
  · exact h.after_raise _ code
  · have hne : s.phase ≠ .uninit := by simp [hp]
    obtain ⟨hok, hmem, -, hctx, -, -, rings⟩ := h
    exact (State.Invariant.of_rings (s := ifUpState s a (requestedMtu mtu)) hne hok hmem hm hctx ⟨rfl, rfl⟩
      (rings hne)).after_finish _ _ _ _

theorem execDrain_invariant (h : s.Invariant) (he : execDrain s = .next t) : t.Invariant := by
  obtain ⟨-, rfl⟩ | ⟨hp, rfl⟩ := execDrain_cases he
  · exact h.after_raise _ _
  · exact h.after_setDrain hp _

theorem execEoi_invariant {src : Source} (h : s.Invariant) (he : execEoi src s = .next t) : t.Invariant := by
  obtain ⟨hact, hrun, rfl⟩ | ⟨-, rfl⟩ := execEoi_cases he
  · exact (h.after_finish _ _ _ _).after_returnIsr (by simpa using hact) (by simpa using hrun)
  · exact h.after_raise _ _

theorem execGetDesc_invariant {ring : Ring} {idx : Byte} (h : s.Invariant) (he : execGetDesc ring idx s = .next t) :
    t.Invariant := by
  obtain ⟨code, rfl⟩ | ⟨d, -, -, -, rfl⟩ := execGetDesc_cases he
  · exact h.after_raise _ code
  · exact h.after_finish _ _ _ _

/-- RX_BERR enters FATAL, where the same is asked of a state as in READY (R172). -/
theorem execRxBerr_invariant (h : s.Invariant) (he : execRxBerr s = .next t) : t.Invariant := by
  obtain ⟨-, rfl⟩ | ⟨hp, rfl⟩ := execRxBerr_cases he
  · exact h
  · obtain ⟨hok, hmem, hmtu, hctx, hen, -, rings⟩ := h
    exact .of_rings nofun hok hmem hmtu hctx hen (rings (by simp [hp]))

/-- Every instruction that some word stands for keeps the invariant. -/
theorem exec_invariant {i : Instr} (h : s.Invariant) (hw : i.wellFormed = true) (he : exec i s = .next t) :
    t.Invariant := by
  cases i with
  | init => exact execInit_invariant h he
  | ifUp mtu payload => exact execIfUp_invariant h he
  | transmit len frame => exact execTransmit_invariant h he
  | receive => exact execReceive_invariant h he
  | drain => exact execDrain_invariant h he
  | eoi src => exact execEoi_invariant h he
  | getDesc ring idx => exact execGetDesc_invariant h he
  | txDone => exact execTxDone_invariant h he
  | rxFrame len crcErr otherErr bytes => exact execRxFrame_invariant h (by simpa [Instr.wellFormed] using hw) he
  | rxBerr => exact execRxBerr_invariant h he
  | ackRx => cases he; exact (h.after_clearPend .rxr).after_finish _ _ _ _
  | ackTx => cases he; exact (h.after_clearPend .txc).after_finish _ _ _ _
  | linkPoll => cases he; exact State.Invariant.after_finish (s := { s with linkUp := s.phyLink }) h _ _ _ _
  | irqMask tx rx => cases he; exact State.Invariant.after_finish (s := { s with ie := ⟨tx, rx⟩ }) h _ _ _ _
  | getStatus => cases he; exact h.after_finish _ _ _ _
  | getIfinfo => cases he; exact h.after_finish _ _ _ _
  | getCounters sel => cases he; exact h.after_finish _ _ _ _
  | phyLink v => cases he; exact h

end Commands

/-! ### What decodes is well formed

Every form but RX_FRAME is well formed as it is, and the decoder of RX_FRAME checks its length (R76). -/

/-- A form whose decoder checks zero bits and that there is no payload decodes to what the decoder names. -/
theorem wellFormed_of_guarded {c : Prop} [Decidable c] {i j : Instr} {payload : List Byte} (hi : i.wellFormed = true)
    (h : (if c then withoutPayload i payload else .error .reservedBit) = .ok j) : j.wellFormed = true := by
  unfold withoutPayload at h
  split at h
  · split at h
    · cases h
      exact hi
    · cases h
  · cases h

theorem wellFormed_of_decodeHost {w : Word} {payload : List Byte} {i : Instr} (h : decodeHost w payload = .ok i) :
    i.wellFormed = true := by
  unfold decodeHost at h
  split at h
  · cases h
  · split at h
    case h_2 | h_3 => cases h; rfl
    case h_15 => cases h
    all_goals exact wellFormed_of_guarded rfl h

theorem wellFormed_of_decodeRxFrame {w : Word} {payload : List Byte} {i : Instr}
    (h : decodeRxFrame w payload = .ok i) : i.wellFormed = true := by
  unfold decodeRxFrame at h
  split at h
  · split at h
    · rename_i hlen
      cases h
      simpa [Instr.wellFormed] using hlen
    · cases h
  · cases h

theorem wellFormed_of_decodeController {w : Word} {payload : List Byte} {i : Instr}
    (h : decodeController w payload = .ok i) : i.wellFormed = true := by
  unfold decodeController at h
  split at h
  case h_2 => exact wellFormed_of_decodeRxFrame h
  case h_5 => cases h
  all_goals exact wellFormed_of_guarded rfl h

theorem wellFormed_of_decode {port : Port} {w : Word} {payload : List Byte} {i : Instr}
    (h : decode port w payload = .ok i) : i.wellFormed = true := by
  cases port with
  | host => exact wellFormed_of_decodeHost h
  | controller => exact wellFormed_of_decodeController h

/-! ### Every step keeps the invariant -/

section Step

variable {s t : State}

/-- The end of a DRAIN keeps the invariant (R132). -/
theorem State.Invariant.after_endDrain (h : s.Invariant) (hp : s.phase ≠ .uninit) (code : ResultCode) (k : Nat) :
    (endDrain s code k).Invariant :=
  ((h.after_clearPend .rxr).after_setDrain hp .idle).after_finish _ _ _ _

theorem State.Invariant.after_deliver (h : s.Invariant) (hp : s.phase ≠ .uninit) (k : Nat) (frame : List Byte) :
    (deliver s k frame).Invariant := by
  obtain ⟨-, ht⟩ | ⟨-, ht⟩ := deliver_cases s k frame
  · rw [ht]
    exact State.Invariant.after_setDrain (s := { (drawDeliver s).2 with delivered := s.delivered ++ [frame] })
      h.after_drawDeliver (by simpa using hp) _
  · rw [ht]
    exact h.after_drawDeliver

theorem drainStep_invariant {k : Nat} (h : s.Invariant) (hp : s.phase ≠ .uninit) (hs : drainStep k s = .next t) :
    t.Invariant := by
  obtain ⟨-, rfl⟩ | ⟨u, -, hu, rfl⟩ | ⟨v, frame, u, -, hu, rfl⟩ := drainStep_cases hs
  · exact h.after_endDrain hp _ k
  · exact (receiveLoop_invariant h hp hu).after_setDrain (receiveFrom_phase hu ▸ hp) _
  · exact (receiveLoop_invariant h hp hu).after_deliver (receiveFrom_phase hu ▸ hp) k frame

/-- A DRAIN step of the chosen agent is one of a block that INIT has set up. -/
theorem State.Invariant.phase_ne_of_drainAction (h : s.Invariant) {a : Agent} {k : Nat}
    (ha : agentAction a s = .drainStep k ∨ agentAction a s = .drainAck k) : s.phase ≠ .uninit := by
  obtain ha | ha := ha
  · exact h.phase_ne_of_drain (c := running s) (by simp [agentAction_drain.1 ha])
  · exact h.phase_ne_of_drain (c := running s) (by simp [agentAction_drain.2 ha])

theorem agentAction_run_wellFormed {a : Agent} {i : Instr} (ha : agentAction a s = .run i) : i.wellFormed = true := by
  obtain ⟨c, -, -, hd⟩ | ⟨w, p, -, hd⟩ := agentAction_run ha
  · exact wellFormed_of_decode hd
  · exact wellFormed_of_decode hd

/-- An agent's action keeps the invariant. -/
theorem perform_invariant {a : Agent} (h : s.Invariant) (hs : perform (agentAction a s) s = .next t) :
    t.Invariant := by
  cases ha : agentAction a s <;> rw [ha] at hs
  case run i => exact exec_invariant h (agentAction_run_wellFormed ha) hs
  case illegal w => cases hs; exact h.after_raise w _
  case enter src => cases hs; exact h.after_enterIsr (agentAction_enter ha)
  case drainStep k => exact drainStep_invariant h (h.phase_ne_of_drainAction (.inl ha)) hs
  case drainAck k => cases hs; exact h.after_endDrain (h.phase_ne_of_drainAction (.inr ha)) _ k
  case idle => cases hs; exact h

/-- Settles O57: the choice of the agent touches nothing the invariant speaks of, and the agent's action keeps it. -/
theorem everyStepKeepsTheInvariant : Obligations.EveryStepKeepsTheInvariant := by
  intro s t h hs
  obtain ⟨-, hs⟩ := step_cases hs
  exact perform_invariant h.after_pickAgent hs

end Step

/-! ### No step faults -/

section Progress

variable {s : State}

/-- RECEIVE's loop answers where its bound exceeds the number of HostOwned slots (R131): the slot at the cursor is
written, the frame in it can be read, and a pass that goes on leaves one HostOwned slot fewer. -/
theorem receiveLoop_ok {n : Nat} (hok : s.cfg.Ok) (hrx : RingLaw s .rx) (hn : countOwn s.descs.rx .hostOwned < n) :
    ∃ o t, receiveLoop n s = .ok (o, t) := by
  induction n generalizing s with
  | zero => exact absurd hn (Nat.not_lt_zero _)
  | succ n ih =>
    obtain ⟨d, hd⟩ := hrx.readDesc_cur
    cases ho : d.own with
    | controllerOwned => exact ⟨_, _, receiveLoop_empty hd ho⟩
    | hostOwned =>
      have hrecycled : RingLaw (recycle s s.cur.rx d) .rx := hrx.after_recycle hrx hd
      have hfewer := countOwn_recycle hd ho
      cases hg : d.st.good with
      | false =>
        rw [receiveLoop_err hd ho hg]
        exact ih hok hrecycled (by rw [discardErr_descs]; omega)
      | true =>
        cases ha : (drawAlloc s).1 with
        | false =>
          rw [receiveLoop_nobuf hd ho hg ha]
          have hdrawn : RingLaw (drawAlloc s).2 .rx := hrx.after_drawAlloc
          have hd' : readDesc (drawAlloc s).2 .rx s.cur.rx = .ok d := by simpa [readDesc] using hd
          exact ih (by simpa using hok) (hdrawn.after_recycle hdrawn hd') (by
            simp only [discardNobuf_descs, recycle_descs, writeDesc_descs, drawAlloc_descs] at hfewer ⊢
            omega)
        | true =>
          obtain ⟨frame, hframe⟩ := hrx.memRead_ok hok hd ho
          exact ⟨_, _, receiveLoop_frame hd ho hg ha hframe⟩

theorem State.Invariant.receiveFrom_ok (h : s.Invariant) (hp : s.phase ≠ .uninit) :
    ∃ o t, receiveFrom s = .ok (o, t) := by
  obtain ⟨-, hrx, -⟩ := h.rings hp
  obtain ⟨hok, -⟩ := h
  exact receiveLoop_ok hok hrx (Nat.lt_succ_of_le (countOwn_le _ _))

theorem execReceive_next (h : s.Invariant) : ∃ t, execReceive s = .next t := by
  cases hp : s.phase with
  | uninit => simp [execReceive, hp]
  | fatal => simp [execReceive, hp]
  | ready =>
    obtain ⟨o, u, hu⟩ := h.receiveFrom_ok (by simp [hp])
    cases o <;> simp [execReceive, hp, receiveResult, hu]

theorem execTransmit_next (h : s.Invariant) (len : Half) (frame : List Byte) :
    ∃ t, execTransmit len frame s = .next t := by
  cases hp : s.phase with
  | uninit => simp [execTransmit, hp]
  | fatal => simp [execTransmit, hp]
  | ready =>
    by_cases hl : frame.length = len.toNat ∧ txLenOk s.cfg s.mtu len
    · obtain ⟨htx, -⟩ := h.rings (by simp [hp])
      obtain ⟨hok, -⟩ := h
      obtain ⟨d, hd⟩ : ∃ d, readDesc s .tx s.cur.tx = .ok d := htx.readDesc_cur
      cases ho : d.own with
      | controllerOwned => simp [execTransmit, hp, hl, transmitSlot, hd, ho]
      | hostOwned =>
        obtain ⟨m, hm⟩ := htx.memWrite_ok hok hd (bytes := frame) (hl.1 ▸ txLenOk_le_bufCap hl.2)
        simp [execTransmit, hp, hl, transmitSlot, hd, ho, hm]
    · simp [execTransmit, hp, hl]

theorem execIfUp_next (mtu : Half) (payload : List Byte) (s : State) : ∃ t, execIfUp mtu payload s = .next t := by
  cases hp : s.phase with
  | uninit => simp [execIfUp, hp]
  | fatal => simp [execIfUp, hp]
  | ready =>
    simp only [execIfUp, hp, ifUpReady]
    split
    · simp
    · split_ifs <;> simp

theorem execGetDesc_next (h : s.Invariant) (ring : Ring) (idx : Byte) : ∃ t, execGetDesc ring idx s = .next t := by
  have read (hp : s.phase ≠ .uninit) : ∃ t, getDescAt ring idx s = .next t := by
    by_cases hi : s.cfg.card ring ≤ idx.toNat
    · simp [getDescAt, hi]
    · obtain ⟨d, hd⟩ := ((h.rings hp).ring ring).readDesc_ok (Nat.lt_of_not_le hi)
      simp [getDescAt, hi, hd]
  cases hp : s.phase with
  | uninit => simp [execGetDesc, hp]
  | ready => simpa only [execGetDesc, hp] using read (by simp [hp])
  | fatal => simpa only [execGetDesc, hp] using read (by simp [hp])

theorem idleDoorbell_ok (h : RingLaw s .tx) : ∃ kick, idleDoorbell s = .ok kick := by
  obtain ⟨e, he⟩ : ∃ e, readDesc s .tx s.ccur.tx = .ok e := h.readDesc_ccur
  simp [idleDoorbell, he]

theorem execTxDone_next (h : s.Invariant) : ∃ t, execTxDone s = .next t := by
  by_cases hc : s.phase = .ready ∧ s.txEn ∧ s.kick
  · obtain ⟨htx, -⟩ := h.rings (by simp [hc])
    obtain ⟨hok, -⟩ := h
    obtain ⟨d, hd⟩ : ∃ d, readDesc s .tx s.ccur.tx = .ok d := htx.readDesc_ccur
    cases ho : d.own with
    | hostOwned => simp [execTxDone, hc, hd, ho]
    | controllerOwned =>
      obtain ⟨frame, hframe⟩ := htx.memRead_ok hok hd ho
      obtain ⟨kick, hkick⟩ := idleDoorbell_ok (htx.after_txGiveBack htx hd)
      simp [execTxDone, hc, hd, ho, txComplete, hframe, hkick]
  · simp [execTxDone, hc]

theorem execRxFrame_next (h : s.Invariant) (len : Half) (crcErr otherErr : Bool) (bytes : List Byte) :
    ∃ t, execRxFrame len crcErr otherErr bytes s = .next t := by
  by_cases hc : s.phase = .ready ∧ s.rxEn
  · obtain ⟨-, hrx, -⟩ := h.rings (by simp [hc])
    obtain ⟨hok, -⟩ := h
    obtain ⟨d, hd⟩ : ∃ d, readDesc s .rx s.ccur.rx = .ok d := hrx.readDesc_ccur
    cases ho : d.own with
    | hostOwned => simp [execRxFrame, hc, hd, ho]
    | controllerOwned =>
      obtain ⟨m, hm⟩ := hrx.memWrite_ok hok hd (bytes := storedBytes s.cfg len bytes)
        ((List.length_take_le _ _).trans (min_le_right _ _))
      simp [execRxFrame, hc, hd, ho, rxStore, hm]
  · simp [execRxFrame, hc]

/-- No instruction faults where the invariant holds: the others answer a next state by definition. -/
theorem exec_next (h : s.Invariant) (i : Instr) : ∃ t, exec i s = .next t := by
  cases i with
  | ifUp mtu payload => exact execIfUp_next mtu payload s
  | transmit len frame => exact execTransmit_next h len frame
  | receive => exact execReceive_next h
  | getDesc ring idx => exact execGetDesc_next h ring idx
  | txDone => exact execTxDone_next h
  | rxFrame len crcErr otherErr bytes => exact execRxFrame_next h len crcErr otherErr bytes
  | init => simp only [exec, execInit]; split_ifs <;> exact ⟨_, rfl⟩
  | drain => simp only [exec, execDrain]; split <;> exact ⟨_, rfl⟩
  | eoi src => simp only [exec, execEoi]; split_ifs <;> exact ⟨_, rfl⟩
  | rxBerr => simp only [exec, execRxBerr]; split_ifs <;> exact ⟨_, rfl⟩
  | ackRx => exact ⟨_, rfl⟩
  | ackTx => exact ⟨_, rfl⟩
  | linkPoll => exact ⟨_, rfl⟩
  | getStatus => exact ⟨_, rfl⟩
  | getIfinfo => exact ⟨_, rfl⟩
  | irqMask tx rx => exact ⟨_, rfl⟩
  | getCounters sel => exact ⟨_, rfl⟩
  | phyLink v => exact ⟨_, rfl⟩

theorem drainStep_next (h : s.Invariant) (hp : s.phase ≠ .uninit) (k : Nat) : ∃ t, drainStep k s = .next t := by
  cases hph : s.phase with
  | uninit => exact absurd hph hp
  | fatal => simp [drainStep, hph]
  | ready =>
    obtain ⟨o, u, hu⟩ := h.receiveFrom_ok hp
    cases o <;> simp [drainStep, hph, drainReceive, hu]

theorem perform_next (h : s.Invariant) (a : Agent) : ∃ t, perform (agentAction a s) s = .next t := by
  cases ha : agentAction a s with
  | run i => exact exec_next h i
  | drainStep k => exact drainStep_next h (h.phase_ne_of_drainAction (.inl ha)) k
  | illegal w => exact ⟨_, rfl⟩
  | enter src => exact ⟨_, rfl⟩
  | drainAck k => exact ⟨_, rfl⟩
  | idle => exact ⟨_, rfl⟩

/-- Settles O58: the parameters are legal, and no action of the chosen agent faults. -/
theorem everyStepAnswersANextState : Obligations.EveryStepAnswersANextState := by
  intro s h
  obtain ⟨t, ht⟩ := perform_next h.after_pickAgent (pickAgent s).1
  obtain ⟨hok, -⟩ := h
  exact ⟨t, by rw [step, if_pos hok, ht]⟩

end Progress

end Sys2Proof.Machine
end

section
/-!
SUPPORT. What each instruction and each step leaves unchanged (R24, R25, R27 to R33, R38), the power-on values (R37), and
the mainline's step (R210).
-/

namespace Sys2Proof.Machine

/-! ### The fields an instruction writes -/

/-- Settles O49: each case is one outcome of the instruction, by its inversion lemma, read field by field. -/
theorem onlyTheNamedInstructionsWriteEachField : Obligations.OnlyTheNamedInstructionsWriteEachField := by
  intro i s t h
  cases i with
  | init => obtain ⟨-, rfl⟩ | ⟨-, rfl⟩ := execInit_cases h <;> simp [Instr.port]
  | ifUp mtu payload => obtain ⟨code, rfl⟩ | ⟨a, -, -, -, -, rfl⟩ := execIfUp_cases h <;> simp [Instr.port]
  | transmit len frame =>
    obtain ⟨code, rfl⟩ | ⟨d, m, -, -, -, -, -, -, rfl⟩ := execTransmit_cases h <;> simp [Instr.port]
  | receive =>
    obtain ⟨code, -, rfl⟩ | ⟨u, -, hu, rfl⟩ | ⟨v, frame, u, -, hu, rfl⟩ := execReceive_cases h
    · simp [Instr.port]
    · rw [(receiveFrom_frameLaw hu).eq]; simp [Instr.port]
    · rw [(receiveFrom_frameLaw hu).eq]; simp [Instr.port]
  | drain => obtain ⟨-, rfl⟩ | ⟨-, rfl⟩ := execDrain_cases h <;> simp [Instr.port]
  | eoi src => obtain ⟨-, -, rfl⟩ | ⟨-, rfl⟩ := execEoi_cases h <;> simp [Instr.port]
  | getDesc ring idx => obtain ⟨code, rfl⟩ | ⟨d, -, -, -, rfl⟩ := execGetDesc_cases h <;> simp [Instr.port]
  | txDone => obtain rfl | ⟨d, frame, e, -, -, -, -, -, -, -, rfl⟩ := execTxDone_cases h <;> simp
  | rxFrame len crcErr otherErr bytes =>
    obtain rfl | ⟨d, -, -, -, -, rfl⟩ | ⟨d, m, -, -, -, -, -, rfl⟩ := execRxFrame_cases h <;>
      simp [-Bool.forall_bool]
  | rxBerr => obtain ⟨-, rfl⟩ | ⟨-, rfl⟩ := execRxBerr_cases h <;> simp
  | ackRx => cases h; simp [Instr.port]
  | ackTx => cases h; simp [Instr.port]
  | linkPoll => cases h; simp [Instr.port]
  | irqMask tx rx => cases h; simp [Instr.port]
  | getStatus => cases h; simp [Instr.port]
  | getIfinfo => cases h; simp [Instr.port]
  | getCounters sel => cases h; simp [Instr.port]
  | phyLink v => cases h; simp

/-! ### The traces

An update of a field that is no trace, neither the parameters nor the program keeps `TracesGrow` by definition. -/

/-- The traces of `s` are prefixes of those of `t`, and the parameters and the program are the same (R33, R4, R65). -/
abbrev TracesGrow (s t : State) : Prop :=
  s.wireOut <+: t.wireOut ∧ s.delivered <+: t.delivered ∧ s.results <+: t.results ∧ t.cfg = s.cfg ∧ t.prog = s.prog

section Traces

variable {s t u : State}

theorem TracesGrow.refl (s : State) : TracesGrow s s :=
  ⟨List.prefix_refl _, List.prefix_refl _, List.prefix_refl _, rfl, rfl⟩

theorem TracesGrow.trans (h : TracesGrow s t) (h' : TracesGrow t u) : TracesGrow s u := by
  obtain ⟨hwire, hdelivered, hresults, hcfg, hprog⟩ := h
  obtain ⟨hwire', hdelivered', hresults', hcfg', hprog'⟩ := h'
  exact ⟨hwire.trans hwire', hdelivered.trans hdelivered', hresults.trans hresults', hcfg'.trans hcfg,
    hprog'.trans hprog⟩

/-- The end of a command appends its result (R77). -/
theorem tracesGrow_finish (s : State) (w : Word) (code : ResultCode) (v : Word) (p : List Byte) :
    TracesGrow s (finish s w code v p) := by
  simp [TracesGrow]

theorem tracesGrow_raise (s : State) (w : Word) (code : ResultCode) : TracesGrow s (raise s w code) :=
  tracesGrow_finish s w code 0#32 []

theorem ReceiveFrame.tracesGrow (h : ReceiveFrame s t) : TracesGrow s t := by
  rw [h.eq]
  exact .refl s

theorem tracesGrow_pickAgent (s : State) : TracesGrow s (pickAgent s).2 := by
  simp [TracesGrow]

/-- No instruction removes from a trace: TX_DONE appends to the wire, and each command that ends appends its result. -/
theorem exec_tracesGrow {i : Instr} (h : exec i s = .next t) : TracesGrow s t := by
  cases i with
  | init =>
    obtain ⟨-, rfl⟩ | ⟨-, rfl⟩ := execInit_cases h
    · exact tracesGrow_raise _ _ _
    · exact tracesGrow_finish (initState s) _ _ _ _
  | ifUp mtu payload =>
    obtain ⟨code, rfl⟩ | ⟨a, -, -, -, -, rfl⟩ := execIfUp_cases h
    · exact tracesGrow_raise _ _ _
    · exact tracesGrow_finish (ifUpState s a (requestedMtu mtu)) _ _ _ _
  | transmit len frame =>
    obtain ⟨code, rfl⟩ | ⟨d, m, -, -, -, -, -, -, rfl⟩ := execTransmit_cases h
    · exact tracesGrow_raise _ _ _
    · exact tracesGrow_finish (handOff s s.cur.tx d m len) _ _ _ _
  | receive =>
    obtain ⟨code, -, rfl⟩ | ⟨u, -, hu, rfl⟩ | ⟨v, frame, u, -, hu, rfl⟩ := execReceive_cases h
    · exact tracesGrow_raise _ _ _
    · exact (receiveFrom_frameLaw hu).tracesGrow.trans (tracesGrow_finish _ _ _ _ _)
    · exact (receiveFrom_frameLaw hu).tracesGrow.trans (tracesGrow_finish _ _ _ _ _)
  | drain =>
    obtain ⟨-, rfl⟩ | ⟨-, rfl⟩ := execDrain_cases h
    · exact tracesGrow_raise _ _ _
    · exact .refl s
  | eoi src =>
    obtain ⟨-, -, rfl⟩ | ⟨-, rfl⟩ := execEoi_cases h
    · exact tracesGrow_finish s _ _ _ _
    · exact tracesGrow_raise _ _ _
  | getDesc ring idx =>
    obtain ⟨code, rfl⟩ | ⟨d, -, -, -, rfl⟩ := execGetDesc_cases h
    · exact tracesGrow_raise _ _ _
    · exact tracesGrow_finish _ _ _ _ _
  | txDone =>
    obtain rfl | ⟨d, frame, e, -, -, -, -, -, -, -, rfl⟩ := execTxDone_cases h
    · exact .refl _
    · exact ⟨List.prefix_append _ _, List.prefix_refl _, List.prefix_refl _, rfl, rfl⟩
  | rxFrame len crcErr otherErr bytes =>
    obtain rfl | ⟨d, -, -, -, -, rfl⟩ | ⟨d, m, -, -, -, -, -, rfl⟩ := execRxFrame_cases h
    · exact .refl _
    · exact .refl s
    · exact .refl s
  | rxBerr =>
    obtain ⟨-, rfl⟩ | ⟨-, rfl⟩ := execRxBerr_cases h
    · exact .refl _
    · exact .refl s
  | ackRx => cases h; exact tracesGrow_finish { s with pend := s.pend.set .rxr false } _ _ _ _
  | ackTx => cases h; exact tracesGrow_finish { s with pend := s.pend.set .txc false } _ _ _ _
  | linkPoll => cases h; exact tracesGrow_finish { s with linkUp := s.phyLink } _ _ _ _
  | irqMask tx rx => cases h; exact tracesGrow_finish { s with ie := ⟨tx, rx⟩ } _ _ _ _
  | getStatus => cases h; exact tracesGrow_finish _ _ _ _ _
  | getIfinfo => cases h; exact tracesGrow_finish _ _ _ _ _
  | getCounters sel => cases h; exact tracesGrow_finish _ _ _ _ _
  | phyLink v => cases h; exact .refl s

theorem tracesGrow_endDrain (s : State) (code : ResultCode) (k : Nat) : TracesGrow s (endDrain s code k) :=
  tracesGrow_finish (setDrain { s with pend := s.pend.set .rxr false } .idle) _ _ _ _

/-- A frame that is delivered is appended to its trace (R132). -/
theorem tracesGrow_deliver (s : State) (k : Nat) (frame : List Byte) : TracesGrow s (deliver s k frame) := by
  obtain ⟨-, ht⟩ | ⟨-, ht⟩ := deliver_cases s k frame <;> rw [ht] <;> simp [TracesGrow]

theorem drainStep_tracesGrow {k : Nat} (h : drainStep k s = .next t) : TracesGrow s t := by
  obtain ⟨-, rfl⟩ | ⟨u, -, hu, rfl⟩ | ⟨v, frame, u, -, hu, rfl⟩ := drainStep_cases h
  · exact tracesGrow_endDrain s _ k
  · exact (receiveFrom_frameLaw hu).tracesGrow
  · exact (receiveFrom_frameLaw hu).tracesGrow.trans (tracesGrow_deliver u k frame)

theorem perform_tracesGrow {a : Action} (h : perform a s = .next t) : TracesGrow s t := by
  cases a with
  | run i => exact exec_tracesGrow h
  | illegal w => cases h; exact tracesGrow_raise s w _
  | enter src => cases h; exact .refl s
  | drainStep k => exact drainStep_tracesGrow h
  | drainAck k => cases h; exact tracesGrow_endDrain s _ k
  | idle => cases h; exact .refl s

/-- Settles O50: neither the choice of the agent nor its action removes from a trace. -/
theorem tracesOnlyGrow : Obligations.TracesOnlyGrow := by
  intro s t h
  obtain ⟨-, h⟩ := step_cases h
  exact (tracesGrow_pickAgent s).trans (perform_tracesGrow h)

end Traces

/-! ### Power-on values -/

/-- Power-on reset leaves no descriptor written (R37, R41). -/
theorem readDesc_resetWith (p : Params) (r : Ring) (i : Nat) :
    readDesc (State.resetWith p) r i = .error .unwrittenRead := by
  cases r <;> rfl

/-- Settles O16: apart from the descriptors, each value is the field as `State.resetWith` gives it. -/
theorem powerOnValues : Obligations.PowerOnValues := by
  intro p
  refine ⟨rfl, rfl, readDesc_resetWith p, fun _ => rfl, ?_⟩
  and_intros <;> rfl

/-! ### The mainline's step -/

/-- With no DRAIN in progress a host step of the mainline is the command at its index, where that decodes (R210). -/
theorem hostAction_of_mainline {s : State} {c : Command} {i : Instr} (hrun : running s = .mainline)
    (hdrain : s.drain.mainline = .idle) (hc : s.prog[s.pc]? = some c)
    (hd : decode .host c.word c.payload = .ok i) : hostAction s = .run i := by
  simp [hostAction, hrun, hdrain, fetch, hc, commandAction, hd]

/-- Settles O8: the schedule's head is the host, whose action is the mainline's command. -/
theorem stepRunsTheMainlineCommand : Obligations.StepRunsTheMainlineCommand := by
  intro s rest c i hok hsched hrun hdrain hc hd
  have ha : hostAction { s with sched := rest } = .run i := hostAction_of_mainline hrun hdrain hc hd
  calc step s = perform (hostAction { s with sched := rest }) { s with sched := rest } := step_of_sched hok hsched
    _ = exec i { s with sched := rest } := by rw [ha, perform]

end Sys2Proof.Machine
end

section
/-!
SUPPORT. The frame-buffer address decoder (R52), both ways, and what a write to one slot's buffer leaves of the others'
frames; and the two obligations of 20_memory.md on bytes and addresses.
-/

namespace Sys2Proof

/-! ### Little-endian bytes -/

/-- The bytes of a word in little-endian order put together again are the word: each pair of neighbours is one longer
run of its bits (R56). -/
theorem ofLeBytes_extractLsb' (w : Word) :
    ofLeBytes (w.extractLsb' 0 8) (w.extractLsb' 8 8) (w.extractLsb' 16 8) (w.extractLsb' 24 8) = w := by
  have join {start start' len len' : Nat} (h : start' = start + len) :
      w.extractLsb' start' len' ++ w.extractLsb' start len = w.extractLsb' start (len' + len) :=
    BitVec.extractLsb'_append_extractLsb'_eq_extractLsb' h
  rw [ofLeBytes, join (show 24 = 16 + 8 from rfl), join (show 16 = 8 + 8 from rfl), join (show 8 = 0 + 8 from rfl)]
  exact BitVec.extractLsb'_eq_self

/-- Settles O5: the bytes by their definition, and the word they decode as by putting them together again. -/
theorem littleEndianBytesDecodeAsTheirWord : Obligations.LittleEndianBytesDecodeAsTheirWord := by
  intro port w payload
  constructor
  · intro k hk
    interval_cases k <;> rfl
  · calc decodeBytes port (leBytes w ++ payload)
        = decode port (ofLeBytes (w.extractLsb' 0 8) (w.extractLsb' 8 8) (w.extractLsb' 16 8) (w.extractLsb' 24 8))
            payload := rfl
      _ = decode port w payload := by rw [ofLeBytes_extractLsb']

namespace Machine

/-! ### The address decoder -/

/-- Everything the address decoder answers: a byte of the arena the address is in, or nothing where it is in neither
(R52). -/
theorem decodeAddr_cases (p : Params) (a : Nat) :
    (∃ r, p.base r ≤ a ∧ a < p.arenaEnd r ∧ decodeAddr p a = arenaTarget p r a) ∨
      ((∀ r, a < p.base r ∨ p.arenaEnd r ≤ a) ∧ decodeAddr p a = .unmapped) := by
  by_cases htx : p.base .tx ≤ a ∧ a < p.arenaEnd .tx
  · exact .inl ⟨.tx, htx.1, htx.2, if_pos htx⟩
  · by_cases hrx : p.base .rx ≤ a ∧ a < p.arenaEnd .rx
    · exact .inl ⟨.rx, hrx.1, hrx.2, by rw [decodeAddr, if_neg htx, if_pos hrx]⟩
    · refine .inr ⟨fun r => ?_, by rw [decodeAddr, if_neg htx, if_neg hrx]⟩
      cases r <;> omega

/-- What decodes to a byte of a slot is that byte of its buffer (R51, R52). -/
theorem eq_bufAddr_of_decodeAddr {p : Params} (hp : p.Ok) {r : Ring} {a i k : Nat} (h : decodeAddr p a = .buf r i k) :
    i < p.card r ∧ k < p.bufCap ∧ a = bufAddr p r i + k := by
  obtain ⟨q, hlo, hhi, hq⟩ | ⟨-, hnone⟩ := decodeAddr_cases p a
  · obtain ⟨rfl, rfl, rfl⟩ : q = r ∧ (a - p.base q) / p.bufCap = i ∧ (a - p.base q) % p.bufCap = k := by
      simpa [hq, arenaTarget] using h
    have hlt : a - p.base q < p.card q * p.bufCap := by
      rw [Params.arenaEnd] at hhi
      omega
    have hdiv := Nat.div_add_mod' (a - p.base q) p.bufCap
    refine ⟨(Nat.div_lt_iff_lt_mul hp.bufCap_pos).2 hlt, Nat.mod_lt _ hp.bufCap_pos, ?_⟩
    rw [bufAddr]
    omega
  · simp [hnone] at h

theorem inSlot_iff {p : Params} {r : Ring} {i a : Nat} : inSlot p r i a = true ↔ ∃ k, decodeAddr p a = .buf r i k := by
  unfold inSlot
  cases decodeAddr p a <;> simp

/-- Every byte of a slot's buffer decodes to its place there (R51, R52). -/
theorem decodeAddr_bufAddr {p : Params} (hp : p.Ok) {r : Ring} {i k : Nat} (hi : i < p.card r) (hk : k < p.bufCap) :
    decodeAddr p (bufAddr p r i + k) = .buf r i k := by
  obtain ⟨k', hk'⟩ := inSlot_iff.1 (inSlot_bufAddr hp hi hk)
  obtain ⟨-, -, heq⟩ := eq_bufAddr_of_decodeAddr hp hk'
  rwa [Nat.add_left_cancel heq] at hk' ⊢

/-- Settles O23: each byte of a buffer decodes to its place, and an address by the arena it is in. -/
theorem addressDecoderInvertsTheBufferMap : Obligations.AddressDecoderInvertsTheBufferMap := by
  intro p hp
  refine ⟨fun r i k hi hk => ⟨?_, decodeAddr_bufAddr hp hi hk⟩, fun a r i k h => eq_bufAddr_of_decodeAddr hp h,
    fun a => ?_⟩
  · calc p.base r + i * p.bufCap + k < bufAddr p r i + p.bufCap := Nat.add_lt_add_left hk _
      _ ≤ p.arenaEnd r := bufAddr_add_bufCap_le hi
      _ ≤ 2 ^ 32 := hp.arenaEnd_le r
  · obtain ⟨q, hlo, hhi, hq⟩ | ⟨hout, hnone⟩ := decodeAddr_cases p a
    · refine iff_of_false (by simp [hq, arenaTarget]) fun hout => ?_
      obtain hlt | hge := hout q
      · exact absurd hlo (Nat.not_le_of_lt hlt)
      · exact absurd hhi (Nat.not_lt_of_le hge)
    · exact iff_of_true hnone hout

/-! ### The bytes of different slots -/

/-- No address is in two slots: the decoder is a function (R52). -/
theorem inSlot_unique {p : Params} {r q : Ring} {i j a : Nat} (h : inSlot p r i a = true) (h' : inSlot p q j a = true) :
    q = r ∧ j = i := by
  obtain ⟨k, hk⟩ := inSlot_iff.1 h
  obtain ⟨k', hk'⟩ := inSlot_iff.1 h'
  obtain ⟨rfl, rfl, -⟩ : r = q ∧ i = j ∧ k = k' := by simpa [hk] using hk'
  exact ⟨rfl, rfl⟩

/-- A write to a slot changes no byte outside the slot (R53). -/
theorem read_memWrite_of_not_inSlot {p : Params} {r : Ring} {i a x : Nat} {bytes : List Byte} {m m' : List Host.Cell}
    (h : memWrite p r i m a bytes = .ok m') (hx : ¬inSlot p r i x = true) : Memory.read m' x = Memory.read m x := by
  obtain ⟨-, hout, -⟩ := memWrite_spec h
  refine hout x (not_and_or.1 ?_ |>.imp Nat.lt_of_not_le Nat.le_of_not_lt)
  rintro ⟨hlo, hhi⟩
  have := memWrite_inSlot h (x - a) (by omega)
  rw [Nat.add_sub_cancel' hlo] at this
  exact hx this

/-- What a slot read answers depends on the slot's own bytes only (R53). -/
theorem memRead_congr {p : Params} {r : Ring} {i a n : Nat} {m m' : List Host.Cell}
    (h : ∀ x, inSlot p r i x = true → Memory.read m' x = Memory.read m x) :
    memRead p r i m' a n = memRead p r i m a n := by
  induction n generalizing a with
  | zero => rfl
  | succ n ih =>
    by_cases ha : inSlot p r i a = true
    · simp only [memRead, ha, if_true, h a ha, ih]
    · rw [memRead, memRead, if_neg ha, if_neg ha]

/-- A slot read answers the bytes written there last (R54). -/
theorem memRead_of_memWrite {p : Params} {r : Ring} {i a : Nat} {bytes : List Byte} {m m' : List Host.Cell}
    (h : memWrite p r i m a bytes = .ok m') : memRead p r i m' a bytes.length = .ok bytes := by
  obtain ⟨hread, -⟩ := memWrite_spec h
  exact memRead_eq_ok.2 ⟨rfl, fun j hj => ⟨memWrite_inSlot h j hj, hread j hj⟩⟩

end Machine

end Sys2Proof
end

section
/-!
SUPPORT. The frames in a ring as a queue (R67): what one update of a slot does to it, what each instruction does to the
queues of the two rings, and the obligations of 20_memory.md that follow, with that on a repeated RECEIVE.
-/

namespace Sys2Proof.Machine

/-! ### The frame in a slot -/

section Slot

variable {s t : State} {r : Ring} {i : Nat} {d e : Desc} {bytes : List Byte} {m : List Host.Cell}

/-- The frame in a slot depends on the slot's descriptor and its own bytes only. -/
theorem slotFrame_congr (hcfg : t.cfg = s.cfg) (hdesc : (t.descs.get r)[i]? = (s.descs.get r)[i]?)
    (hmem : ∀ x, inSlot s.cfg r i x = true → Memory.read t.mem x = Memory.read s.mem x) :
    slotFrame t r i = slotFrame s r i := by
  unfold slotFrame
  rw [hcfg, hdesc]
  cases (s.descs.get r)[i]? with
  | none => rfl
  | some d => simp only [memRead_congr hmem]

theorem slotFrame_of_memRead (hd : readDesc s r i = .ok d)
    (hm : memRead s.cfg r i s.mem d.addr.toNat d.len.toNat = .ok bytes) : slotFrame s r i = some bytes := by
  rw [slotFrame, readDesc_eq_ok.1 hd]
  simp only [hm]

/-- A frame stored in a slot is the frame in it. -/
theorem slotFrame_store_same (hd : readDesc s r i = .ok d) (hm : memWrite s.cfg r i s.mem d.addr.toNat bytes = .ok m)
    (haddr : e.addr = d.addr) (hlen : e.len.toNat = bytes.length) :
    slotFrame { writeDesc s r i e with mem := m } r i = some bytes := by
  refine slotFrame_of_memRead (d := e) (readDesc_eq_ok.2 ?_) ?_
  · exact (writeDesc_getElem? s r i e i).trans (if_pos ⟨rfl, readDesc_lt hd⟩)
  · rw [haddr, hlen]
    exact memRead_of_memWrite hm

/-- A frame stored in a slot leaves the frame in every other slot of both rings. -/
theorem slotFrame_store_ne {a : Nat} (hm : memWrite s.cfg r i s.mem a bytes = .ok m) {q : Ring} {j : Nat}
    (hne : ¬(q = r ∧ j = i)) : slotFrame { writeDesc s r i e with mem := m } q j = slotFrame s q j := by
  refine slotFrame_congr rfl ?_ fun x hx => read_memWrite_of_not_inSlot hm fun hx' => hne (inSlot_unique hx' hx)
  by_cases hq : q = r
  · subst hq
    exact (writeDesc_getElem? s q i e j).trans (if_neg fun ⟨hij, _⟩ => hne ⟨rfl, hij.symm⟩)
  · exact congrArg (·[j]?) (writeDesc_get_ne s i e hq)

end Slot

/-! ### The queue of a ring -/

/-- The frames in flight in ring `r`, the slot `first` being the oldest: `txQueue` and `rxQueue` at once (R67). -/
def frameQueue (s : State) (r : Ring) (first : Nat) : List (Option (List Byte)) :=
  (List.range (countOwn (s.descs.get r) (holder r))).map fun j => slotFrame s r ((first + j) % s.cfg.card r)

theorem txQueue_eq_frameQueue (s : State) : txQueue s = frameQueue s .tx s.ccur.tx := rfl

theorem rxQueue_eq_frameQueue (s : State) : rxQueue s = frameQueue s .rx s.cur.rx := rfl

section Queue

variable {s t : State} {r : Ring} {first last i a : Nat} {d e : Desc} {bytes : List Byte} {m : List Host.Cell}

theorem frameQueue_congr (hcfg : t.cfg = s.cfg) (hdescs : t.descs.get r = s.descs.get r)
    (hslot : ∀ j, slotFrame t r j = slotFrame s r j) : frameQueue t r first = frameQueue s r first := by
  simp only [frameQueue, hcfg, hdescs, hslot]

/-- The queue of a state with one slot more in its run, the others as they were. -/
theorem frameQueue_append (hcfg : t.cfg = s.cfg)
    (hcount : countOwn (t.descs.get r) (holder r) = countOwn (s.descs.get r) (holder r) + 1)
    (hlast : last = (first + countOwn (s.descs.get r) (holder r)) % s.cfg.card r)
    (hold : ∀ j < countOwn (s.descs.get r) (holder r),
      slotFrame t r ((first + j) % s.cfg.card r) = slotFrame s r ((first + j) % s.cfg.card r)) :
    frameQueue t r first = frameQueue s r first ++ [slotFrame t r last] := by
  rw [frameQueue, frameQueue, hcount, hcfg, List.range_succ, List.map_append, List.map_singleton, ← hlast]
  exact congrArg (· ++ _) (List.map_congr_left fun j hj => hold j (List.mem_range.1 hj))

/-- The queue of a state whose run has one slot more, the oldest, than that of another. -/
theorem frameQueue_cons (hcfg : t.cfg = s.cfg) (hfirst : first < s.cfg.card r)
    (hcount : countOwn (s.descs.get r) (holder r) = countOwn (t.descs.get r) (holder r) + 1)
    (hold : ∀ j < countOwn (t.descs.get r) (holder r),
      slotFrame t r ((first + (j + 1)) % s.cfg.card r) = slotFrame s r ((first + (j + 1)) % s.cfg.card r)) :
    frameQueue s r first = slotFrame s r first :: frameQueue t r (advance s.cfg r first) := by
  rw [frameQueue, frameQueue, hcount, hcfg, List.range_succ_eq_map, List.map_cons, List.map_map, Nat.add_zero,
    Nat.mod_eq_of_lt hfirst]
  refine congrArg _ (List.map_congr_left fun j hj => ?_)
  rw [advance, slot_succ_offset]
  exact (hold j (List.mem_range.1 hj)).symm

/-- A frame stored in the slot after the run is appended to the queue. -/
theorem frameQueue_store (h : RingLaw s r) (hrun : OwnedRun (s.descs.get r) (holder r) (s.cfg.card r) first last)
    (hd : readDesc s r last = .ok d) (hdo : d.own ≠ holder r) (heo : e.own = holder r)
    (hm : memWrite s.cfg r last s.mem d.addr.toNat bytes = .ok m) (haddr : e.addr = d.addr)
    (hlen : e.len.toNat = bytes.length) :
    frameQueue { writeDesc s r last e with mem := m } r first = frameQueue s r first ++ [some bytes] := by
  have hcount : countOwn ((s.descs.get r).set last e) (holder r) = countOwn (s.descs.get r) (holder r) + 1 :=
    countOwn_set_taken (readDesc_eq_ok.1 hd) hdo heo
  have hlt : countOwn (s.descs.get r) (holder r) < s.cfg.card r := by
    have := countOwn_le ((s.descs.get r).set last e) (holder r)
    rw [List.length_set, h.length_eq] at this
    omega
  obtain ⟨-, hlast⟩ := hrun
  rw [← slotFrame_store_same hd hm haddr hlen]
  refine frameQueue_append rfl (by simpa using hcount) hlast fun j hj => slotFrame_store_ne hm fun ⟨_, heq⟩ => hj.ne ?_
  exact slot_offset_inj (hj.trans hlt) hlt (heq.trans hlast)

/-- The oldest slot given back is taken out of the queue. -/
theorem frameQueue_give (h : RingLaw s r) (hd : readDesc s r first = .ok d) (hdo : d.own = holder r)
    (heo : e.own ≠ holder r) :
    frameQueue s r first = slotFrame s r first :: frameQueue (writeDesc s r first e) r (advance s.cfg r first) := by
  have hcount :
      countOwn ((writeDesc s r first e).descs.get r) (holder r) + 1 = countOwn (s.descs.get r) (holder r) := by
    simpa using countOwn_set_away (readDesc_eq_ok.1 hd) hdo heo
  have hle : countOwn (s.descs.get r) (holder r) ≤ s.cfg.card r := h.length_eq ▸ countOwn_le _ _
  have hfirst := h.lt_card hd
  refine frameQueue_cons rfl hfirst hcount.symm fun j hj => ?_
  -- Giving a slot back stores no byte.
  refine slotFrame_store_ne (m := s.mem) (bytes := []) (a := 0) rfl fun ⟨_, heq⟩ => ?_
  have : j + 1 = 0 := slot_offset_inj (first := first) (by omega) (by omega) (heq.trans (Nat.mod_eq_of_lt hfirst).symm)
  omega

/-- What is stored in a slot of one ring leaves the queue of the other. -/
theorem frameQueue_store_other (hm : memWrite s.cfg r i s.mem a bytes = .ok m) {q : Ring} (hq : q ≠ r) :
    frameQueue { writeDesc s r i e with mem := m } q first = frameQueue s q first :=
  frameQueue_congr rfl (writeDesc_get_ne s i e hq) fun _ => slotFrame_store_ne hm fun ⟨heq, _⟩ => hq heq

end Queue

/-! ### The queues under the operations of the block -/

section Operations

variable {s t : State}

theorem txQueue_congr (hcfg : t.cfg = s.cfg) (hdescs : t.descs.tx = s.descs.tx) (hmem : t.mem = s.mem)
    (hccur : t.ccur = s.ccur) : txQueue t = txQueue s := by
  rw [txQueue_eq_frameQueue, hccur]
  exact frameQueue_congr hcfg hdescs fun _ => slotFrame_congr hcfg (congrArg (·[_]?) hdescs) (by simp [hmem])

theorem rxQueue_congr (hcfg : t.cfg = s.cfg) (hdescs : t.descs.rx = s.descs.rx) (hmem : t.mem = s.mem)
    (hcur : t.cur = s.cur) : rxQueue t = rxQueue s := by
  rw [rxQueue_eq_frameQueue, hcur]
  exact frameQueue_congr hcfg hdescs fun _ => slotFrame_congr hcfg (congrArg (·[_]?) hdescs) (by simp [hmem])

@[simp] theorem txQueue_finish (s : State) (w : Word) (code : ResultCode) (v : Word) (p : List Byte) :
    txQueue (finish s w code v p) = txQueue s := txQueue_congr (by simp) (by simp) (by simp) (by simp)

@[simp] theorem rxQueue_finish (s : State) (w : Word) (code : ResultCode) (v : Word) (p : List Byte) :
    rxQueue (finish s w code v p) = rxQueue s := rxQueue_congr (by simp) (by simp) (by simp) (by simp)

@[simp] theorem txQueue_raise (s : State) (w : Word) (code : ResultCode) : txQueue (raise s w code) = txQueue s :=
  txQueue_finish _ _ _ _ _

@[simp] theorem rxQueue_raise (s : State) (w : Word) (code : ResultCode) : rxQueue (raise s w code) = rxQueue s :=
  rxQueue_finish _ _ _ _ _

/-- The receive loop leaves the Tx queue. -/
theorem ReceiveFrame.txQueue_eq (h : ReceiveFrame s t) : txQueue t = txQueue s :=
  txQueue_congr (by rw [h.eq]) h.txDescs (by rw [h.eq]) (by rw [h.eq])

/-- The delivery of a frame leaves the Tx queue and the wire (R132). -/
theorem txQueue_deliver (s : State) (k : Nat) (frame : List Byte) :
    txQueue (deliver s k frame) = txQueue s ∧ (deliver s k frame).wireOut = s.wireOut := by
  obtain ⟨-, ht⟩ | ⟨-, ht⟩ := deliver_cases s k frame <;> rw [ht] <;>
    exact ⟨txQueue_congr (by simp) (by simp) (by simp) (by simp), by simp⟩

/-- TX_DONE takes the oldest frame out of the queue (R170). -/
theorem txQueue_txGiveBack {d : Desc} (h : RingLaw s .tx) (hd : readDesc s .tx s.ccur.tx = .ok d)
    (ho : d.own = .controllerOwned) :
    txQueue s = slotFrame s .tx s.ccur.tx :: txQueue (txGiveBack s s.ccur.tx d) :=
  frameQueue_give h hd ho (by simp [holder])

/-- TRANSMIT's hand-off appends the frame it stores (R120). -/
theorem txQueue_handOff {d : Desc} {m : List Host.Cell} {len : Half} {frame : List Byte} (h : RingsLaw s)
    (hd : readDesc s .tx s.cur.tx = .ok d) (ho : d.own = .hostOwned)
    (hm : memWrite s.cfg .tx s.cur.tx s.mem d.addr.toNat frame = .ok m) (hframe : frame.length = len.toNat) :
    txQueue (handOff s s.cur.tx d m len) = txQueue s ++ [some frame] := by
  obtain ⟨htx, -, hrun, -⟩ := h
  exact frameQueue_store htx hrun hd (by simp [ho, holder]) rfl hm rfl hframe.symm

/-- RECEIVE's recycling takes the oldest frame out of the queue (R130). -/
theorem rxQueue_recycle {d : Desc} (h : RingLaw s .rx) (hd : readDesc s .rx s.cur.rx = .ok d)
    (ho : d.own = .hostOwned) : rxQueue s = slotFrame s .rx s.cur.rx :: rxQueue (recycle s s.cur.rx d) :=
  frameQueue_give h hd ho (by simp [holder])

/-- A draw touches no ring. -/
theorem rxQueue_recycle_drawAlloc (s : State) (i : Nat) (d : Desc) :
    rxQueue (recycle (drawAlloc s).2 i d) = rxQueue (recycle s i d) :=
  rxQueue_congr (by simp) (by simp) (by simp) (by simp)

/-- A receive loop that answers a frame has taken it out of the queue, and before it the frames it discarded (R130). -/
theorem receiveLoop_some_queue {n : Nat} {v : Word} {frame : List Byte} (h : RingLaw s .rx)
    (hloop : receiveLoop n s = .ok (some (v, frame), t)) : ∃ k, (rxQueue s).drop k = some frame :: rxQueue t := by
  induction n generalizing s with
  | zero => simp [receiveLoop] at hloop
  | succ n ih =>
    obtain ⟨d, hd, hcases⟩ := receiveLoop_succ_cases hloop
    obtain ⟨-, hnone, -⟩ | ⟨ho, -, hloop⟩ | ⟨ho, -, -, hloop⟩ | ⟨ho, -, -, frame', hm, hsome, rfl⟩ := hcases
    · cases hnone
    · obtain ⟨k, hk⟩ := ih (s := discardErr s s.cur.rx d) (h.after_recycle h hd) hloop
      exact ⟨k + 1, by rw [rxQueue_recycle h hd ho]; exact hk⟩
    · have hdrawn : RingLaw (drawAlloc s).2 .rx := h.after_drawAlloc
      have hd' : readDesc (drawAlloc s).2 .rx s.cur.rx = .ok d := by simpa [readDesc] using hd
      obtain ⟨k, hk⟩ := ih (s := discardNobuf (drawAlloc s).2 s.cur.rx d) (hdrawn.after_recycle hdrawn hd') hloop
      exact ⟨k + 1, by rw [rxQueue_recycle h hd ho, ← rxQueue_recycle_drawAlloc]; exact hk⟩
    · cases hsome
      exact ⟨0, by rw [List.drop_zero, rxQueue_recycle_drawAlloc, rxQueue_recycle h hd ho, slotFrame_of_memRead hd hm]⟩

/-- A receive loop that ends with nothing available leaves the queue empty: the slot at the cursor holds no frame, and
the run begins there (R130, R36). -/
theorem receiveLoop_none_queue {n : Nat} (h : s.Invariant) (hp : s.phase ≠ .uninit)
    (hloop : receiveLoop n s = .ok (none, t)) : rxQueue t = [] := by
  have ht : t.phase ≠ .uninit := by rwa [(receiveLoop_frameLaw hloop).eq]
  obtain ⟨-, hrx, -, hrun, -⟩ := (receiveLoop_invariant h hp hloop).rings ht
  obtain ⟨d, hd, ho⟩ := receiveLoop_none hloop
  have hfirst : t.descs.rx[t.cur.rx]? = some d := readDesc_eq_ok.1 hd
  have hnone : ¬0 < countOwn t.descs.rx .hostOwned := by
    rw [← hrun.first_owned_iff (hrx.lt_card hd), hfirst]
    simp [ho]
  rw [rxQueue, Nat.eq_zero_of_not_pos hnone]
  rfl

end Operations

/-! ### The instructions -/

section Instructions

variable {s t : State}

/-- Only TX_DONE writes the wire (R170). -/
theorem exec_wireOut {i : Instr} (h : exec i s = .next t) (hi : i ≠ .txDone) : t.wireOut = s.wireOut := by
  obtain ⟨-, -, -, -, -, -, -, -, -, -, -, -, -, -, -, -, -, -, -, hwire, -⟩ :=
    onlyTheNamedInstructionsWriteEachField i s t h
  exact hwire hi

/-- The instructions of neither path keep both rings and the buffers. -/
theorem exec_keeps_rings {i : Instr} (h : exec i s = .next t) (hinit : i ≠ .init) (htransmit : ∀ l f, i ≠ .transmit l f)
    (hreceive : i ≠ .receive) (htxDone : i ≠ .txDone) (hrxFrame : ∀ l c o b, i ≠ .rxFrame l c o b) :
    t.cfg = s.cfg ∧ t.descs = s.descs ∧ t.mem = s.mem ∧ t.cur = s.cur ∧ t.ccur = s.ccur := by
  obtain ⟨⟨hcfg, -⟩, -, -, -, -, -, -, -, -, -, -, -, hcur, hccur, hdescs, hmem, -⟩ :=
    onlyTheNamedInstructionsWriteEachField i s t h
  exact ⟨hcfg, hdescs hinit htransmit hreceive htxDone hrxFrame, hmem htransmit hrxFrame,
    hcur hinit htransmit hreceive, hccur hinit htxDone hrxFrame⟩

/-- A RECEIVE at a ControllerOwned slot ends EMPTY and changes nothing else (R130). -/
theorem execReceive_of_controllerOwned {d : Desc} (hp : s.phase = .ready) (hd : readDesc s .rx s.cur.rx = .ok d)
    (ho : d.own = .controllerOwned) :
    execReceive s = .next (finish s (encodeWord .receive) .empty 0#32 []) := by
  simp [execReceive, hp, receiveResult, receiveFrom, receiveLoop_empty hd ho]

/-- TRANSMIT either ends with an error or BUSY, or hands its frame off and ends OK: beside `execTransmit_cases` this
says that no raised code is OK (R120). -/
theorem execTransmit_raise_or_handOff {len : Half} {frame : List Byte} (h : execTransmit len frame s = .next t) :
    (∃ code, code ≠ .ok ∧ t = raise s (encodeWord (.transmit len frame)) code) ∨
      ∃ d m, s.phase = .ready ∧ frame.length = len.toNat ∧ readDesc s .tx s.cur.tx = .ok d ∧ d.own = .hostOwned ∧
        memWrite s.cfg .tx s.cur.tx s.mem d.addr.toNat frame = .ok m ∧
        t = finish (handOff s s.cur.tx d m len) (encodeWord (.transmit len frame)) .ok
          (BitVec.ofNat 32 s.cur.tx) [] := by
  unfold execTransmit at h
  split at h
  · cases h; exact .inl ⟨.errNotInit, nofun, rfl⟩
  · cases h; exact .inl ⟨.errFatal, nofun, rfl⟩
  · rename_i hp
    split_ifs at h with hl
    · unfold transmitSlot at h
      split at h
      · cases h
      · rename_i d hd
        split at h
        · cases h; exact .inl ⟨.busy, nofun, rfl⟩
        · rename_i ho
          split at h
          · cases h
          · rename_i m hm
            cases h
            exact .inr ⟨d, m, hp, hl.1, hd, ho, hm, rfl⟩
    · cases h; exact .inl ⟨.errLen, nofun, rfl⟩

/-- A TRANSMIT that ends OK appends its frame to the Tx queue (R120, R67). -/
theorem txQueue_transmit_ok {len : Half} {frame : List Byte} (h : s.Invariant)
    (he : execTransmit len frame s = .next t) (hok : t.results.getLast?.map (fun e => e.result.code) = some .ok) :
    txQueue t = txQueue s ++ [some frame] := by
  obtain ⟨code, hcode, rfl⟩ | ⟨d, m, hp, hframe, hd, ho, hm, rfl⟩ := execTransmit_raise_or_handOff he
  · exact absurd (by simpa using hok) hcode
  · rw [txQueue_finish, txQueue_handOff (h.rings (by simp [hp])) hd ho hm hframe]

/-- A TRANSMIT that does not end OK leaves the Tx queue (R120). -/
theorem txQueue_transmit_not_ok {len : Half} {frame : List Byte} (he : execTransmit len frame s = .next t)
    (hok : t.results.getLast?.map (fun e => e.result.code) ≠ some .ok) : txQueue t = txQueue s := by
  obtain ⟨code, -, rfl⟩ | ⟨d, m, -, -, -, -, -, rfl⟩ := execTransmit_raise_or_handOff he
  · exact txQueue_raise _ _ _
  · simp at hok

/-- A TX_DONE that is taken moves the oldest frame of the Tx queue to the wire (R170, R67). -/
theorem txQueue_txDone (h : s.Invariant) (he : execTxDone s = .next t) :
    t = s ∨ ∃ frame, txQueue s = some frame :: txQueue t ∧ t.wireOut = s.wireOut ++ [frame] := by
  obtain rfl | ⟨d, frame, e, hp, -, -, hd, ho, hm, -, rfl⟩ := execTxDone_cases he
  · exact .inl rfl
  · refine .inr ⟨frame, ?_, rfl⟩
    rw [txQueue_txGiveBack ((h.rings (by simp [hp])).ring .tx) hd ho, slotFrame_of_memRead hd hm]
    rfl

/-- An RX_FRAME stores its frame in the other ring's arena, so the Tx queue is left (R171, R52). -/
theorem txQueue_rxFrame {len : Half} {crcErr otherErr : Bool} {bytes : List Byte}
    (he : execRxFrame len crcErr otherErr bytes s = .next t) : txQueue t = txQueue s := by
  obtain rfl | ⟨d, -, -, -, -, rfl⟩ | ⟨d, m, -, -, -, -, hm, rfl⟩ := execRxFrame_cases he
  · rfl
  · rfl
  · exact frameQueue_store_other hm nofun

theorem txQueue_receive (he : execReceive s = .next t) : txQueue t = txQueue s := by
  obtain ⟨code, -, rfl⟩ | ⟨u, -, hu, rfl⟩ | ⟨v, frame, u, -, hu, rfl⟩ := execReceive_cases he
  · exact txQueue_raise _ _ _
  · rw [txQueue_finish, (receiveFrom_frameLaw hu).txQueue_eq]
  · rw [txQueue_finish, (receiveFrom_frameLaw hu).txQueue_eq]

/-- A DRAIN_STEP leaves the Tx queue and the wire (R132). -/
theorem txQueue_drainStep {k : Nat} (hs : drainStep k s = .next t) :
    txQueue t = txQueue s ∧ t.wireOut = s.wireOut := by
  obtain ⟨-, rfl⟩ | ⟨u, -, hu, rfl⟩ | ⟨v, frame, u, -, hu, rfl⟩ := drainStep_cases hs
  · exact ⟨txQueue_finish _ _ _ _ _, finish_wireOut _ _ _ _ _⟩
  · have hframe := receiveFrom_frameLaw hu
    exact ⟨hframe.txQueue_eq, by rw [hframe.eq]; rfl⟩
  · have hframe := receiveFrom_frameLaw hu
    obtain ⟨hqueue, hwire⟩ := txQueue_deliver u k frame
    exact ⟨hqueue.trans hframe.txQueue_eq, hwire.trans (by rw [hframe.eq])⟩

/-- Every other instruction but INIT leaves the Tx queue. -/
theorem txQueue_of_other {i : Instr} (h : exec i s = .next t) (hinit : i ≠ .init) (htxDone : i ≠ .txDone)
    (htransmit : ∀ l f, i ≠ .transmit l f) : txQueue t = txQueue s := by
  by_cases hreceive : i = .receive
  · subst hreceive
    exact txQueue_receive h
  · by_cases hrxFrame : ∃ l c o b, i = .rxFrame l c o b
    · obtain ⟨l, c, o, b, rfl⟩ := hrxFrame
      exact txQueue_rxFrame h
    · obtain ⟨hcfg, hdescs, hmem, -, hccur⟩ :=
        exec_keeps_rings h hinit htransmit hreceive htxDone (by simpa using hrxFrame)
      exact txQueue_congr hcfg (by rw [hdescs]) hmem hccur

/-- Settles O54: TRANSMIT stores its frame in the slot after the run, TX_DONE gives the first slot back, and nothing
else writes a Tx descriptor, the controller cursor or a byte of the Tx arena. -/
theorem txRingIsAFifoQueue : Obligations.TxRingIsAFifoQueue := by
  intro s t h _
  exact ⟨fun len frame he hok => ⟨txQueue_transmit_ok h he hok, exec_wireOut he nofun⟩,
    fun len frame he hok => ⟨txQueue_transmit_not_ok he hok, exec_wireOut he nofun⟩,
    fun he => txQueue_txDone h he,
    fun i _ hinit htxDone htransmit he =>
      ⟨txQueue_of_other he hinit htxDone htransmit, exec_wireOut he htxDone⟩,
    fun k hs => txQueue_drainStep hs⟩

/-- An RX_FRAME that is stored appends its bytes as far as they fit to the Rx queue; one that is missed or ignored moves
neither the queue nor the cursor (R171, R67). -/
theorem rxQueue_rxFrame {len : Half} {crcErr otherErr : Bool} {bytes : List Byte} (h : s.Invariant)
    (hb : bytes.length = len.toNat) (he : execRxFrame len crcErr otherErr bytes s = .next t) :
    (t.ccur = s.ccur ∧ rxQueue t = rxQueue s) ∨ rxQueue t = rxQueue s ++ [some (bytes.take s.cfg.bufCap)] := by
  obtain rfl | ⟨d, -, -, -, -, rfl⟩ | ⟨d, m, hp, -, hd, ho, hm, rfl⟩ := execRxFrame_cases he
  · exact .inl ⟨rfl, rfl⟩
  · exact .inl ⟨rfl, rfl⟩
  · obtain ⟨-, hrx, -, hrun, -⟩ := h.rings (by simp [hp])
    have hlen : (BitVec.ofNat 16 (min len.toNat s.cfg.bufCap)).toNat = (storedBytes s.cfg len bytes).length := by
      rw [length_storedBytes hb, BitVec.toNat_ofNat, Nat.mod_eq_of_lt (by omega)]
    have hstored : storedBytes s.cfg len bytes = bytes.take s.cfg.bufCap := by
      rw [storedBytes, List.take_eq_take_iff, hb]
      omega
    rw [← hstored]
    exact .inr (frameQueue_store hrx hrun hd (by simp [ho, holder]) rfl hm rfl hlen)

/-- In READY a RECEIVE takes its frame out of the Rx queue after the discarded ones, or leaves it empty (R130). -/
theorem rxQueue_receive (h : s.Invariant) (hp : s.phase = .ready) (he : execReceive s = .next t) :
    (t.results.getLast?.map (fun e => e.result.code) = some .empty ∧ rxQueue t = []) ∨
      ∃ e n, t.results.getLast? = some e ∧ e.result.code = .frame ∧
        (rxQueue s).drop n = some e.result.payload :: rxQueue t := by
  have hne : s.phase ≠ .uninit := by simp [hp]
  obtain ⟨code, hready, -⟩ | ⟨u, -, hu, rfl⟩ | ⟨v, frame, u, -, hu, rfl⟩ := execReceive_cases he
  · exact absurd hp hready
  · exact .inl ⟨by simp, by rw [rxQueue_finish, receiveLoop_none_queue h hne hu]⟩
  · obtain ⟨k, hk⟩ := receiveLoop_some_queue ((h.rings hne).ring .rx) hu
    exact .inr ⟨⟨running u, encodeWord .receive, ⟨.frame, v, frame⟩⟩, k, by simp, rfl, by rw [hk, rxQueue_finish]⟩

/-- A TRANSMIT stores its frame in the other ring's arena, so the Rx queue is left (R120, R52). -/
theorem rxQueue_transmit {len : Half} {frame : List Byte} (he : execTransmit len frame s = .next t) :
    rxQueue t = rxQueue s := by
  obtain ⟨code, rfl⟩ | ⟨d, m, -, -, -, -, -, hm, rfl⟩ := execTransmit_cases he
  · exact rxQueue_raise _ _ _
  · rw [rxQueue_finish]
    exact frameQueue_store_other hm nofun

/-- TX_DONE writes no byte and only a Tx descriptor (R170). -/
theorem rxQueue_txDone (he : execTxDone s = .next t) : rxQueue t = rxQueue s := by
  obtain rfl | ⟨d, frame, e, -, -, -, -, -, -, -, rfl⟩ := execTxDone_cases he
  · rfl
  · exact rxQueue_congr rfl rfl rfl rfl

/-- Every other instruction but INIT leaves the Rx queue. -/
theorem rxQueue_of_other {i : Instr} (h : exec i s = .next t) (hinit : i ≠ .init) (hreceive : i ≠ .receive)
    (hrxFrame : ∀ l c o b, i ≠ .rxFrame l c o b) : rxQueue t = rxQueue s := by
  by_cases htxDone : i = .txDone
  · subst htxDone
    exact rxQueue_txDone h
  · by_cases htransmit : ∃ l f, i = .transmit l f
    · obtain ⟨l, f, rfl⟩ := htransmit
      exact rxQueue_transmit h
    · obtain ⟨hcfg, hdescs, hmem, hcur, -⟩ :=
        exec_keeps_rings h hinit (by simpa using htransmit) hreceive htxDone hrxFrame
      exact rxQueue_congr hcfg (by rw [hdescs]) hmem hcur

/-- Settles O55: RX_FRAME stores its bytes in the slot after the run, each pass of RECEIVE's loop gives the first slot
back, and nothing else writes an Rx descriptor, the host cursor or a byte of the Rx arena. -/
theorem rxRingIsAFifoQueue : Obligations.RxRingIsAFifoQueue := by
  intro s t h hp
  exact ⟨fun len crcErr otherErr bytes hb he => rxQueue_rxFrame h hb he, fun he => rxQueue_receive h hp he,
    fun i hinit hreceive hrxFrame he => rxQueue_of_other he hinit hreceive hrxFrame⟩

/-- Settles O29: the first RECEIVE has stopped at a ControllerOwned slot, where the next one stops at once. -/
theorem emptyReceiveIsIdempotent : Obligations.EmptyReceiveIsIdempotent := by
  intro s t hp he hempty
  obtain ⟨code, hready, -⟩ | ⟨u, -, hu, rfl⟩ | ⟨v, frame, u, -, -, rfl⟩ := execReceive_cases he
  · exact absurd hp hready
  · obtain ⟨d, hd, ho⟩ := receiveLoop_none hu
    have hready : (finish u (encodeWord .receive) .empty 0#32 []).phase = .ready := by
      rw [finish_phase, receiveFrom_phase hu, hp]
    exact execReceive_of_controllerOwned hready (by simpa [readDesc] using hd) ho
  · simp at hempty

end Instructions

end Sys2Proof.Machine
end

section
/-!
SUPPORT. The encoding: the fields of a word, what a word that matches a row decodes to, and the word a decoded instruction
comes from; then the obligations of the encoding tables (R70 to R76, R83, R84) and the end of a command (R77).
-/

namespace Sys2Proof

open Machine Laws

/-! ### The fields of a word -/

/-- A bit is a field of width 1. -/
theorem ofBool_getLsbD (w : Word) (k : Nat) : BitVec.ofBool (w.getLsbD k) = w.extractLsb' k 1 := by
  rw [BitVec.getLsbD_eq_extractLsb']
  generalize w.extractLsb' k 1 = b
  revert b
  decide

/-- A 16-bit operand is the ARG of its word (R71). -/
theorem wordArg_append (p x : Half) : wordArg (p ++ x) = x := BitVec.extractLsb'_append_eq_right

/-- A word that matches a row has the row's value in every field that the row's mask covers (R84). -/
theorem field_of_match {w mask m : Word} (h : w &&& mask = m) {k n : Nat} {v : BitVec n}
    (hfield : mask.extractLsb' k n = BitVec.allOnes n ∧ m.extractLsb' k n = v) : w.extractLsb' k n = v := by
  obtain ⟨hmask, hv⟩ := hfield
  rw [← hv, ← h, BitVec.extractLsb'_and, hmask, BitVec.and_allOnes]

/-! ### What a word that matches a row decodes to -/

section Match

variable {w : Word}

theorem decode_of_match_ifUp (h : w &&& 0xFFFF0000#32 = 0x20000000#32) (payload : List Byte) :
    decode .host w payload = .ok (.ifUp (wordArg w) payload) := by
  have hcode : wordCode w = 2#4 := field_of_match h (by decide)
  have hmid : w.extractLsb' 16 12 = 0#12 := field_of_match h (by decide)
  simp [decode, decodeHost, hcode, hmid]

theorem decode_of_match_transmit (h : w &&& 0xFFFF0000#32 = 0x30000000#32) (frame : List Byte) :
    decode .host w frame = .ok (.transmit (wordArg w) frame) := by
  have hcode : wordCode w = 3#4 := field_of_match h (by decide)
  have hmid : w.extractLsb' 16 12 = 0#12 := field_of_match h (by decide)
  simp [decode, decodeHost, hcode, hmid]

theorem decode_of_match_irqMask (h : w &&& 0xFFFFFFFC#32 = 0xB0000000#32) :
    decode .host w [] = .ok (.irqMask (w.getLsbD 0) (w.getLsbD 1)) := by
  have hcode : wordCode w = 11#4 := field_of_match h (by decide)
  have hmid : w.extractLsb' 16 12 = 0#12 := field_of_match h (by decide)
  have harg : w.extractLsb' 2 14 = 0#14 := field_of_match h (by decide)
  simp [decode, decodeHost, decodeIrqMask, withoutPayload, hcode, hmid, harg]

theorem decode_of_match_eoi (h : w &&& 0xFFFFFFFE#32 = 0xC0000000#32) :
    decode .host w [] = .ok (.eoi (if w.getLsbD 0 then .rxr else .txc)) := by
  have hcode : wordCode w = 12#4 := field_of_match h (by decide)
  have hmid : w.extractLsb' 16 12 = 0#12 := field_of_match h (by decide)
  have harg : w.extractLsb' 1 15 = 0#15 := field_of_match h (by decide)
  simp [decode, decodeHost, decodeEoi, withoutPayload, hcode, hmid, harg]

theorem decode_of_match_getCounters (h : w &&& 0xFFFFFFFC#32 = 0xD0000000#32) :
    decode .host w [] = .ok (.getCounters (counterOfSel (w.getLsbD 1) (w.getLsbD 0))) := by
  have hcode : wordCode w = 13#4 := field_of_match h (by decide)
  have hmid : w.extractLsb' 16 12 = 0#12 := field_of_match h (by decide)
  have harg : w.extractLsb' 2 14 = 0#14 := field_of_match h (by decide)
  simp [decode, decodeHost, decodeGetCounters, withoutPayload, hcode, hmid, harg]

theorem decode_of_match_getDesc (h : w &&& 0xFFFF7F00#32 = 0xE0000000#32) :
    decode .host w [] = .ok (.getDesc (if w.getLsbD 15 then .rx else .tx) (w.extractLsb' 0 8)) := by
  have hcode : wordCode w = 14#4 := field_of_match h (by decide)
  have hmid : w.extractLsb' 16 12 = 0#12 := field_of_match h (by decide)
  have harg : w.extractLsb' 8 7 = 0#7 := field_of_match h (by decide)
  simp [decode, decodeHost, decodeGetDesc, withoutPayload, hcode, hmid, harg]

theorem decode_of_match_rxFrame (h : w &&& 0xFFFC0000#32 = 0x20000000#32) {bytes : List Byte}
    (hlen : bytes.length = (wordArg w).toNat) :
    decode .controller w bytes = .ok (.rxFrame (wordArg w) (w.getLsbD 16) (w.getLsbD 17) bytes) := by
  have hcode : wordCode w = 2#4 := field_of_match h (by decide)
  have hzero : w.extractLsb' 18 10 = 0#10 := field_of_match h (by decide)
  simp [decode, decodeController, decodeRxFrame, hcode, hzero, hlen]

theorem decode_of_match_phyLink (h : w &&& 0xFFFFFFFE#32 = 0x40000000#32) :
    decode .controller w [] = .ok (.phyLink (w.getLsbD 0)) := by
  have hcode : wordCode w = 4#4 := field_of_match h (by decide)
  have hzero : w.extractLsb' 1 27 = 0#27 := field_of_match h (by decide)
  simp [decode, decodeController, decodePhyLink, withoutPayload, hcode, hzero]

/-- A row whose mask is all ones has one word. -/
theorem eq_of_match {m : Word} (h : w &&& 0xFFFFFFFF#32 = m) : w = m := by
  rwa [show 0xFFFFFFFF#32 = BitVec.allOnes 32 by decide, BitVec.and_allOnes] at h

/-- A word that matches a row, with a payload the row allows, decodes to an instruction of that row (R84). -/
theorem decode_of_match {row : Instr} {payload : List Byte} (h : w &&& (tableRow row).2 = (tableRow row).1)
    (hp : payloadAllowed row w payload) : ∃ i, decode row.port w payload = .ok i ∧ tableRow i = tableRow row := by
  cases row with
  | ifUp => exact ⟨_, decode_of_match_ifUp h payload, rfl⟩
  | transmit => exact ⟨_, decode_of_match_transmit h payload, rfl⟩
  | rxFrame => exact ⟨_, decode_of_match_rxFrame h hp, rfl⟩
  | irqMask => cases hp; exact ⟨_, decode_of_match_irqMask h, rfl⟩
  | eoi => cases hp; exact ⟨_, decode_of_match_eoi h, rfl⟩
  | getCounters => cases hp; exact ⟨_, decode_of_match_getCounters h, rfl⟩
  | getDesc => cases hp; exact ⟨_, decode_of_match_getDesc h, rfl⟩
  | phyLink => cases hp; exact ⟨_, decode_of_match_phyLink h, rfl⟩
  | init | receive | drain | ackRx | ackTx | linkPoll | getStatus | getIfinfo | txDone | rxBerr =>
    cases hp; cases eq_of_match h; exact ⟨_, rfl, rfl⟩

end Match

/-! ### Decoding what the encoder gives -/

/-- The word of an instruction matches its row, and its operation code is the row's (R72, R75, R84). -/
theorem encodeWord_matches (i : Instr) : TableMatch.Statement i := by
  cases i with
  | init => exact TableMatch.init
  | ifUp mtu payload => exact TableMatch.ifUp mtu payload
  | transmit len frame => exact TableMatch.transmit len frame
  | receive => exact TableMatch.receive
  | drain => exact TableMatch.drain
  | ackRx => exact TableMatch.ackRx
  | ackTx => exact TableMatch.ackTx
  | linkPoll => exact TableMatch.linkPoll
  | getStatus => exact TableMatch.getStatus
  | getIfinfo => exact TableMatch.getIfinfo
  | irqMask tx rx => exact TableMatch.irqMask tx rx
  | eoi src => exact TableMatch.eoi src
  | getCounters sel => exact TableMatch.getCounters sel
  | getDesc ring idx => exact TableMatch.getDesc ring idx
  | txDone => exact TableMatch.txDone
  | rxFrame len crcErr otherErr bytes => exact TableMatch.rxFrame len crcErr otherErr bytes
  | rxBerr => exact TableMatch.rxBerr
  | phyLink v => exact TableMatch.phyLink v

theorem decode_encodeWord_getDesc (ring : Ring) (idx : Byte) :
    decode .host (encodeWord (.getDesc ring idx)) [] = .ok (.getDesc ring idx) := by
  have hring : (encodeWord (.getDesc ring idx)).getLsbD 15 = decide (ring = .rx) := by
    simp only [encodeWord, BitVec.getLsbD_append]
    cases ring <;> rfl
  have hidx : (encodeWord (.getDesc ring idx)).extractLsb' 0 8 = idx := BitVec.extractLsb'_append_eq_right
  rw [decode_of_match_getDesc (TableMatch.getDesc ring idx).1, hring, hidx]
  cases ring <;> rfl

theorem decode_encodeWord_rxFrame (len : Half) (crcErr otherErr : Bool) {bytes : List Byte}
    (h : bytes.length = len.toNat) : decode .controller (encodeWord (.rxFrame len crcErr otherErr bytes)) bytes =
      .ok (.rxFrame len crcErr otherErr bytes) := by
  have hlen : wordArg (encodeWord (.rxFrame len crcErr otherErr bytes)) = len := wordArg_append _ len
  have hcrc : (encodeWord (.rxFrame len crcErr otherErr bytes)).getLsbD 16 = crcErr := by
    simp only [encodeWord, BitVec.getLsbD_append]
    cases crcErr <;> rfl
  have hother : (encodeWord (.rxFrame len crcErr otherErr bytes)).getLsbD 17 = otherErr := by
    simp only [encodeWord, BitVec.getLsbD_append]
    cases otherErr <;> rfl
  rw [decode_of_match_rxFrame (TableMatch.rxFrame len crcErr otherErr bytes).1 (h.trans (congrArg _ hlen.symm)),
    hlen, hcrc, hother]

/-- Settles O2: the word matches its row, so a form with a wide operand decodes to the operands in its fields; every other
form has few words. -/
theorem decodeOfEncode : Obligations.DecodeOfEncode := by
  intro i hi
  cases i with
  | ifUp mtu payload =>
    exact (decode_of_match_ifUp (TableMatch.ifUp mtu payload).1 payload).trans (by rw [encodeWord, wordArg_append])
  | transmit len frame =>
    exact (decode_of_match_transmit (TableMatch.transmit len frame).1 frame).trans (by rw [encodeWord, wordArg_append])
  | getDesc ring idx => exact decode_encodeWord_getDesc ring idx
  | rxFrame len crcErr otherErr bytes =>
    exact decode_encodeWord_rxFrame len crcErr otherErr (by simpa [Instr.wellFormed] using hi)
  | irqMask tx rx => revert tx rx; decide
  | eoi src => cases src <;> decide
  | getCounters sel => cases sel <;> decide
  | phyLink v => revert v; decide
  | init | receive | drain | ackRx | ackTx | linkPoll | getStatus | getIfinfo | txDone | rxBerr => decide

/-! ### What a form with must-be-zero bits and no payload answers -/

section Guarded

variable {c : Prop} [Decidable c] {i j : Instr} {payload : List Byte}

/-- Such a form decodes to one instruction, where the bits are zero and no payload comes with them (R73, R76, R83). -/
theorem guarded_eq_ok :
    (if c then withoutPayload i payload else .error .reservedBit) = .ok j ↔ c ∧ payload = [] ∧ i = j := by
  unfold withoutPayload
  split_ifs <;> simp [*]

/-- Such a form is rejected with a payload or where a bit is one (R74, R76). -/
theorem guarded_eq_error :
    (∃ e, (if c then withoutPayload i payload else .error .reservedBit) = .error e) ↔ payload ≠ [] ∨ ¬c := by
  unfold withoutPayload
  split_ifs <;> simp [*]

end Guarded

/-! ### The word a decoded instruction comes from

The word is put together again from its fields: the operation code, the bits the decoder found to be zero, the operands. -/

/-- The instruction has this port, this word and this payload. -/
def Instr.Encodes (i : Instr) (port : Port) (w : Word) (payload : List Byte) : Prop :=
  i.port = port ∧ encodeWord i = w ∧ i.payload = payload

theorem encodeWord_irqMask (tx rx : Bool) :
    encodeWord (.irqMask tx rx) = 0xB#4 ++ 0#12 ++ 0#14 ++ BitVec.ofBool rx ++ BitVec.ofBool tx := rfl

theorem encodeWord_eoi (b : Bool) :
    encodeWord (.eoi (if b then .rxr else .txc)) = 0xC#4 ++ 0#12 ++ 0#15 ++ BitVec.ofBool b := by
  cases b <;> rfl

theorem encodeWord_getCounters (bit1 bit0 : Bool) : encodeWord (.getCounters (counterOfSel bit1 bit0)) =
    0xD#4 ++ 0#12 ++ 0#14 ++ BitVec.ofBool bit1 ++ BitVec.ofBool bit0 := by
  cases bit1 <;> cases bit0 <;> rfl

theorem encodeWord_getDesc (b : Bool) (idx : Byte) :
    encodeWord (.getDesc (if b then .rx else .tx) idx) = 0xE#4 ++ 0#12 ++ BitVec.ofBool b ++ 0#7 ++ idx := by
  cases b <;> rfl

section Fields

variable {w : Word} {payload : List Byte} {i j : Instr}

/-- The operation code with the number that a decoder's match names. -/
theorem wordCode_eq {c : Nat} (h : (wordCode w).toNat = c) : wordCode w = BitVec.ofNat 4 c := by
  rw [← h, BitVec.ofNat_toNat, BitVec.setWidth_eq]

/-- Two adjacent fields are one field. -/
theorem join_fields {k l m n : Nat} (h : l = k + m) :
    w.extractLsb' l n ++ w.extractLsb' k m = w.extractLsb' k (n + m) :=
  BitVec.extractLsb'_append_extractLsb'_eq_extractLsb' h

/-- The fields of a word with a 16-bit operand (R70, R71). -/
theorem hostFields (w : Word) : wordCode w ++ w.extractLsb' 16 12 ++ wordArg w = w := by
  rw [wordCode, wordArg, join_fields (by rfl), join_fields (by rfl)]
  exact BitVec.extractLsb'_eq_self

/-- The fields of a word with two one-bit operands (R73). -/
theorem twoBitFields (w : Word) :
    wordCode w ++ w.extractLsb' 16 12 ++ w.extractLsb' 2 14 ++ w.extractLsb' 1 1 ++ w.extractLsb' 0 1 = w := by
  rw [wordCode, join_fields (by rfl), join_fields (by rfl), join_fields (by rfl), join_fields (by rfl)]
  exact BitVec.extractLsb'_eq_self

theorem encodes_of_decodePlain {c : Nat} (hj : j.Encodes .host (BitVec.ofNat 4 c ++ 0#12 ++ 0#16) [])
    (hmid : w.extractLsb' 16 12 = 0#12) (hcode : (wordCode w).toNat = c) (h : decodePlain j w payload = .ok i) :
    i.Encodes .host w payload := by
  obtain ⟨harg, rfl, rfl⟩ := guarded_eq_ok.1 h
  rwa [← wordCode_eq hcode, ← hmid, ← harg, hostFields] at hj

theorem encodes_of_decodeIrqMask (hmid : w.extractLsb' 16 12 = 0#12) (hcode : (wordCode w).toNat = 11)
    (h : decodeIrqMask w payload = .ok i) : i.Encodes .host w payload := by
  obtain ⟨harg, rfl, rfl⟩ := guarded_eq_ok.1 h
  refine ⟨rfl, ?_, rfl⟩
  rw [encodeWord_irqMask, ofBool_getLsbD, ofBool_getLsbD, ← wordCode_eq hcode, ← hmid, ← harg, twoBitFields]

theorem encodes_of_decodeEoi (hmid : w.extractLsb' 16 12 = 0#12) (hcode : (wordCode w).toNat = 12)
    (h : decodeEoi w payload = .ok i) : i.Encodes .host w payload := by
  obtain ⟨harg, rfl, rfl⟩ := guarded_eq_ok.1 h
  refine ⟨rfl, ?_, rfl⟩
  rw [encodeWord_eoi, ofBool_getLsbD, ← wordCode_eq hcode, ← hmid, ← harg, wordCode,
    join_fields (by rfl), join_fields (by rfl), join_fields (by rfl)]
  exact BitVec.extractLsb'_eq_self

theorem encodes_of_decodeGetCounters (hmid : w.extractLsb' 16 12 = 0#12) (hcode : (wordCode w).toNat = 13)
    (h : decodeGetCounters w payload = .ok i) : i.Encodes .host w payload := by
  obtain ⟨harg, rfl, rfl⟩ := guarded_eq_ok.1 h
  refine ⟨rfl, ?_, rfl⟩
  rw [encodeWord_getCounters, ofBool_getLsbD, ofBool_getLsbD, ← wordCode_eq hcode, ← hmid, ← harg, twoBitFields]

theorem encodes_of_decodeGetDesc (hmid : w.extractLsb' 16 12 = 0#12) (hcode : (wordCode w).toNat = 14)
    (h : decodeGetDesc w payload = .ok i) : i.Encodes .host w payload := by
  obtain ⟨harg, rfl, rfl⟩ := guarded_eq_ok.1 h
  refine ⟨rfl, ?_, rfl⟩
  rw [encodeWord_getDesc, ofBool_getLsbD, ← wordCode_eq hcode, ← hmid, ← harg, wordCode,
    join_fields (by rfl), join_fields (by rfl), join_fields (by rfl), join_fields (by rfl)]
  exact BitVec.extractLsb'_eq_self

theorem encodes_of_decodeHost (h : decodeHost w payload = .ok i) : i.Encodes .host w payload := by
  unfold decodeHost at h
  split at h
  · cases h
  · rename_i hmid
    replace hmid := not_not.1 hmid
    split at h <;> rename_i hcode
    case h_2 | h_3 =>
      cases h
      refine ⟨rfl, Eq.trans ?_ (hostFields w), rfl⟩
      rw [hmid, wordCode_eq hcode]
      rfl
    case h_11 => exact encodes_of_decodeIrqMask hmid hcode h
    case h_12 => exact encodes_of_decodeEoi hmid hcode h
    case h_13 => exact encodes_of_decodeGetCounters hmid hcode h
    case h_14 => exact encodes_of_decodeGetDesc hmid hcode h
    case h_15 => cases h
    all_goals exact encodes_of_decodePlain ⟨rfl, rfl, rfl⟩ hmid hcode h

theorem encodes_of_decodeBareEvent {c : Nat} (hj : j.Encodes .controller (BitVec.ofNat 4 c ++ 0#28) [])
    (hcode : (wordCode w).toNat = c) (h : decodeBareEvent j w payload = .ok i) : i.Encodes .controller w payload := by
  obtain ⟨hzero, rfl, rfl⟩ := guarded_eq_ok.1 h
  rw [← wordCode_eq hcode, ← hzero, wordCode, join_fields (by rfl)] at hj
  rwa [BitVec.extractLsb'_eq_self] at hj

theorem encodes_of_decodeRxFrame (hcode : (wordCode w).toNat = 2) (h : decodeRxFrame w payload = .ok i) :
    i.Encodes .controller w payload := by
  unfold decodeRxFrame at h
  split_ifs at h with hzero
  cases h
  refine ⟨rfl, ?_, rfl⟩
  calc encodeWord (.rxFrame (wordArg w) (w.getLsbD 16) (w.getLsbD 17) payload)
      = 2#4 ++ 0#10 ++ BitVec.ofBool (w.getLsbD 17) ++ BitVec.ofBool (w.getLsbD 16) ++ wordArg w := rfl
    _ = w := by
      rw [ofBool_getLsbD, ofBool_getLsbD, ← wordCode_eq hcode, ← hzero, wordCode, wordArg,
        join_fields (by rfl), join_fields (by rfl), join_fields (by rfl), join_fields (by rfl)]
      exact BitVec.extractLsb'_eq_self

theorem encodes_of_decodePhyLink (hcode : (wordCode w).toNat = 4) (h : decodePhyLink w payload = .ok i) :
    i.Encodes .controller w payload := by
  obtain ⟨hzero, rfl, rfl⟩ := guarded_eq_ok.1 h
  refine ⟨rfl, ?_, rfl⟩
  calc encodeWord (.phyLink (w.getLsbD 0)) = 4#4 ++ 0#27 ++ BitVec.ofBool (w.getLsbD 0) := rfl
    _ = w := by
      rw [ofBool_getLsbD, ← wordCode_eq hcode, ← hzero, wordCode, join_fields (by rfl), join_fields (by rfl)]
      exact BitVec.extractLsb'_eq_self

theorem encodes_of_decodeController (h : decodeController w payload = .ok i) : i.Encodes .controller w payload := by
  unfold decodeController at h
  split at h <;> rename_i hcode
  case h_1 | h_3 => exact encodes_of_decodeBareEvent ⟨rfl, rfl, rfl⟩ hcode h
  case h_2 => exact encodes_of_decodeRxFrame hcode h
  case h_4 => exact encodes_of_decodePhyLink hcode h
  case h_5 => cases h

theorem encodes_of_decode {port : Port} (h : decode port w payload = .ok i) : i.Encodes port w payload := by
  cases port with
  | host => exact encodes_of_decodeHost h
  | controller => exact encodes_of_decodeController h

end Fields

/-- Settles O3: a decoder reads its operands from the fields of the word and checks all other bits. -/
theorem encodeOfDecode : Obligations.EncodeOfDecode := by
  intro port w payload i h
  obtain ⟨hport, hword, hpayload⟩ := encodes_of_decode h
  exact ⟨hport, wellFormed_of_decode h, hword, hpayload⟩

/-! ### The rows of a format -/

/-- The rows of the opcode table of one format, each once (R72, R75). -/
def tableRows : Port → List (Word × Word)
  | .host => [tableRow .init, tableRow (.ifUp 0#16 []), tableRow (.transmit 0#16 []), tableRow .receive, tableRow .drain,
      tableRow .ackRx, tableRow .ackTx, tableRow .linkPoll, tableRow .getStatus, tableRow .getIfinfo,
      tableRow (.irqMask false false), tableRow (.eoi .txc), tableRow (.getCounters .err), tableRow (.getDesc .tx 0#8)]
  | .controller => [tableRow .txDone, tableRow (.rxFrame 0#16 false false []), tableRow .rxBerr, tableRow (.phyLink false)]

theorem tableRow_mem (i : Instr) : tableRow i ∈ tableRows i.port := by
  cases i <;> simp [tableRows, tableRow, Instr.port]

/-- Every row's mask covers the operation code. -/
theorem tableRow_mask (i : Instr) : (tableRow i).2.extractLsb' 28 4 = BitVec.allOnes 4 := by
  cases i <;> simp only [tableRow] <;> decide

/-- The rows of a format have different operation codes (R84). -/
theorem tableRows_code_nodup (port : Port) : ((tableRows port).map fun row => wordCode row.1).Nodup := by
  cases port <;> decide

/-- A word matches at most one row of a format (R84). -/
theorem tableRow_eq_of_match {w : Word} {row i : Instr} (hport : row.port = i.port)
    (hrow : w &&& (tableRow row).2 = (tableRow row).1) (hi : w &&& (tableRow i).2 = (tableRow i).1) :
    tableRow row = tableRow i := by
  have code (j : Instr) (h : w &&& (tableRow j).2 = (tableRow j).1) : wordCode w = wordCode (tableRow j).1 :=
    field_of_match h ⟨tableRow_mask j, rfl⟩
  exact List.inj_on_of_nodup_map (tableRows_code_nodup i.port) (hport ▸ tableRow_mem row) (tableRow_mem i)
    ((code row hrow).symm.trans (code i hi))

/-- Settles O4: what decodes is the word of its instruction, which matches its own row and so no other row; and a word that
matches a row decodes to it. -/
theorem wordsDecodeToTheRowTheyMatch : Obligations.WordsDecodeToTheRowTheyMatch := by
  refine ⟨fun port w payload i h => ?_, fun row w payload => decode_of_match⟩
  obtain ⟨rfl, rfl, -⟩ := encodes_of_decode h
  have hi := (encodeWord_matches i).1
  exact ⟨hi, fun row hport hrow => tableRow_eq_of_match hport hrow hi⟩

/-! ### The words that a port rejects -/

/-- The host port rejects exactly the illegal words (R74). -/
theorem illegalHost_iff (w : Word) (payload : List Byte) :
    illegalHost w payload ↔ ∃ e, decode .host w payload = .error e := by
  rw [decode, decodeHost]
  split_ifs with hmid
  · simp [illegalHost, hmid]
  · replace hmid := not_not.1 hmid
    split <;> rename_i hcode
    case h_15 =>
      -- the match's default: the code is none of 1 to 14
      have hlt := (wordCode w).isLt
      have hcode : (wordCode w).toNat = 0 ∨ (wordCode w).toNat = 15 := by grind
      exact iff_of_true (hcode.imp wordCode_eq fun h => .inl (wordCode_eq h)) ⟨_, rfl⟩
    all_goals replace hcode : w.extractLsb' 28 4 = _ := wordCode_eq hcode
    -- IF_UP and TRANSMIT take any ARG and any payload
    case h_2 | h_3 => simp [illegalHost, hcode, hmid]
    all_goals exact Iff.trans (by simp [illegalHost, hcode, hmid, wordArg]) guarded_eq_error.symm

/-- The controller port rejects exactly the illegal words (R76). -/
theorem illegalController_iff (w : Word) (payload : List Byte) :
    illegalController w payload ↔ ∃ e, decode .controller w payload = .error e := by
  rw [decode, decodeController]
  split <;> rename_i hcode
  case h_5 =>
    have hcode : (wordCode w).toNat = 0 ∨ 5 ≤ (wordCode w).toNat := by grind
    exact iff_of_true (hcode.imp wordCode_eq .inl) ⟨_, rfl⟩
  all_goals replace hcode : w.extractLsb' 28 4 = _ := wordCode_eq hcode
  case h_2 =>
    unfold decodeRxFrame
    split_ifs <;> simp_all [illegalController, wordArg]
  all_goals exact Iff.trans (by simp [illegalController, hcode, or_comm]) guarded_eq_error.symm

namespace Machine

/-! ### The end of a command -/

/-- Settles O17: only the index of the running context advances. -/
theorem completedCommandRecordsItsResult : Obligations.CompletedCommandRecordsItsResult := by
  intro s w code v p
  unfold finish
  cases running s <;> rfl

/-! ### Illegal words as steps -/

theorem step_of_illegalHost {s : State} {rest : List Agent} {w : Word} {payload : List Byte} (hok : s.cfg.Ok)
    (hsched : s.sched = .host :: rest) (hrun : running s = .mainline) (hdrain : s.drain.mainline = .idle)
    (hcmd : s.prog[s.pc]? = some ⟨w, payload⟩) (hw : illegalHost w payload) :
    step s = .next (raise { s with sched := rest } w .errIllegal) := by
  obtain ⟨e, he⟩ := (illegalHost_iff w payload).1 hw
  have ha : hostAction { s with sched := rest } = .illegal w := by
    change running { s with sched := rest } = .mainline at hrun
    simp [hostAction, hrun, PerCtx.get, hdrain, fetch, hcmd, commandAction, he]
  calc step s = perform (hostAction { s with sched := rest }) { s with sched := rest } := step_of_sched hok hsched
    _ = .next (raise { s with sched := rest } w .errIllegal) := by rw [ha]; rfl

/-- Settles O6: the decoder's checks are R74's, and a rejected command ends with `raise`. -/
theorem illegalHostWordGivesErrIllegal : Obligations.IllegalHostWordGivesErrIllegal := by
  refine ⟨illegalHost_iff, fun s rest w payload hok hsched hrun hdrain hcmd hw => ?_⟩
  change running { s with sched := rest } = .mainline at hrun
  rw [step_of_illegalHost hok hsched hrun hdrain hcmd hw, raise, completedCommandRecordsItsResult, hrun]
  rfl

/-- Settles O7: the decoder's checks are R76's, and a rejected word is the idle action. -/
theorem illegalControllerWordIsIgnored : Obligations.IllegalControllerWordIsIgnored := by
  refine ⟨illegalController_iff, fun s rest w payload hok hsched hw => ?_⟩
  obtain ⟨e, he⟩ := (illegalController_iff w payload).1 hw
  calc step s = perform (controllerAction w payload) { s with sched := rest } := step_of_sched hok hsched
    _ = .next { s with sched := rest } := by rw [controllerAction, he]; rfl

end Machine

/-! ### Sample words -/

/-- Settles O1, by running the decoders. -/
theorem sampleWordsDecode : Obligations.SampleWordsDecode := by
  unfold Obligations.SampleWordsDecode
  decide

end Sys2Proof
end

section
/-!
SUPPORT. The ring manager (40_ring_manager.md): what INIT writes and what the rings do right after it, the cursor step
round a ring, the length and MTU validators, and the receive classifier.
-/

namespace Sys2Proof.Machine

/-! ### INIT -/

section Init

variable {s : State}

theorem exec_init_of_pool_lt (h : s.cfg.poolBytes < (s.cfg.nTx + s.cfg.nRx) * s.cfg.bufCap) :
    exec .init s = .next (raise s (encodeWord .init) .errInitFail) := if_pos h

theorem exec_init_of_le_pool (h : (s.cfg.nTx + s.cfg.nRx) * s.cfg.bufCap ≤ s.cfg.poolBytes) :
    exec .init s = .next (finish (initState s) (encodeWord .init) .ok 0#32 []) := if_neg (Nat.not_lt.2 h)

/-- Settles O18: the two branches of the pool test; what the second one writes is `initState`, field by field. -/
theorem initInitialisesTheRings : Obligations.InitInitialisesTheRings :=
  fun _ => ⟨exec_init_of_pool_lt, exec_init_of_le_pool⟩

end Init

/-! ### The rings right after INIT -/

section AfterInit

variable {s : State}

/-- Recording a result writes no ring. -/
theorem RingsLaw.after_finish (h : RingsLaw s) (w : Word) (code : ResultCode) (v : Word) (p : List Byte) :
    RingsLaw (finish s w code v p) := by
  unfold finish
  cases running s <;> exact h

@[simp] theorem readDesc_finish (s : State) (w : Word) (code : ResultCode) (v : Word) (p : List Byte) (r : Ring)
    (i : Nat) : readDesc (finish s w code v p) r i = readDesc s r i := by
  rw [readDesc, finish_descs, readDesc]

/-- After INIT the host cursor of each ring is at slot 0, as INIT wrote it (R100). -/
theorem readDesc_cur_initState {r : Ring} (h : 0 < s.cfg.card r) :
    readDesc (initState s) r ((initState s).cur.get r) = .ok (initDesc s.cfg r 0) := by
  have hslot : (initRing s.cfg r)[0]? = some (initDesc s.cfg r 0) := (initRing_getElem? _ _ _).trans (if_pos h)
  rw [readDesc_eq_ok]
  cases r <;> exact hslot

/-- In READY a TRANSMIT of a length that passes the validator ends OK where the slot at the host cursor is the host's:
its buffer takes the frame (R120, R53). -/
theorem execTransmit_of_hostOwned {len : Half} {frame : List Byte} {d : Desc} (hok : s.cfg.Ok) (htx : RingLaw s .tx)
    (hp : s.phase = .ready) (hframe : frame.length = len.toNat) (hlen : txLenOk s.cfg s.mtu len = true)
    (hd : readDesc s .tx s.cur.tx = .ok d) (ho : d.own = .hostOwned) :
    ∃ m, execTransmit len frame s = .next (finish (handOff s s.cur.tx d m len) (encodeWord (.transmit len frame)) .ok
      (BitVec.ofNat 32 s.cur.tx) []) := by
  obtain ⟨m, hm⟩ := htx.memWrite_ok hok hd (bytes := frame) (hframe ▸ txLenOk_le_bufCap hlen)
  exact ⟨m, by simp [execTransmit, hp, hframe, hlen, transmitSlot, hd, ho, hm]⟩

/-- Settles O19: both rings are empty runs, and the slot at the host cursor is the host's in the Tx ring and the
controller's in the Rx ring. -/
theorem ringLawsAfterInit : Obligations.RingLawsAfterInit := by
  intro s t hok hpool he
  obtain rfl : finish (initState s) (encodeWord .init) .ok 0#32 [] = t := by
    simpa [exec_init_of_le_pool hpool] using he
  obtain ⟨htx, -, htxRun, hrxRun, -⟩ := (ringsLaw_initState hok).after_finish (encodeWord .init) .ok 0#32 []
  have hslotTx := readDesc_cur_initState (hok.card_pos .tx)
  have hslotRx := readDesc_cur_initState (hok.card_pos .rx)
  refine ⟨htxRun, ?_, hrxRun, ?_, fun len frame hframe hlen => ?_, ?_⟩
  · rw [finish_descs]
    exact countOwn_initRing s.cfg .tx
  · rw [finish_descs]
    exact countOwn_initRing s.cfg .rx
  · obtain ⟨m, hm⟩ := execTransmit_of_hostOwned (by rwa [finish_cfg]) htx (finish_phase _ _ _ _ _) hframe hlen
      (by rwa [readDesc_finish, finish_cur]) rfl
    exact ⟨_, hm, by simp⟩
  · exact execReceive_of_controllerOwned (finish_phase _ _ _ _ _) (by rwa [readDesc_finish, finish_cur]) rfl

end AfterInit

/-! ### The cursor step -/

/-- `n` cursor steps move the cursor by `n` slots round the ring (R101). -/
theorem advance_iterate {p : Params} {r : Ring} {c : Nat} (hc : c < p.card r) (n : Nat) :
    (advance p r)^[n] c = (c + n) % p.card r := by
  induction n with
  | zero => exact (Nat.mod_eq_of_lt hc).symm
  | succ n ih => rw [Function.iterate_succ_apply', ih, advance, Nat.mod_add_mod, Nat.add_assoc]

/-- The cursor step wraps at the end of the ring (R101). -/
theorem advance_last {p : Params} {r : Ring} (h : 0 < p.card r) : advance p r (p.card r - 1) = 0 := by
  rw [advance, Nat.sub_add_cancel h, Nat.mod_self]

/-- Settles O20: `N_r` steps add `N_r`, which is nothing modulo `N_r`. -/
theorem advanceGoesRoundTheRing : Obligations.AdvanceGoesRoundTheRing := by
  intro p r c hc
  have hpos : 0 < p.card r := Nat.zero_lt_of_lt hc
  refine ⟨rfl, advance_lt c hpos, advance_last hpos, ?_⟩
  rw [advance_iterate hc, Nat.add_mod_right, Nat.mod_eq_of_lt hc]

/-! ### The validators -/

theorem txLenOk_iff {p : Params} {mtu len : Half} :
    txLenOk p mtu len = true ↔ 1 ≤ len.toNat ∧ len.toNat ≤ txMax p mtu := decide_eq_true_iff

theorem mtuOk_iff {p : Params} {m : Half} :
    mtuOk p m = true ↔ 1 ≤ m.toNat ∧ m.toNat ≤ p.bufCap - Config.hdrLen := decide_eq_true_iff

/-- A frame of an accepted MTU with its header fits the buffer, so the buffer sets no bound of its own (R102). -/
theorem txMax_of_mtuOk {p : Params} {mtu : Half} (h : mtuOk p mtu = true) :
    txMax p mtu = Config.hdrLen + mtu.toNat := by
  obtain ⟨hpos, hle⟩ := mtuOk_iff.1 h
  exact min_eq_right (by omega)

/-- Settles O21: each validator is its defining inequality. -/
theorem validatorsOfLengthAndMtu : Obligations.ValidatorsOfLengthAndMtu :=
  fun _ _ _ _ => ⟨rfl, txLenOk_iff, mtuOk_iff, rfl, txMax_of_mtuOk⟩

/-! ### The receive classifier -/

section Classify

variable {p : Params} {len mtu : Half} {crcErr otherErr : Bool}

theorem classify_runt_iff : (classify p len crcErr otherErr mtu).runt = true ↔ len.toNat < p.runtMin :=
  decide_eq_true_iff

theorem classify_oversize_iff : (classify p len crcErr otherErr mtu).oversize = true ↔ rxMax mtu < len.toNat :=
  decide_eq_true_iff

/-- A frame is good exactly where the controller reports no error and its length is in range (R103). -/
theorem classify_good_iff : (classify p len crcErr otherErr mtu).good = true ↔
    crcErr = false ∧ otherErr = false ∧ p.runtMin ≤ len.toNat ∧ len.toNat ≤ rxMax mtu := by
  simp [classify, and_assoc]

end Classify

/-- Settles O22: each flag by its own comparison. -/
theorem classifierSetsTheStatusFlags : Obligations.ClassifierSetsTheStatusFlags :=
  fun _ _ _ _ _ => ⟨⟨rfl, classify_runt_iff, classify_oversize_iff, rfl⟩, classify_good_iff⟩

end Sys2Proof.Machine
end

section
/-!
SUPPORT. The transmit path (41_transmit.md): what TRANSMIT answers at each of its checks, what a store in one slot
leaves of every other slot, and that a slot handed to the controller stays as it is.
-/

namespace Sys2Proof.Machine

/-! ### The checks of TRANSMIT -/

section Checks

variable {s : State} {len : Half} {frame : List Byte} {d : Desc} {m : List Host.Cell}

theorem execTransmit_of_uninit (hp : s.phase = .uninit) :
    execTransmit len frame s = .next (raise s (encodeWord (.transmit len frame)) .errNotInit) := by
  simp [execTransmit, hp]

theorem execTransmit_of_fatal (hp : s.phase = .fatal) :
    execTransmit len frame s = .next (raise s (encodeWord (.transmit len frame)) .errFatal) := by
  simp [execTransmit, hp]

theorem execTransmit_of_badLen (hp : s.phase = .ready)
    (hl : ¬(frame.length = len.toNat ∧ txLenOk s.cfg s.mtu len = true)) :
    execTransmit len frame s = .next (raise s (encodeWord (.transmit len frame)) .errLen) := by
  simp [execTransmit, hp, hl]

/-- Past the first two checks TRANSMIT is what it does with the slot at the host cursor (R120). -/
theorem execTransmit_of_goodLen (hp : s.phase = .ready) (hframe : frame.length = len.toNat)
    (hlen : txLenOk s.cfg s.mtu len = true) : execTransmit len frame s = transmitSlot len frame s := by
  simp [execTransmit, hp, hframe, hlen]

theorem transmitSlot_of_controllerOwned (hd : readDesc s .tx s.cur.tx = .ok d) (ho : d.own = .controllerOwned) :
    transmitSlot len frame s = .next (raise s (encodeWord (.transmit len frame)) .busy) := by
  simp [transmitSlot, hd, ho]

theorem transmitSlot_of_hostOwned (hd : readDesc s .tx s.cur.tx = .ok d) (ho : d.own = .hostOwned)
    (hm : memWrite s.cfg .tx s.cur.tx s.mem d.addr.toNat frame = .ok m) :
    transmitSlot len frame s = .next (finish (handOff s s.cur.tx d m len) (encodeWord (.transmit len frame)) .ok
      (BitVec.ofNat 32 s.cur.tx) []) := by
  simp [transmitSlot, hd, ho, hm]

end Checks

/-- Settles O24: one lemma for each check, and the slot write of the hand-off stores the frame and nothing else. -/
theorem transmitHandsOffOneFrame : Obligations.TransmitHandsOffOneFrame := by
  intro len frame s
  refine ⟨execTransmit_of_uninit, execTransmit_of_fatal, fun hp hl => ?_, fun hp hframe hpos hmax d hd => ?_⟩
  · exact execTransmit_of_badLen hp (by rwa [txLenOk_iff])
  · have hlen : txLenOk s.cfg s.mtu len = true := txLenOk_iff.2 ⟨hpos, hmax⟩
    have hslot : readDesc s .tx s.cur.tx = .ok d := readDesc_eq_ok.2 hd
    have hexec : exec (.transmit len frame) s = transmitSlot len frame s := execTransmit_of_goodLen hp hframe hlen
    rw [hexec]
    refine ⟨transmitSlot_of_controllerOwned hslot, fun ho hinv => ?_⟩
    obtain ⟨htx, -⟩ := hinv.rings (by simp [hp])
    obtain ⟨hok, -⟩ := hinv
    obtain ⟨m, hm⟩ := htx.memWrite_ok hok hslot (hframe ▸ txLenOk_le_bufCap hlen)
    obtain ⟨hread, hout, -⟩ := memWrite_spec hm
    exact ⟨m, transmitSlot_of_hostOwned hslot ho hm, hread, hframe ▸ hout⟩

/-! ### What a slot keeps -/

/-- Slot `j` of ring `r` has in `t` the descriptor and the buffer bytes it has in `s`. -/
def SlotKept (s t : State) (r : Ring) (j : Nat) : Prop :=
  (t.descs.get r)[j]? = (s.descs.get r)[j]? ∧
    ∀ x, inSlot s.cfg r j x = true → Memory.read t.mem x = Memory.read s.mem x

section Kept

variable {s t : State} {r q : Ring} {i j a : Nat} {d e : Desc} {bytes : List Byte} {m : List Host.Cell}

theorem SlotKept.of_eq (hdescs : t.descs.get r = s.descs.get r) (hmem : t.mem = s.mem) : SlotKept s t r j :=
  ⟨by rw [hdescs], fun _ _ => by rw [hmem]⟩

theorem SlotKept.trans {u : State} (h : SlotKept s t r j) (h' : SlotKept t u r j) (hcfg : t.cfg = s.cfg) :
    SlotKept s u r j := by
  obtain ⟨hdesc, hbytes⟩ := h
  obtain ⟨hdesc', hbytes'⟩ := h'
  exact ⟨hdesc'.trans hdesc, fun x hx => (hbytes' x (hcfg ▸ hx)).trans (hbytes x hx)⟩

theorem SlotKept.after_finish (h : SlotKept s t r j) (w : Word) (code : ResultCode) (v : Word) (p : List Byte) :
    SlotKept s (finish t w code v p) r j := by
  simpa [SlotKept] using h

/-- What is stored in one slot leaves every other slot of both rings (R53). -/
theorem slotKept_store (hm : memWrite s.cfg r i s.mem a bytes = .ok m) (hne : ¬(q = r ∧ j = i)) :
    SlotKept s { writeDesc s r i e with mem := m } q j := by
  refine ⟨?_, fun x hx => read_memWrite_of_not_inSlot hm fun hx' => hne (inSlot_unique hx' hx)⟩
  by_cases hq : q = r
  · subst hq
    exact (writeDesc_getElem? s q i e j).trans (if_neg fun ⟨hij, _⟩ => hne ⟨rfl, hij.symm⟩)
  · exact congrArg (·[j]?) (writeDesc_get_ne s i e hq)

/-- The receive loop leaves the Tx descriptors and every buffer byte (R130). -/
theorem ReceiveFrame.slotKept (h : ReceiveFrame s t) : SlotKept s t .tx j :=
  .of_eq h.txDescs (by rw [h.eq])

theorem slotKept_deliver (s : State) (k : Nat) (frame : List Byte) : SlotKept s (deliver s k frame) r j := by
  obtain ⟨-, ht⟩ | ⟨-, ht⟩ := deliver_cases s k frame <;> rw [ht] <;> exact .of_eq (by simp) (by simp)

theorem slotKept_endDrain (s : State) (code : ResultCode) (k : Nat) : SlotKept s (endDrain s code k) r j :=
  SlotKept.after_finish (.of_eq rfl rfl) _ _ _ _

end Kept

/-! ### A slot handed to the controller -/

section HandedOff

variable {s t : State} {j : Nat} {d : Desc}

/-- TRANSMIT writes the slot at the host cursor, and only where that is the host's (R122). -/
theorem slotKept_transmit {len : Half} {frame : List Byte} (he : execTransmit len frame s = .next t)
    (hj : s.descs.tx[j]? = some d) (ho : d.own = .controllerOwned) : SlotKept s t .tx j := by
  obtain ⟨code, rfl⟩ | ⟨e, m, -, -, -, hcur, heo, hm, rfl⟩ := execTransmit_cases he
  · exact SlotKept.after_finish (.of_eq rfl rfl) _ _ _ _
  · have hne : j ≠ s.cur.tx := by
      rintro rfl
      obtain rfl : d = e := Option.some.inj (hj.symm.trans (readDesc_eq_ok.1 hcur))
      cases ho.symm.trans heo
    have hstore : SlotKept s (handOff s s.cur.tx e m len) .tx j := slotKept_store hm fun ⟨_, h⟩ => hne h
    exact hstore.after_finish _ _ _ _

/-- An RX_FRAME stores its frame in the other ring (R171). -/
theorem slotKept_rxFrame {len : Half} {crcErr otherErr : Bool} {bytes : List Byte}
    (he : execRxFrame len crcErr otherErr bytes s = .next t) : SlotKept s t .tx j := by
  obtain rfl | ⟨e, -, -, -, -, rfl⟩ | ⟨e, m, -, -, -, -, hm, rfl⟩ := execRxFrame_cases he
  · exact .of_eq rfl rfl
  · exact .of_eq rfl rfl
  · exact slotKept_store hm nofun

theorem slotKept_receive (he : execReceive s = .next t) : SlotKept s t .tx j := by
  obtain ⟨code, -, rfl⟩ | ⟨u, -, hu, rfl⟩ | ⟨v, frame, u, -, hu, rfl⟩ := execReceive_cases he
  · exact SlotKept.after_finish (.of_eq rfl rfl) _ _ _ _
  · exact (receiveFrom_frameLaw hu).slotKept.after_finish _ _ _ _
  · exact (receiveFrom_frameLaw hu).slotKept.after_finish _ _ _ _

theorem slotKept_drainStep {k : Nat} (hs : drainStep k s = .next t) : SlotKept s t .tx j := by
  obtain ⟨-, rfl⟩ | ⟨u, -, hu, rfl⟩ | ⟨v, frame, u, -, hu, rfl⟩ := drainStep_cases hs
  · exact slotKept_endDrain _ _ _
  · exact (receiveFrom_frameLaw hu).slotKept
  · have hframe := receiveFrom_frameLaw hu
    exact hframe.slotKept.trans (slotKept_deliver u k frame) (by rw [hframe.eq])

/-- No instruction but TX_DONE and INIT touches a slot handed to the controller (R121). -/
theorem slotKept_exec {i : Instr} (he : exec i s = .next t) (htxDone : i ≠ .txDone) (hinit : i ≠ .init)
    (hj : s.descs.tx[j]? = some d) (ho : d.own = .controllerOwned) : SlotKept s t .tx j := by
  cases i with
  | txDone => exact absurd rfl htxDone
  | init => exact absurd rfl hinit
  | transmit len frame => exact slotKept_transmit he hj ho
  | receive => exact slotKept_receive he
  | rxFrame len crcErr otherErr bytes => exact slotKept_rxFrame he
  | _ =>
    obtain ⟨-, hdescs, hmem, -⟩ := exec_keeps_rings he nofun nofun nofun nofun nofun
    exact .of_eq (by rw [hdescs]) hmem

end HandedOff

/-! ### The end of a TRANSMIT -/

/-- The end of a command writes the record of its result and a program index only (R77). -/
theorem finish_eq_record (s : State) (w : Word) (code : ResultCode) (v : Word) (p : List Byte) :
    finish s w code v p = { s with
      results := (finish s w code v p).results
      pc := (finish s w code v p).pc
      ipc := (finish s w code v p).ipc } := by
  unfold finish
  cases running s <;> rfl

/-- Settles O25: TRANSMIT raises a code that is not OK, or hands off the HostOwned slot at the host cursor. -/
theorem transmitWritesOnlyAHostOwnedSlot : Obligations.TransmitWritesOnlyAHostOwnedSlot := by
  intro len frame s t he
  refine ⟨fun j d hj ho => ?_, ?_⟩
  · obtain ⟨hdesc, -⟩ := slotKept_transmit he hj ho
    exact hdesc.trans hj
  · obtain ⟨code, hcode, rfl⟩ | ⟨d, m, -, -, -, -, -, rfl⟩ := execTransmit_raise_or_handOff he
    · exact ⟨fun hok => absurd (by simpa using hok) hcode, fun _ => finish_eq_record _ _ _ _ _⟩
    · exact ⟨fun _ => by simp, fun hok => absurd (by simp) hok⟩

/-! ### The hand-off -/

/-- A block with a descriptor written is one that INIT has set up (R37). -/
theorem State.Invariant.phase_ne_of_desc {s : State} (h : s.Invariant) {r : Ring} {j : Nat} {d : Desc}
    (hd : (s.descs.get r)[j]? = some d) : s.phase ≠ .uninit := by
  obtain ⟨-, -, -, -, -, uninit, -⟩ := h
  intro hu
  obtain ⟨hdescs, -⟩ := uninit hu
  rw [hdescs] at hd
  cases r <;> simp at hd

/-- The bytes at a descriptor's address are those of its own slot's buffer (R51, R52). -/
theorem State.Invariant.inSlot_addr {s : State} (h : s.Invariant) {r : Ring} {j k : Nat} {d : Desc}
    (hd : (s.descs.get r)[j]? = some d) (hk : k < s.cfg.bufCap) : inSlot s.cfg r j (d.addr.toNat + k) = true := by
  have hring := (h.rings (h.phase_ne_of_desc hd)).ring r
  have hread : readDesc s r j = .ok d := readDesc_eq_ok.2 hd
  obtain ⟨⟨haddr, -⟩, -⟩ := hring.of_readDesc hread
  obtain ⟨hok, -⟩ := h
  exact haddr ▸ inSlot_bufAddr hok (hring.lt_card hread) hk

/-- Settles O26: each of these steps keeps the slot, whose buffer is at its descriptor's address. -/
theorem handOffIsIrreversible : Obligations.HandOffIsIrreversible := by
  intro s t j d h hj ho hstep
  have hkept : SlotKept s t .tx j := by
    obtain ⟨i, -, htxDone, hinit, he⟩ | ⟨k, hs⟩ | ⟨k, hs⟩ := hstep
    · exact slotKept_exec he htxDone hinit hj ho
    · exact slotKept_drainStep hs
    · cases hs
      exact slotKept_endDrain s .ok k
  obtain ⟨hdesc, hbytes⟩ := hkept
  exact ⟨hdesc.trans hj, fun k hk => hbytes _ (h.inSlot_addr hj hk)⟩

end Sys2Proof.Machine
end

section
/-!
SUPPORT. The receive path and drain (42_receive.md): what RECEIVE and each step of DRAIN answer, what they leave
unchanged, and a DRAIN of available good frames.
-/

namespace Sys2Proof.Machine

/-! ### RECEIVE, pass by pass -/

section Receive

variable {s t u : State} {d : Desc} {n : Nat}

theorem execReceive_of_uninit (hp : s.phase = .uninit) :
    execReceive s = .next (raise s (encodeWord .receive) .errNotInit) := by
  simp [execReceive, hp]

theorem execReceive_of_fatal (hp : s.phase = .fatal) :
    execReceive s = .next (raise s (encodeWord .receive) .errFatal) := by
  simp [execReceive, hp]

/-- In READY a RECEIVE whose loop ends with nothing available ends EMPTY (R130). -/
theorem execReceive_of_none (hp : s.phase = .ready) (hu : receiveFrom s = .ok (none, u)) :
    execReceive s = .next (finish u (encodeWord .receive) .empty 0#32 []) := by
  simp [execReceive, hp, receiveResult, hu]

/-- In READY a RECEIVE whose loop answers a frame ends FRAME (R130). -/
theorem execReceive_of_some {v : Word} {frame : List Byte} (hp : s.phase = .ready)
    (hu : receiveFrom s = .ok (some (v, frame), u)) :
    execReceive s = .next (finish u (encodeWord .receive) .frame v frame) := by
  simp [execReceive, hp, receiveResult, hu]

/-- In READY what RECEIVE does depends on its loop only. -/
theorem execReceive_congr (hp : s.phase = .ready) (hp' : t.phase = .ready) (h : receiveFrom s = receiveFrom t) :
    execReceive s = execReceive t := by
  simp [execReceive, hp, hp', receiveResult, h]

/-- Where one pass goes on from `t`, which has a HostOwned slot fewer, RECEIVE goes on from `t` (R130, R131). -/
theorem receiveFrom_of_pass (hpass : receiveFrom s = receiveLoop s.descs.rx.length t)
    (hcount : countOwn t.descs.rx .hostOwned + 1 = countOwn s.descs.rx .hostOwned) :
    receiveFrom s = receiveFrom t := by
  have hle := countOwn_le s.descs.rx .hostOwned
  exact hpass.trans (receiveFrom_eq_loop (by omega)).symm

/-- After a slot with an error status RECEIVE goes on from the state the discard leaves (R130). -/
theorem receiveFrom_discardErr (hd : readDesc s .rx s.cur.rx = .ok d) (ho : d.own = .hostOwned)
    (hg : d.st.good = false) : receiveFrom s = receiveFrom (discardErr s s.cur.rx d) :=
  receiveFrom_of_pass (receiveLoop_err hd ho hg) (countOwn_recycle hd ho)

/-- After a good slot without a buffer RECEIVE goes on from the state the discard leaves (R130). -/
theorem receiveFrom_discardNobuf (hd : readDesc s .rx s.cur.rx = .ok d) (ho : d.own = .hostOwned)
    (hg : d.st.good = true) (ha : (drawAlloc s).1 = false) :
    receiveFrom s = receiveFrom (discardNobuf (drawAlloc s).2 s.cur.rx d) :=
  receiveFrom_of_pass (receiveLoop_nobuf hd ho hg ha) (by simpa using countOwn_recycle hd ho)

/-- The frame of a HostOwned slot is the bytes at its descriptor's address (R26, R53). -/
theorem State.Invariant.slot_frame (h : s.Invariant) (hp : s.phase ≠ .uninit)
    (hd : readDesc s .rx s.cur.rx = .ok d) (ho : d.own = .hostOwned) :
    ∃ frame, memRead s.cfg .rx s.cur.rx s.mem d.addr.toNat d.len.toNat = .ok frame := by
  have hrx : RingLaw s .rx := (h.rings hp).ring .rx
  obtain ⟨hok, -⟩ := h
  exact hrx.memRead_ok hok hd ho

/-- Settles O27: each way a pass of the loop can go, and after a discard the rest of the loop is the loop from there. -/
theorem receiveTakesTheNextGoodFrame : Obligations.ReceiveTakesTheNextGoodFrame := by
  intro s
  refine ⟨execReceive_of_uninit, execReceive_of_fatal, fun hp d hslot => ?_⟩
  have hd : readDesc s .rx s.cur.rx = .ok d := readDesc_eq_ok.2 hslot
  refine ⟨execReceive_of_controllerOwned hp hd, fun ho hg => ?_, fun ho hg ha => ?_, fun ho hg ha h => ?_⟩
  · exact execReceive_congr hp hp (receiveFrom_discardErr hd ho hg)
  · refine execReceive_congr hp (by simpa using hp) ((receiveFrom_discardNobuf hd ho hg ha).trans (congrArg _ ?_))
    simp [discardNobuf, recycle, writeDesc, inc32, advance, Params.card]
  · obtain ⟨frame, hm⟩ := h.slot_frame (by simp [hp]) hd ho
    obtain ⟨hlen, hbytes⟩ := memRead_eq_ok.1 hm
    refine ⟨frame, hlen, fun j hj => (hbytes j hj).2, ?_⟩
    refine (execReceive_of_some hp (receiveLoop_frame hd ho hg ha hm)).trans ?_
    simp [recycle, writeDesc, advance, Params.card, frameValue, encodeWord]

/-- Settles O28: by the invariant there are `N_RX` slots, so `N_RX + 1` passes are the bound of `receiveFrom`. -/
theorem receiveEndsWithinTheRing : Obligations.ReceiveEndsWithinTheRing := by
  intro s h hp
  have hne : s.phase ≠ .uninit := by simp [hp]
  obtain ⟨o, u, hu⟩ := h.receiveFrom_ok hne
  have hlen : s.descs.rx.length = s.cfg.nRx := ((h.rings hne).ring .rx).length_eq
  exact ⟨⟨(o, u), hlen ▸ hu, hu⟩, execReceive_next h⟩

end Receive

/-! ### What RECEIVE and DRAIN leave unchanged -/

section Unchanged

variable {s t u : State}

/-- The end of a receive path: what it leaves unchanged, with the record of a result (R130). -/
theorem ReceiveFrame.after_finish (h : ReceiveFrame s u) (w : Word) (code : ResultCode) (v : Word) (p : List Byte)
    (ht : t = finish u w code v p) :
    t.descs.tx = s.descs.tx ∧ t.cur.tx = s.cur.tx ∧
    t = { s with
      descs := t.descs
      cur := t.cur
      cntErr := t.cntErr
      cntNobuf := t.cntNobuf
      allocDraws := t.allocDraws
      freeCount := t.freeCount
      results := t.results
      pc := t.pc
      ipc := t.ipc } := by
  have hrecord : t = { u with results := t.results, pc := t.pc, ipc := t.ipc } := by
    rw [ht]
    exact finish_eq_record u w code v p
  rw [hrecord]
  exact ⟨h.txDescs, h.txCur,
    congrArg (fun x : State => { x with results := t.results, pc := t.pc, ipc := t.ipc }) h.eq⟩

/-- What the delivery of a frame writes (R132). -/
theorem deliver_eq_record (s : State) (k : Nat) (frame : List Byte) :
    deliver s k frame = { s with
      cntDlverr := (deliver s k frame).cntDlverr
      deliverDraws := (deliver s k frame).deliverDraws
      freeCount := (deliver s k frame).freeCount
      delivered := (deliver s k frame).delivered
      drain := (deliver s k frame).drain } := by
  unfold deliver drawDeliver
  cases s.deliverDraws with
  | nil => cases Config.deliverOk s.freeCount <;> rfl
  | cons b rest => cases b <;> rfl

/-- A DRAIN_STEP outside FATAL is a receive loop, and then writes the delivery and the DRAIN progress only (R132). -/
theorem drainStep_of_not_fatal {k : Nat} (hp : s.phase ≠ .fatal) (hs : drainStep k s = .next t) :
    ∃ u, ReceiveFrame s u ∧ t = { u with
      cntDlverr := t.cntDlverr
      deliverDraws := t.deliverDraws
      freeCount := t.freeCount
      delivered := t.delivered
      drain := t.drain } := by
  obtain ⟨hfatal, -⟩ | ⟨u, -, hu, rfl⟩ | ⟨v, frame, u, -, hu, rfl⟩ := drainStep_cases hs
  · exact absurd hfatal hp
  · exact ⟨u, receiveFrom_frameLaw hu, rfl⟩
  · exact ⟨u, receiveFrom_frameLaw hu, deliver_eq_record u k frame⟩

/-- Settles O30: the receive loop writes what `ReceiveFrame` names; a RECEIVE then records its result, and a DRAIN_STEP
its delivery. -/
theorem perFrameErrorsStayInsideThePath : Obligations.PerFrameErrorsStayInsideThePath := by
  refine ⟨fun s t hp he => ?_, fun k s t hp hs => ?_⟩
  · obtain ⟨code, hready, -⟩ | ⟨u, -, hu, ht⟩ | ⟨v, frame, u, -, hu, ht⟩ := execReceive_cases he
    · exact absurd hp hready
    · exact ⟨.inr (by simp [ht]), (receiveFrom_frameLaw hu).after_finish _ _ _ _ ht⟩
    · exact ⟨.inl (by simp [ht]), (receiveFrom_frameLaw hu).after_finish _ _ _ _ ht⟩
  · obtain ⟨u, hframe, ht⟩ := drainStep_of_not_fatal (by simp [hp]) hs
    rw [ht]
    exact ⟨hframe.txDescs, hframe.txCur, congrArg (fun x : State => { x with
      cntDlverr := t.cntDlverr
      deliverDraws := t.deliverDraws
      freeCount := t.freeCount
      delivered := t.delivered
      drain := t.drain }) hframe.eq⟩

end Unchanged

/-! ### DRAIN -/

section Drain

variable {s u : State} {k : Nat} {frame : List Byte}

theorem execDrain_of_uninit (hp : s.phase = .uninit) :
    execDrain s = .next (raise s (encodeWord .drain) .errNotInit) := by
  simp [execDrain, hp]

theorem execDrain_of_not_uninit (hp : s.phase ≠ .uninit) : execDrain s = .next (setDrain s (.draining 0)) := by
  cases h : s.phase with
  | uninit => exact absurd h hp
  | ready => simp [execDrain, h]
  | fatal => simp [execDrain, h]

theorem drainStep_of_fatal (hp : s.phase = .fatal) : drainStep k s = .next (endDrain s .errFatal k) := by
  simp [drainStep, hp]

/-- Outside FATAL a DRAIN_STEP is its receive and what follows it (R132). -/
theorem drainStep_eq_drainReceive (hp : s.phase ≠ .fatal) : drainStep k s = drainReceive k s := by
  cases h : s.phase with
  | uninit => simp [drainStep, h]
  | ready => simp [drainStep, h]
  | fatal => exact absurd h hp

theorem drainStep_of_none (hp : s.phase ≠ .fatal) (hu : receiveFrom s = .ok (none, u)) :
    drainStep k s = .next (setDrain u (.acking k)) := by
  simp [drainStep_eq_drainReceive hp, drainReceive, hu]

theorem drainStep_of_some {v : Word} (hp : s.phase ≠ .fatal) (hu : receiveFrom s = .ok (some (v, frame), u)) :
    drainStep k s = .next (deliver u k frame) := by
  simp [drainStep_eq_drainReceive hp, drainReceive, hu]

theorem deliver_of_accepted (ha : (drawDeliver s).1 = true) :
    deliver s k frame = { (drawDeliver s).2 with
      delivered := s.delivered ++ [frame]
      drain := s.drain.set (running s) (.draining (k + 1)) } := by
  rw [← drawDeliver_drain s, ← running_congr (drawDeliver_ctxStack s)]
  obtain ⟨-, h⟩ | ⟨hrefused, -⟩ := deliver_cases s k frame
  · exact h
  · exact absurd hrefused (by simp [ha])

theorem deliver_of_refused (ha : (drawDeliver s).1 = false) :
    deliver s k frame = { (drawDeliver s).2 with cntDlverr := inc32 s.cntDlverr } := by
  simpa [ha] using deliver_cases s k frame

theorem countWord_of_lt (h : k < 2 ^ 32) : countWord k = BitVec.ofNat 32 k := if_pos h

/-- Settles O31: one lemma for each clause, the count being the recorded word. -/
theorem drainStartsStepsAndAcknowledges : Obligations.DrainStartsStepsAndAcknowledges := by
  intro s k
  refine ⟨countWord k, countWord_of_lt, execDrain_of_uninit, execDrain_of_not_uninit, drainStep_of_fatal,
    fun u => drainStep_of_none, fun v frame u hp hu => ?_, rfl, fun u => execReceive_of_none,
    fun v frame u => execReceive_of_some⟩
  rw [drainStep_of_some hp hu]
  exact ⟨fun ha => congrArg _ (deliver_of_accepted ha), fun ha => congrArg _ (deliver_of_refused ha)⟩

/-- Settles O34: it is ACK_RX's one write and its result, without a look at the phase. -/
theorem ackRxClearsReceiveReady : Obligations.AckRxClearsReceiveReady := fun _ => rfl

end Drain

/-! ### A DRAIN of available good frames -/

section RingOrder

variable {s t u : State} {d : Desc} {frame : List Byte} {allocs delivers : List Bool} {n k i : Nat}

/-- What a DRAIN_STEP leaves that takes the frame of slot `d` at the host cursor and delivers it; `allocs` and
`delivers` are the draws that are left (R132). -/
def deliveredFrom (s : State) (k : Nat) (d : Desc) (frame : List Byte) (allocs delivers : List Bool) : State :=
  setDrain { recycle s s.cur.rx d with
    allocDraws := allocs
    deliverDraws := delivers
    delivered := s.delivered ++ [frame] } (.draining (k + 1))

theorem drainStep_of_goodSlot (hp : s.phase = .ready) (hd : readDesc s .rx s.cur.rx = .ok d) (ho : d.own = .hostOwned)
    (hg : d.st.good = true) (hm : memRead s.cfg .rx s.cur.rx s.mem d.addr.toNat d.len.toNat = .ok frame)
    (ha : s.allocDraws = true :: allocs) (hdl : s.deliverDraws = true :: delivers) :
    drainStep k s = .next (deliveredFrom s k d frame allocs delivers) := by
  have halloc : drawAlloc s = (true, { s with allocDraws := allocs }) := by simp [drawAlloc, ha]
  have hu : receiveFrom s = .ok (_, recycle (drawAlloc s).2 s.cur.rx d) :=
    receiveLoop_frame hd ho hg (by rw [halloc]) hm
  rw [halloc] at hu
  have hdeliver : drawDeliver (recycle { s with allocDraws := allocs } s.cur.rx d) =
      (true, { recycle { s with allocDraws := allocs } s.cur.rx d with deliverDraws := delivers }) := by
    simp [drawDeliver, hdl]
  rw [drainStep_of_some (by simp [hp]) hu, deliver_of_accepted (by rw [hdeliver]), hdeliver]
  rfl

/-- What R133 asks of the state from which `n` DRAIN_STEPs are taken: `k` frames are delivered so far, the next `n`
slots hold good frames, and the next `n` draws of each kind are true. -/
structure CanDrain (n k : Nat) (allocs delivers : List Bool) (s : State) : Prop where
  inv : s.Invariant
  ready : s.phase = .ready
  progress : s.drain.get (running s) = .draining k
  available : n ≤ countOwn s.descs.rx .hostOwned
  good : ∀ j < n, ∀ d ∈ s.descs.rx[(s.cur.rx + j) % s.cfg.nRx]?, d.st.good = true
  allocDraws : s.allocDraws = List.replicate n true ++ allocs
  deliverDraws : s.deliverDraws = List.replicate n true ++ delivers

/-- Rx slot `i` is the controller's. -/
abbrev GivenBack (s : State) (i : Nat) : Prop := s.descs.rx[i]?.map (fun d => d.own) = some .controllerOwned

/-- What `n` DRAIN_STEPs have done that all delivered a frame: the first `n` frames of the queue are delivered in order
and out of the queue, and their slots, with those given back before, are the controller's (R133). -/
structure Drained (n k : Nat) (s t : State) : Prop where
  delivered : t.delivered.map some = s.delivered.map some ++ (rxQueue s).take n
  queue : rxQueue t = (rxQueue s).drop n
  progress : t.drain.get (running t) = .draining (k + n)
  slots : ∀ j < n, GivenBack t ((s.cur.rx + j) % s.cfg.nRx)
  kept : ∀ i, GivenBack s i → GivenBack t i

theorem Drained.refl (h : s.drain.get (running s) = .draining k) : Drained 0 k s s :=
  ⟨by simp, rfl, h, by simp, fun _ hi => hi⟩

/-- The slot that a DRAIN_STEP recycles is given back. -/
theorem givenBack_deliveredFrom_cur (hd : readDesc s .rx s.cur.rx = .ok d) :
    GivenBack (deliveredFrom s k d frame allocs delivers) s.cur.rx := by
  have hlt : s.cur.rx < s.descs.rx.length := readDesc_lt hd
  simp [GivenBack, deliveredFrom, hlt]

theorem deliveredFrom_getElem?_ne (hi : i ≠ s.cur.rx) :
    (deliveredFrom s k d frame allocs delivers).descs.rx[i]? = s.descs.rx[i]? := by
  simp [deliveredFrom, List.getElem?_set_ne hi.symm]

/-- A slot given back before stays so. -/
theorem givenBack_deliveredFrom (hd : readDesc s .rx s.cur.rx = .ok d) (hi : GivenBack s i) :
    GivenBack (deliveredFrom s k d frame allocs delivers) i := by
  by_cases h : i = s.cur.rx
  · exact h ▸ givenBack_deliveredFrom_cur hd
  · rw [GivenBack, deliveredFrom_getElem?_ne h]
    exact hi

/-- The slot at the host cursor holds the next frame: it is HostOwned, good, and its bytes can be read. -/
theorem CanDrain.first_slot (h : CanDrain (n + 1) k allocs delivers s) :
    ∃ d frame, readDesc s .rx s.cur.rx = .ok d ∧ d.own = .hostOwned ∧ d.st.good = true ∧
      memRead s.cfg .rx s.cur.rx s.mem d.addr.toNat d.len.toNat = .ok frame := by
  obtain ⟨hinv, hp, -, havail, hgood, -⟩ := h
  have hne : s.phase ≠ .uninit := by simp [hp]
  obtain ⟨-, hrx, -, hrun, -⟩ := hinv.rings hne
  obtain ⟨d, hd⟩ : ∃ d, readDesc s .rx s.cur.rx = .ok d := hrx.readDesc_cur
  have hcur : s.cur.rx < s.cfg.nRx := hrx.lt_card hd
  have hslot : s.descs.rx[s.cur.rx]? = some d := readDesc_eq_ok.1 hd
  have ho : d.own = .hostOwned := by
    simpa [hslot] using (hrun.first_owned_iff hcur).2 (by omega)
  have hg : d.st.good = true := hgood 0 (by omega) d (by simpa [Nat.mod_eq_of_lt hcur] using hslot)
  obtain ⟨frame, hm⟩ := hinv.slot_frame hne hd ho
  exact ⟨d, frame, hd, ho, hg, hm⟩

/-- A slot at another offset below the number of slots is not the first. -/
theorem slot_succ_ne_first {N first j : Nat} (hfirst : first < N) (hj : j + 1 < N) :
    (first + (j + 1)) % N ≠ first := fun heq =>
  Nat.succ_ne_zero j (slot_offset_inj (first := first) hj (by omega) (heq.trans (Nat.mod_eq_of_lt hfirst).symm))

/-- One DRAIN_STEP delivers the oldest frame, and from the state it leaves the other frames can be drained. -/
theorem CanDrain.drainStep_next (h : CanDrain (n + 1) k allocs delivers s) :
    ∃ d frame as ds, readDesc s .rx s.cur.rx = .ok d ∧
      drainStep k s = .next (deliveredFrom s k d frame as ds) ∧
      rxQueue s = some frame :: rxQueue (deliveredFrom s k d frame as ds) ∧
      CanDrain n (k + 1) allocs delivers (deliveredFrom s k d frame as ds) := by
  obtain ⟨d, frame, hd, ho, hg, hm⟩ := h.first_slot
  obtain ⟨hinv, hp, -, havail, hgood, hallocs, hdelivers⟩ := h
  have hne : s.phase ≠ .uninit := by simp [hp]
  have hrx : RingLaw s .rx := (hinv.rings hne).ring .rx
  rw [List.replicate_succ, List.cons_append] at hallocs hdelivers
  have hstep := drainStep_of_goodSlot (k := k) hp hd ho hg hm hallocs hdelivers
  refine ⟨d, frame, _, _, hd, hstep, ?_, drainStep_invariant hinv hne hstep, hp, PerCtx.get_set_same _ _ _, ?_, ?_,
    rfl, rfl⟩
  · rw [rxQueue_recycle hrx hd ho, slotFrame_of_memRead hd hm]
    exact congrArg _ (rxQueue_congr rfl rfl rfl rfl)
  · have hfewer := countOwn_recycle hd ho
    change n ≤ countOwn (recycle s s.cur.rx d).descs.rx .hostOwned
    omega
  · intro j hj e he
    have hle : countOwn s.descs.rx .hostOwned ≤ s.cfg.nRx := (countOwn_le _ _).trans_eq hrx.length_eq
    have hcur : s.cur.rx < s.cfg.nRx := hrx.lt_card hd
    refine hgood (j + 1) (by omega) e ?_
    rw [← deliveredFrom_getElem?_ne (slot_succ_ne_first hcur (by omega)), ← slot_succ_offset]
    exact he

/-- The steps after the first do what they do to the queue the first one leaves. -/
theorem Drained.cons {as ds : List Bool} (hd : readDesc s .rx s.cur.rx = .ok d)
    (hqueue : rxQueue s = some frame :: rxQueue (deliveredFrom s k d frame as ds)) (hcur : s.cur.rx < s.cfg.nRx)
    (h : Drained n (k + 1) (deliveredFrom s k d frame as ds) t) : Drained (n + 1) k s t := by
  obtain ⟨hdelivered, hrest, hprogress, hslots, hkept⟩ := h
  refine ⟨?_, ?_, ?_, ?_, fun i hi => hkept i (givenBack_deliveredFrom hd hi)⟩
  · rw [hdelivered, hqueue]
    simp [deliveredFrom]
  · rw [hrest, hqueue]
    rfl
  · rw [hprogress, Nat.add_right_comm, Nat.add_assoc]
  · rintro (_ | j) hj
    · rw [Nat.add_zero, Nat.mod_eq_of_lt hcur]
      exact hkept _ (givenBack_deliveredFrom_cur hd)
    · rw [← slot_succ_offset]
      exact hslots j (by omega)

theorem drainSteps_succ (hp : s.drain.get (running s) = .draining k) (hs : drainStep k s = .next u) :
    drainSteps (n + 1) s = drainSteps n u := by
  simp [drainSteps, hp, hs]

/-- `n` DRAIN_STEPs deliver the first `n` frames, by induction on `n` with one DRAIN_STEP at the front. -/
theorem CanDrain.drainSteps_next (h : CanDrain n k allocs delivers s) :
    ∃ t, drainSteps n s = .next t ∧ Drained n k s t := by
  induction n generalizing s k with
  | zero => exact ⟨s, rfl, .refl h.progress⟩
  | succ n ih =>
    obtain ⟨d, frame, as, ds, hd, hstep, hqueue, hrest⟩ := h.drainStep_next
    obtain ⟨t, hsteps, hdrained⟩ := ih hrest
    have hcur : s.cur.rx < s.cfg.nRx := ((h.inv.rings (by simp [h.ready])).ring .rx).lt_card hd
    exact ⟨t, (drainSteps_succ h.progress hstep).trans hsteps, hdrained.cons hd hqueue hcur⟩

/-- Settles O32: its hypotheses are `CanDrain`, its conclusion a part of `Drained`. -/
theorem drainDeliversInRingOrder : Obligations.DrainDeliversInRingOrder := by
  intro n k s allocs delivers hinv hp hprogress havail hgood hallocs hdelivers
  obtain ⟨t, hsteps, hdelivered, hqueue, hk, hslots, -⟩ :=
    CanDrain.drainSteps_next ⟨hinv, hp, hprogress, havail, hgood, hallocs, hdelivers⟩
  exact ⟨t, hsteps, hdelivered, hqueue, hk, hslots⟩

end RingOrder

end Sys2Proof.Machine
end

section
/-!
SUPPORT. The interface and the read-out (43_interface.md): the fields of the STATUS, IFINFO and DESC words, and what
IF_UP and GET_DESC answer at each of their checks; then the obligations of the six commands.
-/

namespace Sys2Proof.Machine

/-! ### The read-out words -/

section Words

variable (s : State) (d : Desc)

/-- The flags of the STATUS word, bits [12:2] (R79). -/
theorem statusWord_flags :
    (statusWord s).getLsbD 2 = s.pend.txc ∧ (statusWord s).getLsbD 3 = s.pend.rxr ∧
      (statusWord s).getLsbD 4 = s.ie.txc ∧ (statusWord s).getLsbD 5 = s.ie.rxr ∧
      (statusWord s).getLsbD 6 = s.act.txc ∧ (statusWord s).getLsbD 7 = s.act.rxr ∧
      (statusWord s).getLsbD 8 = s.txEn ∧ (statusWord s).getLsbD 9 = s.rxEn ∧
      (statusWord s).getLsbD 10 = s.kick ∧ (statusWord s).getLsbD 11 = s.linkUp ∧
      (statusWord s).getLsbD 12 = s.ifcfg := by
  simp only [statusWord, BitVec.getLsbD_append]
  simp

/-- The phase of the STATUS word, bits [1:0] (R79). -/
theorem statusWord_phase : (statusWord s).extractLsb' 0 2 = phaseBits s.phase := BitVec.extractLsb'_append_eq_right

/-- The reserved bits and the two cursors of the STATUS word, bits [31:13] (R79). -/
theorem statusWord_cursors :
    (statusWord s).extractLsb' 13 3 = 0#3 ∧ (statusWord s).extractLsb' 16 8 = BitVec.ofNat 8 s.cur.tx ∧
      (statusWord s).extractLsb' 24 8 = BitVec.ofNat 8 s.cur.rx := by
  simp only [statusWord, BitVec.extractLsb'_append_eq_of_le, Nat.reduceLeDiff, Nat.reduceSub,
    BitVec.extractLsb'_append_eq_right, BitVec.extractLsb'_eq_self, and_self]

/-- The MTU of the IFINFO word, bits [15:0] (R80). -/
theorem ifinfoWord_mtu : (ifinfoWord s).extractLsb' 0 16 = s.mtu := BitVec.extractLsb'_append_eq_right

/-- The flags of the IFINFO word, bits [20:16] (R80). -/
theorem ifinfoWord_flags :
    (ifinfoWord s).getLsbD 16 = s.fBcast ∧ (ifinfoWord s).getLsbD 17 = s.fEtharp ∧
      (ifinfoWord s).getLsbD 18 = s.fEther ∧ (ifinfoWord s).getLsbD 19 = s.linkUp ∧
      (ifinfoWord s).getLsbD 20 = s.ifcfg := by
  simp only [ifinfoWord, BitVec.getLsbD_append]
  simp

/-- The reserved bits of the IFINFO word, bits [31:21] (R80). -/
theorem ifinfoWord_reserved : (ifinfoWord s).extractLsb' 21 11 = 0#11 := by
  simp only [ifinfoWord, BitVec.extractLsb'_append_eq_of_le, Nat.reduceLeDiff, Nat.reduceSub,
    BitVec.extractLsb'_eq_self]

/-- The reserved bits of the DESC word: [30:23], 21 and 18 (R82). -/
theorem descWord_reserved :
    (descWord d).extractLsb' 23 8 = 0#8 ∧ (descWord d).getLsbD 21 = false ∧ (descWord d).getLsbD 18 = false := by
  simp only [descWord, BitVec.getLsbD_append, BitVec.extractLsb'_append_eq_of_le, Nat.reduceLeDiff, Nat.reduceSub,
    BitVec.extractLsb'_append_eq_right]
  simp

variable {d}

theorem descWord_own_of_controllerOwned (ho : d.own = .controllerOwned) : (descWord d).getLsbD 31 = true := by
  simp only [descWord, BitVec.getLsbD_append]
  simp [ho]

/-- The upper half of a HostOwned slot's DESC word, as fields and as the sum of R155. -/
theorem descFlags_eq_sum : ∀ runt good oversize crc irqp : Bool,
    (BitVec.ofBool false ++ 0#8 ++ BitVec.ofBool runt ++ 0#1 ++ BitVec.ofBool good ++ BitVec.ofBool oversize ++ 0#1
      ++ BitVec.ofBool crc ++ BitVec.ofBool irqp).setWidth 32 <<< 16 =
    boolWord runt <<< 22 ||| boolWord good <<< 20 ||| boolWord oversize <<< 19 ||| boolWord crc <<< 17
      ||| boolWord irqp <<< 16 := by
  decide

/-- The DESC word of a HostOwned slot is the sum of R155: its upper half moved up, over the length. -/
theorem descWord_of_hostOwned (ho : d.own = .hostOwned) :
    descWord d = (boolWord d.st.runt <<< 22 ||| boolWord d.st.good <<< 20 ||| boolWord d.st.oversize <<< 19
      ||| boolWord d.st.crc <<< 17 ||| boolWord d.st.irqp <<< 16 ||| d.len.setWidth 32) := by
  have hown : decide (d.own = .controllerOwned) = false := by simp [ho]
  rw [descWord, hown, ← descFlags_eq_sum, ← BitVec.setWidth_append_eq_shiftLeft_setWidth_or, BitVec.setWidth_eq]

end Words

/-! ### IF_UP -/

section IfUp

variable {s : State} {mtu : Half} {payload : List Byte} {a : HwAddr}

/-- A payload of another length than 6 is no hardware address (R83). -/
theorem hwAddrOf_eq_none (h : payload.length ≠ 6) : hwAddrOf payload = none := by
  unfold hwAddrOf
  split
  · exact absurd rfl h
  · rfl

/-- A payload of 6 bytes is a hardware address in transmission order (R56, R83). -/
theorem hwAddrOf_eq_some (h : payload.length = 6) : ∃ a, hwAddrOf payload = some a ∧ hwAddrBytes a = payload :=
  match payload, h with
  | [b0, b1, b2, b3, b4, b5], _ => ⟨⟨b0, b1, b2, b3, b4, b5⟩, rfl, rfl⟩

theorem execIfUp_of_uninit (hp : s.phase = .uninit) :
    execIfUp mtu payload s = .next (raise s (encodeWord (.ifUp mtu payload)) .errNotInit) := by
  simp [execIfUp, hp]

theorem execIfUp_of_fatal (hp : s.phase = .fatal) :
    execIfUp mtu payload s = .next (raise s (encodeWord (.ifUp mtu payload)) .errFatal) := by
  simp [execIfUp, hp]

/-- In READY only the checks of the arguments and of `ifcfg` are left (R150). -/
theorem execIfUp_of_ready (hp : s.phase = .ready) : execIfUp mtu payload s = ifUpReady mtu payload s := by
  simp [execIfUp, hp]

theorem ifUpReady_of_badLength (h : payload.length ≠ 6) :
    ifUpReady mtu payload s = .next (raise s (encodeWord (.ifUp mtu payload)) .errLen) := by
  simp [ifUpReady, hwAddrOf_eq_none h]

theorem ifUpReady_of_badMtu (ha : hwAddrOf payload = some a) (hm : ¬mtuOk s.cfg (requestedMtu mtu) = true) :
    ifUpReady mtu payload s = .next (raise s (encodeWord (.ifUp mtu payload)) .errMtu) := by
  simp [ifUpReady, ha, hm]

theorem ifUpReady_of_configured (ha : hwAddrOf payload = some a) (hm : mtuOk s.cfg (requestedMtu mtu) = true)
    (hi : s.ifcfg = true) :
    ifUpReady mtu payload s = .next (raise s (encodeWord (.ifUp mtu payload)) .errState) := by
  simp [ifUpReady, ha, hm, hi]

theorem ifUpReady_of_unconfigured (ha : hwAddrOf payload = some a) (hm : mtuOk s.cfg (requestedMtu mtu) = true)
    (hi : s.ifcfg = false) :
    ifUpReady mtu payload s = .next (finish (ifUpState s a (requestedMtu mtu)) (encodeWord (.ifUp mtu payload)) .ok
      ((requestedMtu mtu).setWidth 32) []) := by
  simp [ifUpReady, ha, hm, hi]

end IfUp

/-- Settles O35: one lemma for each check, and the state that the last one leaves is `ifUpState`. -/
theorem ifUpBringsTheInterfaceUp : Obligations.IfUpBringsTheInterfaceUp := by
  intro mtu m payload s hreq
  obtain rfl : m = requestedMtu mtu := hreq
  have hready (hp : s.phase = .ready) : exec (.ifUp mtu payload) s = ifUpReady mtu payload s := execIfUp_of_ready hp
  refine ⟨execIfUp_of_uninit, execIfUp_of_fatal, fun hp hlen => ?_, fun hp hlen hbad => ?_,
    fun hp hlen hpos hmax hi => ?_, fun hp hlen hpos hmax hi => ?_⟩
  · exact (hready hp).trans (ifUpReady_of_badLength hlen)
  · obtain ⟨a, ha, -⟩ := hwAddrOf_eq_some hlen
    exact (hready hp).trans (ifUpReady_of_badMtu ha (mtuOk_iff.not.2 hbad))
  · obtain ⟨a, ha, -⟩ := hwAddrOf_eq_some hlen
    exact (hready hp).trans (ifUpReady_of_configured ha (mtuOk_iff.2 ⟨hpos, hmax⟩) hi)
  · obtain ⟨a, ha, hbytes⟩ := hwAddrOf_eq_some hlen
    exact ⟨a, hbytes, (hready hp).trans (ifUpReady_of_unconfigured ha (mtuOk_iff.2 ⟨hpos, hmax⟩) hi)⟩

/-! ### LINK_POLL, GET_STATUS, GET_IFINFO and GET_COUNTERS -/

/-- Settles O36: it is LINK_POLL's one write and its result, without a look at the phase. -/
theorem linkPollCopiesThePhyLink : Obligations.LinkPollCopiesThePhyLink := fun _ => rfl

/-- Settles O37: the value is `statusWord`, read field by field. -/
theorem getStatusReadsTheStatusWord : Obligations.GetStatusReadsTheStatusWord := by
  intro s
  obtain ⟨hpendTx, hpendRx, hieTx, hieRx, hactTx, hactRx, htxEn, hrxEn, hkick, hlink, hifcfg⟩ := statusWord_flags s
  exact ⟨statusWord s, rfl, statusWord_phase s, hpendTx, hpendRx, hieTx, hieRx, hactTx, hactRx, htxEn, hrxEn, hkick,
    hlink, hifcfg, statusWord_cursors s⟩

/-- Settles O38: the value is `ifinfoWord`, read field by field. -/
theorem getIfinfoReadsTheHandle : Obligations.GetIfinfoReadsTheHandle := by
  intro s
  obtain ⟨hbcast, hetharp, hether, hlink, hifcfg⟩ := ifinfoWord_flags s
  exact ⟨ifinfoWord s, rfl, ifinfoWord_mtu s, hbcast, hetharp, hether, hlink, hifcfg, ifinfoWord_reserved s⟩

/-- Settles O39: the word of each selector and the counter it names, by their definitions. -/
theorem getCountersReadsTheSelectedCounter : Obligations.GetCountersReadsTheSelectedCounter :=
  fun _ => ⟨rfl, rfl, rfl, rfl⟩

/-! ### GET_DESC -/

section GetDesc

variable {s : State} {r : Ring} {idx : Byte} {d : Desc}

theorem execGetDesc_of_uninit (hp : s.phase = .uninit) :
    execGetDesc r idx s = .next (raise s (encodeWord (.getDesc r idx)) .errNotInit) := by
  simp [execGetDesc, hp]

/-- Outside UNINIT, in FATAL too, GET_DESC is its range check and the read (R155). -/
theorem execGetDesc_of_not_uninit (hp : s.phase ≠ .uninit) : execGetDesc r idx s = getDescAt r idx s := by
  cases h : s.phase with
  | uninit => exact absurd h hp
  | ready => simp [execGetDesc, h]
  | fatal => simp [execGetDesc, h]

theorem getDescAt_of_outOfRange (hi : s.cfg.card r ≤ idx.toNat) :
    getDescAt r idx s = .next (raise s (encodeWord (.getDesc r idx)) .errRange) := if_pos hi

theorem getDescAt_of_inRange (hi : idx.toNat < s.cfg.card r) (hd : readDesc s r idx.toNat = .ok d) :
    getDescAt r idx s = .next (finish s (encodeWord (.getDesc r idx)) .ok (descWord d) []) := by
  simp [getDescAt, Nat.not_le.2 hi, hd]

end GetDesc

/-- Settles O40: one lemma for each check; the value is `descWord`, whose sum is claimed for a HostOwned slot only. -/
theorem getDescReadsOneDescriptor : Obligations.GetDescReadsOneDescriptor := by
  intro r idx s
  refine ⟨execGetDesc_of_uninit, fun hp hi => ?_, fun d hp hi hslot => ?_⟩
  · exact (execGetDesc_of_not_uninit hp).trans (getDescAt_of_outOfRange hi)
  · have hexec : exec (.getDesc r idx) s = .next (finish s (encodeWord (.getDesc r idx)) .ok (descWord d) []) :=
      (execGetDesc_of_not_uninit hp).trans (getDescAt_of_inRange hi (readDesc_eq_ok.2 hslot))
    refine ⟨fun ho => ?_, fun ho => ?_⟩
    · rw [hexec, descWord_of_hostOwned ho]
      rfl
    · exact ⟨descWord d, hexec, descWord_own_of_controllerOwned ho, descWord_reserved d⟩

end Sys2Proof.Machine
end

section
/-!
SUPPORT. The controller port (44_controller_port.md): what each event answers at each of its checks, and that no event
touches a HostOwned slot.
-/

namespace Sys2Proof.Machine

/-! ### TX_DONE -/

section TxDone

variable {s : State} {d e : Desc} {frame : List Byte}

theorem execTxDone_of_disabled (hc : ¬(s.phase = .ready ∧ s.txEn = true ∧ s.kick = true)) :
    execTxDone s = .next s := if_neg hc

theorem execTxDone_of_hostOwned (hd : readDesc s .tx s.ccur.tx = .ok d) (ho : d.own = .hostOwned) :
    execTxDone s = .next s := by
  simp [execTxDone, hd, ho]

/-- A TX_DONE that is enabled puts the frame of the slot on the wire and gives the slot back; `e` is the descriptor that
is next after that (R170). -/
theorem execTxDone_of_controllerOwned (hc : s.phase = .ready ∧ s.txEn = true ∧ s.kick = true)
    (hd : readDesc s .tx s.ccur.tx = .ok d) (ho : d.own = .controllerOwned)
    (hframe : memRead s.cfg .tx s.ccur.tx s.mem d.addr.toNat d.len.toNat = .ok frame)
    (he : readDesc (txGiveBack s s.ccur.tx d) .tx (advance s.cfg .tx s.ccur.tx) = .ok e) :
    execTxDone s = .next { txGiveBack s s.ccur.tx d with
      wireOut := s.wireOut ++ [frame]
      kick := decide (e.own = .controllerOwned)
      pend := s.pend.set .txc true } := by
  have hkick : (e.own != .hostOwned) = decide (e.own = .controllerOwned) := by cases e.own <;> rfl
  simp [execTxDone, hc, hd, ho, txComplete, hframe, idleDoorbell, he, hkick]

end TxDone

/-- Settles O41: one lemma for each check; the invariant has the frame and the next descriptor written. -/
theorem txDoneGivesTheSlotBack : Obligations.TxDoneGivesTheSlotBack := by
  intro s
  refine ⟨execTxDone_of_disabled, fun hp hen hkick d hslot => ?_⟩
  have hd : readDesc s .tx s.ccur.tx = .ok d := readDesc_eq_ok.2 hslot
  refine ⟨execTxDone_of_hostOwned hd, fun ho hinv => ?_⟩
  obtain ⟨htx, -⟩ := hinv.rings (by simp [hp])
  obtain ⟨hok, -⟩ := hinv
  obtain ⟨frame, hframe⟩ := htx.memRead_ok hok hd ho
  obtain ⟨e, he⟩ : ∃ e, readDesc (txGiveBack s s.ccur.tx d) .tx (advance s.cfg .tx s.ccur.tx) = .ok e :=
    (htx.after_txGiveBack htx hd).readDesc_ccur
  have hnext : (s.descs.tx.set s.ccur.tx { d with st := Status.txDone, own := .hostOwned })[
      (s.ccur.tx + 1) % s.cfg.nTx]? = some e := readDesc_eq_ok.1 he
  obtain ⟨hlen, hbytes⟩ := memRead_eq_ok.1 hframe
  refine ⟨frame, _, hlen, fun j hj => (hbytes j hj).2, rfl, ?_⟩
  rw [← Status.txDone, hnext]
  simp only [Option.map_some, Option.some.injEq]
  exact execTxDone_of_controllerOwned ⟨hp, hen, hkick⟩ hd ho hframe he

/-! ### RX_FRAME -/

section RxFrame

variable {s : State} {d : Desc} {m : List Host.Cell} {len : Half} {crcErr otherErr : Bool} {bytes : List Byte}

theorem execRxFrame_of_disabled (hc : ¬(s.phase = .ready ∧ s.rxEn = true)) :
    execRxFrame len crcErr otherErr bytes s = .next s := if_neg hc

theorem execRxFrame_of_hostOwned (hc : s.phase = .ready ∧ s.rxEn = true) (hd : readDesc s .rx s.ccur.rx = .ok d)
    (ho : d.own = .hostOwned) :
    execRxFrame len crcErr otherErr bytes s = .next { s with cntMiss := s.cntMiss + 1 } := by
  simp [execRxFrame, hc, hd, ho, inc32]

/-- An RX_FRAME that is enabled stores its frame in the slot and hands the slot over (R171). -/
theorem execRxFrame_of_controllerOwned (hc : s.phase = .ready ∧ s.rxEn = true)
    (hd : readDesc s .rx s.ccur.rx = .ok d) (ho : d.own = .controllerOwned)
    (hm : memWrite s.cfg .rx s.ccur.rx s.mem d.addr.toNat (storedBytes s.cfg len bytes) = .ok m) :
    execRxFrame len crcErr otherErr bytes s = .next { writeDesc s .rx s.ccur.rx
        { d with
          len := BitVec.ofNat 16 (min len.toNat s.cfg.bufCap)
          st := classify s.cfg len crcErr otherErr s.mtu
          own := .hostOwned } with
      mem := m
      ccur := s.ccur.set .rx (advance s.cfg .rx s.ccur.rx)
      pend := s.pend.set .rxr true } := by
  simp [execRxFrame, hc, hd, ho, rxStore, hm]

end RxFrame

/-- Settles O42: one lemma for each check; the slot write stores the bytes that fit and nothing else. -/
theorem rxFrameStoresOrDropsTheFrame : Obligations.RxFrameStoresOrDropsTheFrame := by
  intro len crcErr otherErr bytes s hb
  refine ⟨execRxFrame_of_disabled, fun hp hen d hslot => ?_⟩
  have hd : readDesc s .rx s.ccur.rx = .ok d := readDesc_eq_ok.2 hslot
  refine ⟨execRxFrame_of_hostOwned ⟨hp, hen⟩ hd, fun ho hinv => ?_⟩
  obtain ⟨-, hrx, -⟩ := hinv.rings (by simp [hp])
  obtain ⟨hok, -⟩ := hinv
  have hlen : (storedBytes s.cfg len bytes).length = min len.toNat s.cfg.bufCap := length_storedBytes hb
  obtain ⟨m, hm⟩ := hrx.memWrite_ok hok hd (hlen.trans_le (min_le_right _ _))
  obtain ⟨hin, hout, -⟩ := memWrite_spec hm
  refine ⟨m, execRxFrame_of_controllerOwned ⟨hp, hen⟩ hd ho hm, fun j hj hcap => ?_, hlen ▸ hout⟩
  rw [hin j (by omega)]
  simp [storedBytes]

/-! ### RX_BERR and PHY_LINK -/

/-- Settles O43: the event is one check of the phase. -/
theorem rxBerrEntersFatal : Obligations.RxBerrEntersFatal :=
  fun _ => ⟨fun hp => if_pos hp, fun hp => if_neg hp⟩

/-- Settles O44: PHY_LINK checks nothing. -/
theorem phyLinkWritesTheLinkBit : Obligations.PhyLinkWritesTheLinkBit := fun _ _ => rfl

/-! ### HostOwned slots -/

section HostOwned

variable {s t : State} {r q : Ring} {i j : Nat} {d e : Desc}

/-- Slots of different owners are different slots. -/
theorem slot_ne_of_own_ne (hj : (s.descs.get q)[j]? = some d) (hi : readDesc s r i = .ok e) (hne : d.own ≠ e.own) :
    ¬(q = r ∧ j = i) := by
  rintro ⟨rfl, rfl⟩
  obtain rfl : d = e := Option.some.inj (hj.symm.trans (readDesc_eq_ok.1 hi))
  exact hne rfl

/-- A descriptor that is replaced leaves every other slot of both rings. -/
theorem slotKept_writeDesc (hne : ¬(q = r ∧ j = i)) : SlotKept s (writeDesc s r i e) q j :=
  slotKept_store (a := 0) (bytes := []) rfl hne

/-- TX_DONE writes the slot at the controller cursor, and only where that is the controller's (R170). -/
theorem slotKept_txDone_hostOwned (he : execTxDone s = .next t) (hj : (s.descs.get r)[j]? = some d)
    (ho : d.own = .hostOwned) : SlotKept s t r j := by
  obtain rfl | ⟨c, frame, e, -, -, -, hc, hco, -, -, rfl⟩ := execTxDone_cases he
  · exact .of_eq rfl rfl
  · exact slotKept_writeDesc (slot_ne_of_own_ne hj hc (by simp [ho, hco]))

/-- RX_FRAME writes the slot at the controller cursor, and only where that is the controller's (R171, R34). -/
theorem slotKept_rxFrame_hostOwned {len : Half} {crcErr otherErr : Bool} {bytes : List Byte}
    (he : execRxFrame len crcErr otherErr bytes s = .next t) (hj : (s.descs.get r)[j]? = some d)
    (ho : d.own = .hostOwned) : SlotKept s t r j := by
  obtain rfl | ⟨c, -, -, -, -, rfl⟩ | ⟨c, m, -, -, hc, hco, hm, rfl⟩ := execRxFrame_cases he
  · exact .of_eq rfl rfl
  · exact .of_eq rfl rfl
  · exact slotKept_store hm (slot_ne_of_own_ne hj hc (by simp [ho, hco]))

/-- No event touches a slot the host owns (R175). -/
theorem slotKept_controller {i : Instr} (hport : i.port = .controller) (he : exec i s = .next t)
    (hj : (s.descs.get r)[j]? = some d) (ho : d.own = .hostOwned) : SlotKept s t r j := by
  cases i with
  | txDone => exact slotKept_txDone_hostOwned he hj ho
  | rxFrame len crcErr otherErr bytes => exact slotKept_rxFrame_hostOwned he hj ho
  | rxBerr | phyLink =>
    obtain ⟨-, hdescs, hmem, -⟩ := exec_keeps_rings he nofun nofun nofun nofun nofun
    exact .of_eq (by rw [hdescs]) hmem
  | _ => cases hport

end HostOwned

/-- Settles O45: each event keeps the slot, whose buffer is at its descriptor's address. -/
theorem controllerNeverWritesAHostOwnedSlot : Obligations.ControllerNeverWritesAHostOwnedSlot := by
  intro i s t r j d h _ hport he hj ho
  obtain ⟨hdesc, hbytes⟩ := slotKept_controller hport he hj ho
  exact ⟨hdesc.trans hj, fun k hk => hbytes _ (h.inSlot_addr hj hk)⟩

end Sys2Proof.Machine
end

section
/-!
SUPPORT. The completion commands (45_completion.md): the writes of ACK_TX and IRQ_MASK, and what EOI answers in the
running handler and outside it.
-/

namespace Sys2Proof.Machine

/-! ### ACK_TX and IRQ_MASK -/

/-- Settles O46: it is ACK_TX's one write and its result, without a look at the phase. -/
theorem ackTxClearsTransmitComplete : Obligations.AckTxClearsTransmitComplete := fun _ => rfl

/-- The word of IRQ_MASK is its operation code with the two enables as the lowest bits (R73). -/
theorem encodeWord_irqMask_eq_or (tx rx : Bool) : encodeWord (.irqMask tx rx) =
    0xB0000000#32 ||| (if rx then 2#32 else 0#32) ||| (if tx then 1#32 else 0#32) := by
  cases tx <;> cases rx <;> rfl

/-- Settles O47: it is IRQ_MASK's two writes and its result, recorded with the word of its operands. -/
theorem irqMaskWritesBothEnables : Obligations.IrqMaskWritesBothEnables := by
  intro tx rx s
  rw [← encodeWord_irqMask_eq_or]
  rfl

/-! ### EOI -/

section Eoi

variable {s : State} {src : Source}

/-- The mainline, as which the empty stack counts (entry 10), is no handler: a running handler is on the stack. -/
theorem running_eq_handlerOf_iff : running s = handlerOf src ↔ s.ctxStack.head? = some (handlerOf src) := by
  unfold running
  cases s.ctxStack with
  | nil => cases src <;> simp [handlerOf]
  | cons c rest => simp

/-- The result stays recorded when the handler returns; only `act` and the stack are written beside it (R192). -/
theorem returnIsr_finish (w : Word) (code : ResultCode) (v : Word) (p : List Byte) :
    returnIsr (finish s w code v p) src =
      { finish s w code v p with act := s.act.set src false, ctxStack := s.ctxStack.tail } := by
  simp only [returnIsr, finish_act, finish_ctxStack]

theorem execEoi_of_running (hact : s.act.get src = true) (hrun : running s = handlerOf src) :
    execEoi src s = .next (returnIsr (finish s (encodeWord (.eoi src)) .ok 0#32 []) src) := if_pos ⟨hact, hrun⟩

theorem execEoi_of_not_running (h : ¬(s.act.get src = true ∧ running s = handlerOf src)) :
    execEoi src s = .next (raise s (encodeWord (.eoi src)) .errState) := if_neg h

end Eoi

/-- Settles O48: EOI's one check, with the running handler as the head of the stack, and what each answer writes. -/
theorem eoiEndsTheRunningHandler : Obligations.EoiEndsTheRunningHandler := by
  intro src s
  have hhead : running s = handlerOf src ↔
      s.ctxStack.head? = some (match src with | .txc => Ctx.isrTx | .rxr => Ctx.isrRx) := by
    cases src <;> exact running_eq_handlerOf_iff
  intro t w hw
  obtain rfl : w = encodeWord (.eoi src) := by cases src <;> exact hw
  refine ⟨fun hact hrun ht => ?_, fun h => execEoi_of_not_running fun ⟨hact, hrun⟩ => h ⟨hact, hhead.1 hrun⟩⟩
  rw [ht, ← returnIsr_finish]
  exact execEoi_of_running hact (hhead.2 hrun)

end Sys2Proof.Machine
end

section
/-!
SUPPORT. Interrupts, contexts and the FATAL phase (60_exceptions.md): request, entry and return, the handlers' fixed
bodies, the law that keeps each handler inside its body, the depth of the context stack, and what FATAL leaves to do.
-/

namespace Sys2Proof.Machine

/-! ### The step of the agent at the schedule's head -/

/-- No agent's action depends on the schedule, so it is the one the agent has before its turn is taken (entry 1). -/
theorem step_of_agentAction {s : State} {a : Agent} {rest : List Agent} {act : Action} (hok : s.cfg.Ok)
    (hsched : s.sched = a :: rest) (ha : agentAction a s = act) : step s = perform act { s with sched := rest } := by
  have hrest : agentAction a { s with sched := rest } = agentAction a s := by cases a <;> rfl
  rw [step_of_sched hok hsched, hrest, ha]

/-! ### Request and entry -/

section Entry

variable {s : State} {src : Source}

theorem req_iff : req s src = true ↔
    s.pend.get src = true ∧ s.ie.get src = true ∧ s.act.get src = false ∧
      (running s = .mainline ∨ (s.cfg.crossNest = true ∧ running s = handlerOf src.other)) := by
  simp [req, and_assoc]

/-- A source that requests is entered unless the priority names the other source and that one requests too (R205). -/
theorem canEnter_iff : canEnter s src = true ↔
    req s src = true ∧
      ¬(s.cfg.arbPriority = .txFirst ∧ src = .rxr ∧ req s .txc = true) ∧
      ¬(s.cfg.arbPriority = .rxFirst ∧ src = .txc ∧ req s .rxr = true) := by
  unfold canEnter
  cases src <;> cases s.cfg.arbPriority <;> simp

/-- Settles O12: R204's conditions and R205's priorities, the handler of the other source by its name. -/
theorem requestAndArbitration : Obligations.RequestAndArbitration := by
  intro s src
  refine ⟨?_, canEnter_iff⟩
  cases src <;> exact req_iff

theorem agentAction_of_canEnter (hc : canEnter s src = true) : agentAction (.enter src) s = .enter src := if_pos hc

theorem agentAction_of_not_canEnter (hc : canEnter s src = false) : agentAction (.enter src) s = .idle :=
  if_neg (by simp [hc])

/-- Settles O13: an entry that is enabled is ENTER's four writes, any other is the idle action. -/
theorem interruptEntry : Obligations.InterruptEntry := by
  intro s rest src hok hsched
  refine ⟨fun hc => ?_, fun hc => step_of_agentAction hok hsched (agentAction_of_not_canEnter hc)⟩
  rw [step_of_agentAction hok hsched (agentAction_of_canEnter hc)]
  cases src <;> rfl

theorem handlerOf_ne_mainline (src : Source) : handlerOf src ≠ .mainline := by
  cases src <;> simp [handlerOf]

/-- A command that ends in the handler of a source leaves the index of the other handler. -/
theorem finish_ipc_other (hrun : running s = handlerOf src) (w : Word) (code : ResultCode) (v : Word) (p : List Byte) :
    (finish s w code v p).ipc.get src.other = s.ipc.get src.other := by
  cases src
  · simp [Source.other, finish_ipc_rxr, hrun, handlerOf]
  · simp [Source.other, finish_ipc_txc, hrun, handlerOf]

/-- The handler that is entered is the one its EOI ends (R192). -/
theorem execEoi_enterIsr (s : State) (src : Source) : execEoi src (enterIsr s src) =
    .next (returnIsr (finish (enterIsr s src) (encodeWord (.eoi src)) .ok 0#32 []) src) :=
  execEoi_of_running (by simp) (running_enterIsr s src)

/-- Settles O14: right after entry the handler runs, so EOI pops what the entry has pushed. -/
theorem returnRestoresThePreemptedContext : Obligations.ReturnRestoresThePreemptedContext := by
  intro s src t ht
  obtain rfl := Host.Outcome.next.inj ((execEoi_enterIsr s src).symm.trans ht)
  refine ⟨by simp, ?_, ?_, ?_, fun c hc => ?_⟩
  · cases src <;> rfl
  · simp [finish_pc, handlerOf_ne_mainline]
  · rw [returnIsr_ipc, finish_ipc_other (running_enterIsr s src), enterIsr_ipc]
    cases src <;> rfl
  · simp [PerCtx.get_set_ne _ _ hc]

end Entry

/-! ### The depth of the context stack -/

/-- There are three contexts. -/
theorem length_le_three_of_nodup {l : List Ctx} (h : l.Nodup) : l.length ≤ 3 :=
  (h.subperm (l₂ := [.mainline, .isrTx, .isrRx]) fun c _ => by cases c <;> simp).length_le

/-- Settles O60: by the invariant the stack of the next state holds each context at most once, and a source in service
does not request. -/
theorem nestingIsAtMostThreeDeep : Obligations.NestingIsAtMostThreeDeep := by
  intro s t h hs
  obtain ⟨-, -, -, ⟨-, hnodup, -⟩, -⟩ := everyStepKeepsTheInvariant s t h hs
  refine ⟨length_le_three_of_nodup hnodup, hnodup, fun src hact => Bool.eq_false_iff.2 fun hc => ?_⟩
  obtain ⟨-, hact'⟩ := pend_and_not_act_of_canEnter hc
  exact absurd hact (by simp [hact'])

/-! ### The host's step -/

section HostStep

variable {s : State} {src : Source}

theorem hostAction_of_draining {k : Nat} (hd : s.drain.get (running s) = .draining k) :
    hostAction s = .drainStep k := by
  simp [hostAction, hd]

theorem hostAction_of_acking {k : Nat} (hd : s.drain.get (running s) = .acking k) :
    hostAction s = .drainAck k := by
  simp [hostAction, hd]

theorem hostAction_of_mainline_done (hrun : running s = .mainline) (hd : s.drain.mainline = .idle)
    (hdone : s.prog.length ≤ s.pc) : hostAction s = .idle := by
  simp [hostAction, hrun, hd, fetch, hdone]

/-- Everything a host step with no DRAIN in progress can be: none, an illegal word, or a host command (R74, R210). -/
theorem hostAction_cases (hd : s.drain.get (running s) = .idle) :
    hostAction s = .idle ∨ (∃ w, hostAction s = .illegal w) ∨ ∃ i, i.port = .host ∧ hostAction s = .run i := by
  cases hf : fetch s with
  | none => exact .inl (by simp [hostAction, hd, hf])
  | some c =>
    cases hdec : decode .host c.word c.payload with
    | error e => exact .inr (.inl ⟨c.word, by simp [hostAction, hd, hf, commandAction, hdec]⟩)
    | ok i =>
      obtain ⟨hport, -⟩ := encodes_of_decode hdec
      exact .inr (.inr ⟨i, hport, by simp [hostAction, hd, hf, commandAction, hdec]⟩)

/-- Everything a word on the controller port can be: ignored, or an event (R76). -/
theorem controllerAction_cases (w : Word) (payload : List Byte) :
    controllerAction w payload = .idle ∨ ∃ i, i.port = .controller ∧ controllerAction w payload = .run i := by
  cases hdec : decode .controller w payload with
  | error e => exact .inl (by simp [controllerAction, hdec])
  | ok i =>
    obtain ⟨hport, -⟩ := encodes_of_decode hdec
    exact .inr ⟨i, hport, controllerAction_of_decode hdec⟩

/-- The commands of a handler's body as actions, by the handler's index (R207). -/
def bodyAction : Source → Nat → Action
  | .txc, 0 => .run .ackTx
  | .txc, 1 => .run (.eoi .txc)
  | .rxr, 0 => .run .drain
  | .rxr, 1 => .run (.eoi .rxr)
  | _, _ + 2 => .idle

theorem bodyAction_of_two_le {n : Nat} (h : 2 ≤ n) : bodyAction src n = .idle := by
  obtain ⟨m, rfl⟩ := Nat.exists_eq_add_of_le' h
  cases src <;> rfl

/-- With no DRAIN in progress a host step of a handler is the command of its body at its index (R207, R210). -/
theorem hostAction_of_handler (hrun : running s = handlerOf src) (hd : s.drain.get (handlerOf src) = .idle) :
    hostAction s = bodyAction src (s.ipc.get src) := by
  have hfetch : fetch s = (handlerBody src)[s.ipc.get src]? := by
    cases src <;> simp [fetch, hrun, handlerOf]
  rw [hostAction, hrun, hd, hfetch]
  match src, s.ipc.get src with
  | .txc, 0 | .txc, 1 | .txc, _ + 2 | .rxr, 0 | .rxr, 1 | .rxr, _ + 2 => rfl

/-- Settles O11: the DRAIN progress of the running context is what the host looks at first. -/
theorem hostStepContinuesTheDrainFirst : Obligations.HostStepContinuesTheDrainFirst := by
  intro s rest hok hsched
  exact ⟨fun k hd => step_of_agentAction hok hsched (hostAction_of_draining hd),
    fun k hd => step_of_agentAction hok hsched (hostAction_of_acking hd),
    fun hrun hd hdone => step_of_agentAction hok hsched (hostAction_of_mainline_done hrun hd hdone)⟩

section Body

variable {rest : List Agent} (hok : s.cfg.Ok) (hsched : s.sched = .host :: rest) (hrun : running s = handlerOf src)
  (hd : s.drain.get (handlerOf src) = .idle)
include hok hsched hrun hd

theorem step_of_handler {n : Nat} (hi : s.ipc.get src = n) :
    step s = perform (bodyAction src n) { s with sched := rest } :=
  step_of_agentAction hok hsched (hi ▸ hostAction_of_handler hrun hd)

/-- Past its body a handler has no command (R207). -/
theorem step_of_handler_done (hi : 2 ≤ s.ipc.get src) : step s = .next { s with sched := rest } := by
  rw [step_of_handler hok hsched hrun hd rfl, bodyAction_of_two_le hi, perform]

end Body

/-- Settles O10: each clause is the body's action at that index. -/
theorem handlersRunTheirFixedBodies : Obligations.HandlersRunTheirFixedBodies := by
  intro s rest hok hsched
  refine ⟨fun hrun hd => ⟨?_, ?_, ?_⟩, fun hrun hd => ⟨?_, ?_, ?_⟩⟩
  · exact step_of_handler (src := .txc) hok hsched hrun hd
  · exact step_of_handler (src := .txc) hok hsched hrun hd
  · exact step_of_handler_done (src := .txc) hok hsched hrun hd
  · exact step_of_handler (src := .rxr) hok hsched hrun hd
  · exact step_of_handler (src := .rxr) hok hsched hrun hd
  · exact step_of_handler_done (src := .rxr) hok hsched hrun hd

end HostStep

/-! ### The handler law under the operations of the block -/

section HandlerUpdates

variable {s t : State} {src : Source}

/-- The handler law speaks of the stack, the handlers' indexes and the DRAIN progress only. -/
theorem HandlerLaw.of_eq (h : HandlerLaw s) (hstack : t.ctxStack = s.ctxStack) (hipc : t.ipc = s.ipc)
    (hdrain : t.drain = s.drain) : HandlerLaw t := by
  rw [HandlerLaw, hstack, hipc, hdrain]
  exact h

/-- A receive touches no context (R130). -/
theorem ReceiveFrame.contexts_eq (h : ReceiveFrame s t) :
    t.ctxStack = s.ctxStack ∧ t.ipc = s.ipc ∧ t.drain = s.drain := by
  rw [h.eq]
  exact ⟨rfl, rfl, rfl⟩

/-- A handler that runs is on the stack. -/
theorem handlerOf_mem_of_running (hrun : running s = handlerOf src) : handlerOf src ∈ s.ctxStack :=
  List.mem_of_head? (running_eq_handlerOf_iff.1 hrun)

theorem HandlerLaw.ipc_le (h : HandlerLaw s) (hrun : running s = handlerOf src) : s.ipc.get src ≤ 1 := by
  have hmem := handlerOf_mem_of_running hrun
  obtain ⟨htx, hrx⟩ := h
  cases src with
  | txc => exact (htx hmem).1
  | rxr => exact (hrx hmem).1

/-- IsrTx runs no DRAIN, and a DRAIN in progress in IsrRx is its first command. -/
theorem HandlerLaw.of_running_drain (h : HandlerLaw s) (hd : s.drain.get (running s) ≠ .idle) :
    running s ≠ .isrTx ∧ (running s = .isrRx → s.ipc.rxr = 0) := by
  obtain ⟨htx, hrx⟩ := h
  refine ⟨fun hrun => ?_, fun hrun => ?_⟩
  · obtain ⟨-, hidle⟩ := htx (handlerOf_mem_of_running (src := .txc) hrun)
    exact hd (by rw [hrun]; exact hidle)
  · obtain ⟨-, hfirst⟩ := hrx (handlerOf_mem_of_running (src := .rxr) hrun)
    exact hfirst (by rwa [hrun] at hd)

/-- The end of a command keeps the law where a handler that runs it is at its first command, with no DRAIN left. -/
theorem HandlerLaw.after_finish (h : HandlerLaw s) (htx : running s = .isrTx → s.ipc.txc = 0)
    (hrx : running s = .isrRx → s.ipc.rxr = 0 ∧ s.drain.isrRx = .idle) (w : Word) (code : ResultCode) (v : Word)
    (p : List Byte) : HandlerLaw (finish s w code v p) := by
  obtain ⟨htxLaw, hrxLaw⟩ := h
  simp only [HandlerLaw, finish_ctxStack, finish_drain, finish_ipc_txc, finish_ipc_rxr]
  refine ⟨fun hmem => ?_, fun hmem => ?_⟩
  · obtain ⟨hle, hidle⟩ := htxLaw hmem
    split
    case isTrue hrun => simp [htx hrun, hidle]
    case isFalse => exact ⟨hle, hidle⟩
  · obtain ⟨hle, hfirst⟩ := hrxLaw hmem
    split
    case isTrue hrun => simp [hrx hrun]
    case isFalse => exact ⟨hle, hfirst⟩

/-- A DRAIN may progress in the mainline and as the first command of IsrRx. -/
theorem HandlerLaw.after_setDrain (h : HandlerLaw s) (htx : running s ≠ .isrTx)
    (hrx : running s = .isrRx → s.ipc.rxr = 0) (d : DrainState) : HandlerLaw (setDrain s d) := by
  obtain ⟨htxLaw, hrxLaw⟩ := h
  refine ⟨fun hmem => ?_, fun hmem => ?_⟩
  · obtain ⟨hle, hidle⟩ := htxLaw hmem
    exact ⟨hle, (PerCtx.get_set_ne s.drain d htx.symm).trans hidle⟩
  · obtain ⟨hle, hfirst⟩ := hrxLaw hmem
    refine ⟨hle, fun hd => ?_⟩
    by_cases hrun : running s = .isrRx
    · exact hrx hrun
    · exact hfirst (by rwa [setDrain_drain, ← PerCtx.get_isrRx, PerCtx.get_set_ne _ _ (Ne.symm hrun)] at hd)

/-- A handler is entered at index 0 with no DRAIN in progress (R206). -/
theorem HandlerLaw.after_enterIsr (h : HandlerLaw s) (src : Source) : HandlerLaw (enterIsr s src) := by
  obtain ⟨htxLaw, hrxLaw⟩ := h
  cases src with
  | txc => exact ⟨fun _ => ⟨Nat.zero_le _, rfl⟩, fun hmem => hrxLaw (by simpa [handlerOf] using hmem)⟩
  | rxr => exact ⟨fun hmem => htxLaw (by simpa [handlerOf] using hmem), fun _ => ⟨Nat.zero_le _, fun _ => rfl⟩⟩

/-- A handler that returns is no longer on the stack (R208, R32). -/
theorem CtxLaw.handlerOf_not_mem_tail (h : CtxLaw s) (hrun : running s = handlerOf src) :
    handlerOf src ∉ s.ctxStack.tail := by
  simpa using (h.after_returnIsr hrun).handlerOf_mem_iff (src := src)

/-- The return takes the handler that runs off the stack, and the other one is as it was (R208). -/
theorem HandlerLaw.after_return (h : HandlerLaw s) (hctx : CtxLaw s) (hrun : running s = handlerOf src) (w : Word)
    (code : ResultCode) (v : Word) (p : List Byte) : HandlerLaw (returnIsr (finish s w code v p) src) := by
  obtain ⟨htxLaw, hrxLaw⟩ := h
  have hgone := hctx.handlerOf_not_mem_tail hrun
  have hother := finish_ipc_other hrun w code v p
  simp only [HandlerLaw, returnIsr_ctxStack, finish_ctxStack, returnIsr_drain, finish_drain, returnIsr_ipc]
  cases src with
  | txc =>
    refine ⟨fun hmem => absurd hmem hgone, fun hmem => ?_⟩
    rw [show (finish s w code v p).ipc.rxr = s.ipc.rxr from hother]
    exact hrxLaw (List.mem_of_mem_tail hmem)
  | rxr =>
    refine ⟨fun hmem => ?_, fun hmem => absurd hmem hgone⟩
    rw [show (finish s w code v p).ipc.txc = s.ipc.txc from hother]
    exact htxLaw (List.mem_of_mem_tail hmem)

end HandlerUpdates

/-! ### The instructions keep the handler law -/

section HandlerInstructions

variable {s t : State} {src : Source}

/-- Every host command but DRAIN and EOI is one step that ends with its result and touches no context before that
(R8, R210). -/
theorem exec_ends {i : Instr} (hport : i.port = .host) (hdrain : i ≠ .drain) (heoi : ∀ src, i ≠ .eoi src)
    (he : exec i s = .next t) :
    ∃ u w code v p, t = finish u w code v p ∧ u.ctxStack = s.ctxStack ∧ u.ipc = s.ipc ∧ u.drain = s.drain := by
  cases i with
  | init => obtain ⟨-, rfl⟩ | ⟨-, rfl⟩ := execInit_cases he <;> exact ⟨_, _, _, _, _, rfl, rfl, rfl, rfl⟩
  | ifUp mtu payload =>
    obtain ⟨code, rfl⟩ | ⟨a, -, -, -, -, rfl⟩ := execIfUp_cases he <;> exact ⟨_, _, _, _, _, rfl, rfl, rfl, rfl⟩
  | transmit len frame =>
    obtain ⟨code, rfl⟩ | ⟨d, m, -, -, -, -, -, -, rfl⟩ := execTransmit_cases he <;>
      exact ⟨_, _, _, _, _, rfl, rfl, rfl, rfl⟩
  | receive =>
    obtain ⟨code, -, rfl⟩ | ⟨u, -, hu, rfl⟩ | ⟨v, frame, u, -, hu, rfl⟩ := execReceive_cases he
    · exact ⟨_, _, _, _, _, rfl, rfl, rfl, rfl⟩
    · exact ⟨u, _, _, _, _, rfl, (receiveFrom_frameLaw hu).contexts_eq⟩
    · exact ⟨u, _, _, _, _, rfl, (receiveFrom_frameLaw hu).contexts_eq⟩
  | getDesc ring idx =>
    obtain ⟨code, rfl⟩ | ⟨d, -, -, -, rfl⟩ := execGetDesc_cases he <;> exact ⟨_, _, _, _, _, rfl, rfl, rfl, rfl⟩
  | ackRx | ackTx | linkPoll | getStatus | getIfinfo | irqMask tx rx | getCounters sel =>
    cases he
    exact ⟨_, _, _, _, _, rfl, rfl, rfl, rfl⟩
  | drain => exact absurd rfl hdrain
  | eoi src => exact absurd rfl (heoi src)
  | txDone | rxFrame len crcErr otherErr bytes | rxBerr | phyLink v => cases hport

/-- A host command but DRAIN and EOI keeps the law in the mainline and as the first command of a handler. -/
theorem exec_ends_handlerLaw {i : Instr} (h : HandlerLaw s) (hport : i.port = .host) (hdrain : i ≠ .drain)
    (heoi : ∀ src, i ≠ .eoi src) (htx : running s = .isrTx → s.ipc.txc = 0)
    (hrx : running s = .isrRx → s.ipc.rxr = 0 ∧ s.drain.isrRx = .idle) (he : exec i s = .next t) : HandlerLaw t := by
  obtain ⟨u, w, code, v, p, rfl, hstack, hipc, hprogress⟩ := exec_ends hport hdrain heoi he
  rw [← running_congr hstack, ← hipc] at htx hrx
  rw [← hprogress] at hrx
  exact (h.of_eq hstack hipc hprogress).after_finish htx hrx w code v p

/-- DRAIN keeps the law in the mainline and as the first command of IsrRx (R132). -/
theorem execDrain_handlerLaw (h : HandlerLaw s) (htx : running s ≠ .isrTx)
    (hrx : running s = .isrRx → s.ipc.rxr = 0 ∧ s.drain.isrRx = .idle) (he : execDrain s = .next t) : HandlerLaw t := by
  obtain ⟨-, rfl⟩ | ⟨-, rfl⟩ := execDrain_cases he
  · exact h.after_finish (absurd · htx) hrx _ _ _ _
  · exact h.after_setDrain htx (fun hrun => (hrx hrun).1) _

/-- EOI keeps the law in the handler that it ends and in the mainline, where it is an error (R192). -/
theorem execEoi_handlerLaw (h : HandlerLaw s) (hctx : CtxLaw s)
    (hrun : running s = handlerOf src ∨ running s = .mainline) (he : execEoi src s = .next t) : HandlerLaw t := by
  obtain ⟨-, hhandler, rfl⟩ | ⟨hwrong, rfl⟩ := execEoi_cases he
  · exact h.after_return hctx hhandler _ _ _ _
  · obtain hhandler | hmain := hrun
    · exact absurd ⟨hctx.handlerOf_mem_iff.1 (handlerOf_mem_of_running hhandler), hhandler⟩ hwrong
    · exact h.after_finish (by simp [hmain]) (by simp [hmain]) _ _ _ _

/-- No event touches a context (R6). -/
theorem exec_controller_handlerLaw {i : Instr} (h : HandlerLaw s) (hport : i.port = .controller)
    (he : exec i s = .next t) : HandlerLaw t := by
  have hdrain : i ≠ .drain := by rintro rfl; cases hport
  have heoi : ∀ src, i ≠ .eoi src := by rintro src rfl; cases hport
  obtain ⟨-, -, -, -, -, -, -, hstack, hprogress, -, -, -, -, -, -, -, -, -, -, -, hindexes⟩ :=
    onlyTheNamedInstructionsWriteEachField i s t he
  obtain ⟨-, hstack⟩ := hstack heoi
  obtain ⟨-, -, hipc⟩ := hindexes hport
  exact h.of_eq hstack hipc (hprogress hdrain)

/-- Every command keeps the law in the mainline. -/
theorem exec_mainline_handlerLaw {i : Instr} (h : HandlerLaw s) (hctx : CtxLaw s) (hrun : running s = .mainline)
    (hport : i.port = .host) (he : exec i s = .next t) : HandlerLaw t := by
  have htx : running s ≠ .isrTx := by simp [hrun]
  have hrx : running s ≠ .isrRx := by simp [hrun]
  by_cases hdrain : i = .drain
  · subst hdrain
    exact execDrain_handlerLaw h htx (absurd · hrx) he
  · by_cases heoi : ∃ src, i = .eoi src
    · obtain ⟨src, rfl⟩ := heoi
      exact execEoi_handlerLaw h hctx (.inr hrun) he
    · exact exec_ends_handlerLaw h hport hdrain (not_exists.1 heoi) (absurd · htx) (absurd · hrx) he

end HandlerInstructions

/-! ### Every step keeps the handler law -/

section HandlerSteps

variable {s t : State} {src : Source}

/-- A DRAIN in progress may go on (R132). -/
theorem HandlerLaw.after_progress (h : HandlerLaw s) (hd : s.drain.get (running s) ≠ .idle) (d : DrainState) :
    HandlerLaw (setDrain s d) := by
  obtain ⟨htx, hrx⟩ := h.of_running_drain hd
  exact h.after_setDrain htx hrx d

/-- The end of a DRAIN leaves none in progress, and IsrRx at the command after it (R132, R207). -/
theorem HandlerLaw.after_endDrain (h : HandlerLaw s) (hd : s.drain.get (running s) ≠ .idle) (code : ResultCode)
    (k : Nat) : HandlerLaw (endDrain s code k) := by
  obtain ⟨htx, hrx⟩ := h.of_running_drain hd
  have hset : HandlerLaw (setDrain { s with pend := s.pend.set .rxr false } .idle) :=
    HandlerLaw.after_progress (s := { s with pend := s.pend.set .rxr false }) h hd .idle
  refine hset.after_finish (absurd · htx) (fun hrun => ⟨hrx hrun, ?_⟩) _ _ _ _
  change running s = .isrRx at hrun
  change (s.drain.set (running s) .idle).isrRx = .idle
  rw [hrun]
  rfl

theorem HandlerLaw.after_deliver (h : HandlerLaw s) (hd : s.drain.get (running s) ≠ .idle) (k : Nat)
    (frame : List Byte) : HandlerLaw (deliver s k frame) := by
  have hdraw : HandlerLaw (drawDeliver s).2 := h.of_eq (by simp) (by simp) (by simp)
  obtain ⟨-, ht⟩ | ⟨-, ht⟩ := deliver_cases s k frame <;> rw [ht]
  · rw [← drawDeliver_drain s, ← running_congr (drawDeliver_ctxStack s)] at hd
    exact HandlerLaw.after_progress (s := { (drawDeliver s).2 with delivered := s.delivered ++ [frame] }) hdraw hd _
  · exact hdraw

/-- A receive leaves the law and the DRAIN in progress as they are. -/
theorem HandlerLaw.after_receiveFrom {o : Option (Word × List Byte)} (h : HandlerLaw s)
    (hd : s.drain.get (running s) ≠ .idle) (hu : receiveFrom s = .ok (o, t)) :
    HandlerLaw t ∧ t.drain.get (running t) ≠ .idle := by
  obtain ⟨hstack, hipc, hdrain⟩ := (receiveFrom_frameLaw hu).contexts_eq
  exact ⟨h.of_eq hstack hipc hdrain, by rwa [hdrain, running_congr hstack]⟩

/-- A DRAIN_STEP keeps the law where a DRAIN is in progress (R132). -/
theorem drainStep_handlerLaw {k : Nat} (h : HandlerLaw s) (hd : s.drain.get (running s) ≠ .idle)
    (hs : drainStep k s = .next t) : HandlerLaw t := by
  obtain ⟨-, rfl⟩ | ⟨u, -, hu, rfl⟩ | ⟨v, frame, u, -, hu, rfl⟩ := drainStep_cases hs
  · exact h.after_endDrain hd _ k
  · obtain ⟨hlaw, hd⟩ := h.after_receiveFrom hd hu
    exact hlaw.after_progress hd _
  · obtain ⟨hlaw, hd⟩ := h.after_receiveFrom hd hu
    exact hlaw.after_deliver hd k frame

/-- A command of a handler's own body keeps the law: ACK_TX ends, DRAIN starts, and EOI returns (R207). -/
theorem bodyAction_handlerLaw (h : HandlerLaw s) (hctx : CtxLaw s) (hrun : running s = handlerOf src)
    (hd : s.drain.get (handlerOf src) = .idle) (hs : perform (bodyAction src (s.ipc.get src)) s = .next t) :
    HandlerLaw t := by
  obtain hi | hi := Nat.le_one_iff_eq_zero_or_eq_one.1 (h.ipc_le hrun) <;> rw [hi] at hs
  · cases src with
    | txc =>
      exact exec_ends_handlerLaw (i := .ackTx) h rfl nofun nofun (fun _ => hi) (by simp [hrun, handlerOf]) hs
    | rxr => exact execDrain_handlerLaw h (by simp [hrun, handlerOf]) (fun _ => ⟨hi, hd⟩) hs
  · have he : execEoi src s = .next t := by cases src <;> exact hs
    exact execEoi_handlerLaw h hctx (.inl hrun) he

/-- With no DRAIN in progress a host step of the mainline is a host command, an illegal word, or none. -/
theorem mainline_hostAction_handlerLaw (h : HandlerLaw s) (hctx : CtxLaw s) (hrun : running s = .mainline)
    (hd : s.drain.get (running s) = .idle) (hs : perform (hostAction s) s = .next t) : HandlerLaw t := by
  obtain ha | ⟨w, ha⟩ | ⟨i, hport, ha⟩ := hostAction_cases hd <;> rw [ha] at hs
  · cases hs; exact h
  · cases hs; exact h.after_finish (by simp [hrun]) (by simp [hrun]) _ _ _ _
  · exact exec_mainline_handlerLaw h hctx hrun hport hs

/-- A host step keeps the law: it goes on with a DRAIN, or it is the mainline's or a handler's next command (R210). -/
theorem hostAction_handlerLaw (h : HandlerLaw s) (hctx : CtxLaw s) (hs : perform (hostAction s) s = .next t) :
    HandlerLaw t := by
  cases hd : s.drain.get (running s) with
  | draining k =>
    rw [hostAction_of_draining hd] at hs
    exact drainStep_handlerLaw h (by simp [hd]) hs
  | acking k =>
    rw [hostAction_of_acking hd] at hs
    cases hs
    exact h.after_endDrain (by simp [hd]) _ k
  | idle =>
    have handler (src : Source) (hrun : running s = handlerOf src) : HandlerLaw t := by
      rw [hrun] at hd
      rw [hostAction_of_handler hrun hd] at hs
      exact bodyAction_handlerLaw h hctx hrun hd hs
    cases hrun : running s with
    | mainline => exact mainline_hostAction_handlerLaw h hctx hrun hd hs
    | isrTx => exact handler .txc hrun
    | isrRx => exact handler .rxr hrun

/-- A word on the controller port keeps the law: it is an event, or it is ignored (R76). -/
theorem controllerAction_handlerLaw {w : Word} {payload : List Byte} (h : HandlerLaw s)
    (hs : perform (controllerAction w payload) s = .next t) : HandlerLaw t := by
  obtain ha | ⟨i, hport, ha⟩ := controllerAction_cases w payload <;> rw [ha] at hs
  · cases hs; exact h
  · exact exec_controller_handlerLaw h hport hs

/-- An agent's action keeps the law. -/
theorem perform_handlerLaw {a : Agent} (h : HandlerLaw s) (hctx : CtxLaw s)
    (hs : perform (agentAction a s) s = .next t) : HandlerLaw t := by
  cases a with
  | host => exact hostAction_handlerLaw h hctx hs
  | enter src =>
    cases hc : canEnter s src with
    | true => rw [agentAction_of_canEnter hc] at hs; cases hs; exact h.after_enterIsr src
    | false => rw [agentAction_of_not_canEnter hc] at hs; cases hs; exact h
  | controller w payload => exact controllerAction_handlerLaw h hs

/-- Settles O59: the choice of the agent touches nothing the law speaks of, and the agent's action keeps it. -/
theorem handlersStayInTheirBodies : Obligations.HandlersStayInTheirBodies := by
  intro s t hinv h hs
  obtain ⟨-, hs⟩ := step_cases hs
  obtain ⟨-, -, -, hctx, -⟩ := hinv.after_pickAgent
  exact perform_handlerLaw (h.of_eq (by simp) (by simp) (by simp)) hctx hs

end HandlerSteps

/-! ### FATAL -/

section Fatal

variable {s t : State}

theorem running_endDrain (s : State) (code : ResultCode) (k : Nat) : running (endDrain s code k) = running s :=
  running_finish _ _ _ _ _

/-- The end of a DRAIN: the notification cleared, no DRAIN in progress, and the result recorded (R132). -/
theorem endDrain_spec (s : State) (code : ResultCode) (k : Nat) :
    (endDrain s code k).pend.rxr = false ∧ (endDrain s code k).drain.get (running (endDrain s code k)) = .idle ∧
      (endDrain s code k).phase = s.phase ∧
      (endDrain s code k).results.getLast?.map (fun e => e.result.code) = some code := by
  rw [running_endDrain]
  refine ⟨by simp [endDrain], ?_, by simp [endDrain], by simp [endDrain]⟩
  simp only [endDrain, finish_drain, setDrain_drain]
  exact PerCtx.get_set_same _ _ _

/-- No instruction but INIT leaves FATAL (R211). -/
theorem exec_keeps_fatal {i : Instr} (hp : s.phase = .fatal) (hinit : i ≠ .init) (he : exec i s = .next t) :
    t.phase = .fatal := by
  by_cases hberr : i = .rxBerr
  · subst hberr
    obtain ⟨-, rfl⟩ | ⟨hready, -⟩ := execRxBerr_cases he
    · exact hp
    · exact absurd hready (by simp [hp])
  · obtain ⟨-, hphase, -⟩ := onlyTheNamedInstructionsWriteEachField i s t he
    exact (hphase hinit hberr).trans hp

/-- Settles O51: what each instruction that checks the phase answers in FATAL, the end of a DRAIN, and INIT. -/
theorem onlyInitLeavesFatal : Obligations.OnlyInitLeavesFatal := by
  intro s hp
  have hne : s.phase ≠ .ready := by simp [hp]
  refine ⟨fun len frame => execTransmit_of_fatal hp, execReceive_of_fatal hp, fun mtu payload => execIfUp_of_fatal hp,
    execDrain_of_not_uninit (by simp [hp]), fun k t ht => ?_, execTxDone_of_disabled (fun hc => hne hc.1), if_neg hne,
    fun len crcErr otherErr bytes => execRxFrame_of_disabled (fun hc => hne hc.1),
    fun i t hinit he => exec_keeps_fatal hp hinit he, fun hpool => ⟨_, exec_init_of_le_pool hpool, by simp⟩⟩
  obtain rfl := Host.Outcome.next.inj ((drainStep_of_fatal hp).symm.trans ht)
  simpa only [hp] using endDrain_spec s .errFatal k

end Fatal

end Sys2Proof.Machine
end

section
/-!
SUPPORT. Reset and hazards (70_reset_and_hazards.md): what a stored frame leaves in its slot and in the receive
notification, and the DRAIN_ACK that takes only the notification back.
-/

namespace Sys2Proof.Machine

/-! ### The lost receive-ready notification -/

section LostNotification

variable {s t : State} {d : Desc} {len : Half} {crcErr otherErr : Bool} {bytes : List Byte}

/-- An enabled RX_FRAME that finds its slot ControllerOwned stores the frame there, or faults (R171). -/
theorem execRxFrame_eq_rxStore (hc : s.phase = .ready ∧ s.rxEn = true) (hd : readDesc s .rx s.ccur.rx = .ok d)
    (ho : d.own = .controllerOwned) :
    execRxFrame len crcErr otherErr bytes s = rxStore len crcErr otherErr bytes d s := by
  simp [execRxFrame, hc, hd, ho]

/-- A store sets the receive notification and hands its slot to the host (R171). -/
theorem rxStore_notifies_and_handsOver (hd : readDesc s .rx s.ccur.rx = .ok d)
    (hs : rxStore len crcErr otherErr bytes d s = .next t) :
    t.pend.rxr = true ∧ (t.descs.get .rx)[s.ccur.rx]?.map (fun e => e.own) = some .hostOwned := by
  unfold rxStore at hs
  split at hs
  · cases hs
  · cases hs
    exact ⟨rfl, by rw [writeDesc_getElem?, if_pos ⟨rfl, readDesc_lt hd⟩]; rfl⟩

end LostNotification

/-- Settles O33: the store sets the notification and hands the slot over; the DRAIN_ACK clears the notification and
keeps the slot. -/
theorem lostNotificationRace : Obligations.LostNotificationRace := by
  intro len crcErr otherErr bytes s t u d k hp hen hslot ho _ hrx hack
  have hd : readDesc s .rx s.ccur.rx = .ok d := readDesc_eq_ok.2 hslot
  have hstore : rxStore len crcErr otherErr bytes d s = .next t :=
    (execRxFrame_eq_rxStore ⟨hp, hen⟩ hd ho).symm.trans hrx
  obtain ⟨hpend, hown⟩ := rxStore_notifies_and_handsOver hd hstore
  obtain rfl : endDrain t .ok k = u := Host.Outcome.next.inj hack
  obtain ⟨hcleared, -⟩ := endDrain_spec t .ok k
  obtain ⟨hkept, -⟩ : SlotKept t (endDrain t .ok k) .rx s.ccur.rx := slotKept_endDrain t .ok k
  exact ⟨hpend, hcleared, (congrArg _ hkept).trans hown⟩

end Sys2Proof.Machine
end
